-- ==== Sys2Proof/Word.lean ====
section
/-! DEFINITION. The words of the block: what the spec numbers bit by bit. -/

namespace Sys2Proof

/-- A character code point or a payload byte, 8 bits (R21). -/
abbrev Byte := BitVec 8

/-- A register word, 32 bits (R36). -/
abbrev Word := BitVec 32

/-- A command word `cmd[39:0]` (R70). -/
abbrev CmdWord := BitVec 40

/-- A symbol word `s[11:0]`: four 3-bit lanes (R78). -/
abbrev SymWord := BitVec 12

/-- A level code `c[2:0]`: a level in 3-bit two's complement (R77). -/
abbrev LevelCode := BitVec 3

/-- A bit pair as a number: `p[1]` the first bit, `p[0]` the second (R73). -/
abbrev BitPair := BitVec 2

end Sys2Proof
end

