-- ==== Sys2Proof/Config.lean ====
section
/-! DEFINITION. What an implementation fixes (the capacities, the version) and the free values: the environment's
answers to draws that the state lists no answer for. -/

namespace Sys2Proof

/-- The three capacity parameters of R6. They never change; State holds them as the constant registers CAPT, CAPK
and CAPP (R30; log 3). -/
structure Params where
  /-- Capacity of TXT in characters. -/
  tmax : Nat
  /-- Capacity of KEY in characters. -/
  kmax : Nat
  /-- Capacity of PAY in bytes. -/
  pmax : Nat
deriving DecidableEq, Repr

/-- The bounds of R6. -/
def Params.InBounds (p : Params) : Prop :=
  1 ≤ p.tmax ∧ p.tmax ≤ 2 ^ 25 ∧ 1 ≤ p.kmax ∧ p.kmax ≤ 2 ^ 25 ∧ 19 ≤ p.pmax ∧ p.pmax ≤ 2 ^ 28

/-- The default column of R6. -/
def Params.default : Params := { tmax := 1024, kmax := 256, pmax := 65536 }

namespace Config

/-- What register VERSION reads (R30): the label LCB-1. -/
def version : Word := 0x00000001

/-- RXCHUNK (R8): recorded for reference only; no rule and no definition of the model depends on it. -/
def rxChunk : Nat := 4096

/-- FREE VALUE (log 4): the environment's answer `ok` to the `n`-th draw, where the state lists no answer for a draw
of FT.OPEN (R171). No body: nothing can be proved of it. -/
opaque freeOpenOk : Nat → Bool

/-- FREE VALUE (log 4): the number of bytes the link would accept at the `n`-th draw, where the state lists no answer
for a draw of FT.WRITE (R173). No body: nothing can be proved of it. -/
opaque freeWriteAccepts : Nat → Nat

end Config

end Sys2Proof
end

