-- ==== Sys2Proof/Syntax.lean ====
section
/-! DEFINITION. The commands of the block: one constructor per row of the opcode map (R84). -/

namespace Sys2Proof

/-- The five operand buffers (R21). -/
inductive Buf where
  | txt | key | bit | sym | pay
deriving DecidableEq, Repr

/-- A legal command word, decoded (R84). Operands are as the format gives them (R72): a buffer id may still be one of
the reserved ids 5..15, a register number or a datum may still be one its command rejects (R74). -/
inductive Instr where
  /-- NOP, format Z (R101). -/
  | nop
  /-- RDREG, format A: `a` the register number (R102). -/
  | rdreg (a : Word)
  /-- SRESET, format Z (R103). -/
  | sreset
  /-- SETSEED, format A: `a` the new SEED (R104). -/
  | setseed (a : Word)
  /-- SETOLEN, format A: `a` the new OLEN (R105). -/
  | setolen (a : Word)
  /-- BCLR, format BZ: `buf` the buffer id (R107). -/
  | bclr (buf : Nat)
  /-- BPUSH, format B: `buf` the buffer id, `d` the element (R106). -/
  | bpush (buf d : Nat)
  /-- BREAD, format B: `buf` the buffer id, `d` the index (R108). -/
  | bread (buf d : Nat)
  /-- BTRUNC, format B: `buf` the buffer id, `d` the new maximum length (R109). -/
  | btrunc (buf d : Nat)
  /-- BTRUNCO, format Z (R110). -/
  | btrunco
  /-- BC.ENC, format Z (R123). -/
  | bcEnc
  /-- BC.DEC, format Z (R124). -/
  | bcDec
  /-- SC.XOR, format Z (R135). -/
  | scXor
  /-- SC.PERM, format Z (R136). -/
  | scPerm
  /-- SC.UNPERM, format Z (R137). -/
  | scUnperm
  /-- SC.ENCRYPT, format Z (R138). -/
  | scEncrypt
  /-- SC.DECRYPT, format Z (R139). -/
  | scDecrypt
  /-- LC.ENC, format Z (R154). -/
  | lcEnc
  /-- LC.DEC, format Z (R155). -/
  | lcDec
  /-- LC.B2L, format P2: `p` the bit-pair number (R156). -/
  | lcB2l (p : BitPair)
  /-- LC.L2B, format P3: `c` the level code (R157). -/
  | lcL2b (c : LevelCode)
  /-- FT.OPEN, format Z (R171). -/
  | ftOpen
  /-- FT.CLOSE, format Z (R172). -/
  | ftClose
  /-- FT.WRITE, format Z (R173). -/
  | ftWrite
  /-- FT.READ, format Z (R174). -/
  | ftRead
  /-- MSG.PACK, format F1: `f` includes originalMessage (R182). -/
  | msgPack (f : Bool)
  /-- MSG.UNPACK, format Z (R183). -/
  | msgUnpack
deriving DecidableEq, Repr

end Sys2Proof
end

