-- ==== Sys2Proof/Machine/State.lean ====
section
/-! DEFINITION. The state of one block instance (R20) with the inputs and outputs of its step relation (R35) as plain
data, the reasons a step could stop, and the state after reset (R37). -/

namespace Sys2Proof.Machine

/-- Why the machine stops with a fault. NO constructor: every behaviour the spec gives the block is a next state. A
fatal fault of the spec (R204) is one: FAULT and FINFO are written and the block answers. -/
inductive Fault where
deriving DecidableEq, Repr

/-- Why an instruction has no meaning. -/
inductive Refusal where
  /-- Raised by an arm of `exec` whose instruction has no meaning yet (no arm is in that case). Safe: nothing can be
  proved of a next state. -/
  | notModelled (mnemonic : String)
deriving DecidableEq, Repr

/-- The codes of the fatal faults (R201). -/
inductive FatalCode where
  | encoding | malformedInput | invalidSeed | invalidLevel | emptyKey | illegalCommand | bounds | capacity
deriving DecidableEq, Repr

/-- The codes of the transport-class errors (R202). -/
inductive TransportCode where
  | connection | notConnected | transport | protocol | linkBusy
deriving DecidableEq, Repr

/-- The five flags of STATUS; bits [31:5] of the register read zero (R28; log 14). -/
structure Status where
  /-- Bit 0, LINKUP: a connection is attached. -/
  linkup : Bool
  /-- Bit 1, RXCLOSED: the last FT.READ ended with ConnectionClosed. -/
  rxclosed : Bool
  /-- Bit 2, TORN: that closure cut a frame in its payload. -/
  torn : Bool
  /-- Bit 3, BROKEN: an I/O failure has happened on this connection. -/
  broken : Bool
  /-- Bit 4, OMP: the last successful MSG.UNPACK found an originalMessage field. -/
  omp : Bool
deriving DecidableEq, Repr

/-- A response word: `rsp[39:32]` the status, `rsp[31:0]` the value (R75). -/
structure Response where
  status : BitVec 8
  value : Word
deriving DecidableEq, Repr

/-- A step of the link agents (R175). -/
inductive LinkStep where
  /-- `peer.deliver(b)`. -/
  | deliver (b : Byte)
  /-- `peer.close`. -/
  | close
  /-- `link.fail`. -/
  | fail
deriving DecidableEq, Repr

/-- An action of an agent outside the block (R35, R100, R175, R230). -/
inductive Input where
  /-- The host issues the command word `w` (R100). -/
  | command (w : CmdWord)
  /-- A link agent takes a step (R175). -/
  | link (e : LinkStep)
  /-- Hardware reset, between commands or while an FT.READ holds (R230). -/
  | hardReset
  /-- The host issues `w` and hardware reset abandons it in flight; `k` is the number of bytes the link had accepted if
  `w` was sending a frame (R231; log 11). -/
  | abandoned (w : CmdWord) (k : Nat)
deriving DecidableEq, Repr

/-- The state. Each length register is the length of its buffer's list (R22, R39 item 3; log 13). -/
structure State where
  /-- CAPT, CAPK, CAPP: the constant parameters (R6, R30). -/
  params : Params
  /-- TXT, 8-bit characters; TLEN is its length (R21, R22). -/
  txt : List Byte
  /-- KEY, 8-bit characters; KLEN is its length (R21, R22). -/
  key : List Byte
  /-- BIT, bits; BLEN is its length (R21, R22). -/
  bit : List Bool
  /-- SYM, raw 12-bit words; SLEN is its length (R21, R22). -/
  sym : List SymWord
  /-- PAY, bytes; PLEN is its length (R21, R22). -/
  pay : List Byte
  /-- SEED (R23). -/
  seed : Word
  /-- OLEN (R24). -/
  olen : Word
  /-- FAULT (R25). -/
  fault : Word
  /-- FINFO (R26). -/
  finfo : Word
  /-- TERR (R27). -/
  terr : Word
  /-- STATUS (R28). -/
  status : Status
  /-- RXLEN (R29). -/
  rxlen : Word
  /-- RXCNT (R29). -/
  rxcnt : Word
  /-- RXFIFO, oldest byte first (R32). -/
  rxfifo : List Byte
  /-- RXEOF (R32). -/
  rxeof : Bool
  /-- TXOUT, oldest byte first (R32). -/
  txout : List Byte
  /-- An FT.READ is in flight and holds (R174, R240). -/
  held : Bool
  /-- MODEL: what the agents outside the block still do, in that order (R35; log 1). -/
  inputs : List Input
  /-- MODEL: the responses given so far, oldest first (R75; log 7). -/
  responses : List Response
  /-- MODEL: the environment's next answers to FT.OPEN's draw (R171; log 4). -/
  openDraws : List Bool
  /-- MODEL: the environment's next answers to FT.WRITE's draw (R173; log 4). -/
  writeDraws : List Nat
  /-- MODEL: how many draws have been made, the argument of the free values of Config (log 4). -/
  drawCount : Nat
deriving DecidableEq, Repr

/-- STATUS with every bit 0 (R37). -/
def Status.clear : Status :=
  { linkup := false, rxclosed := false, torn := false, broken := false, omp := false }

/-- The machine right after power-on reset (R37): every register 0, every buffer empty, link down, mode RUN, the default
parameters (R6; log 3). TXOUT starts empty (log 6) and nothing is placed in the model's own fields. -/
def State.reset : State :=
  { params := Params.default
    txt := [], key := [], bit := [], sym := [], pay := []
    seed := 0, olen := 0
    fault := 0, finfo := 0, terr := 0, status := Status.clear
    rxlen := 0, rxcnt := 0
    rxfifo := [], rxeof := false, txout := []
    held := false
    inputs := [], responses := [], openDraws := [], writeDraws := [], drawCount := 0 }

/-- What one step or one meaning answers. -/
abbrev Result := Host.Outcome State Fault Refusal

end Sys2Proof.Machine
end

