-- ==== Sys2Proof/Machine/Flags.lean ====
section
/-! DEFINITION. The numbers of the status and fault codes, the STATUS register as a word, and the operating mode. -/

namespace Sys2Proof.Machine

/-- The status code of a fatal fault (R76, R201). -/
def FatalCode.code : FatalCode → BitVec 8
  | .encoding => 0x01
  | .malformedInput => 0x02
  | .invalidSeed => 0x03
  | .invalidLevel => 0x04
  | .emptyKey => 0x05
  | .illegalCommand => 0x06
  | .bounds => 0x07
  | .capacity => 0x08

/-- The status code of a transport-class error (R76, R202). -/
def TransportCode.code : TransportCode → BitVec 8
  | .connection => 0x10
  | .notConnected => 0x11
  | .transport => 0x12
  | .protocol => 0x13
  | .linkBusy => 0x14

/-- Status OK (R76). -/
def statusOk : BitVec 8 := 0x00

/-- Status Faulted (R76). -/
def statusFaulted : BitVec 8 := 0x0F

/-- Status ConnectionClosed (R76). -/
def statusClosed : BitVec 8 := 0x20

/-- One flag at its bit position. -/
def flagAt (b : Bool) (n : Nat) : Word := if b then 1#32 <<< n else 0

/-- STATUS as RDREG reads it: bits 0 to 4 the flags, bits [31:5] zero (R28). -/
def Status.word (st : Status) : Word :=
  flagAt st.linkup 0 ||| flagAt st.rxclosed 1 ||| flagAt st.torn 2 ||| flagAt st.broken 3 ||| flagAt st.omp 4

/-- A response as the 40-bit word `rsp[39:0]` (R75). -/
def Response.word (r : Response) : BitVec 40 := r.status ++ r.value

/-- The two operating modes (R38, R211). -/
inductive Mode where
  | run | faulted
deriving DecidableEq, Repr

/-- The mode is a function of FAULT (R38). -/
def State.mode (s : State) : Mode := if s.fault = 0 then .run else .faulted

end Sys2Proof.Machine
end

