-- ==== Sys2Proof/Machine/Operands.lean ====
section
/-! DEFINITION. The operand forms: buffer ids and elements (R21, R79), register numbers (R36), levels, lanes and the level
ROM (R31, R77, R78), and the conversions between bytes, bits and numbers (R13). -/

namespace Sys2Proof.Machine

/-! ## Conversions (R13) -/

/-- `bits8`: the eight bits of a byte, the most significant first (R13, R52). -/
def bits8 (v : Byte) : List Bool :=
  [v.getLsbD 7, v.getLsbD 6, v.getLsbD 5, v.getLsbD 4, v.getLsbD 3, v.getLsbD 2, v.getLsbD 1, v.getLsbD 0]

/-- `val8`: the byte whose bits are `b0` (the most significant) to `b7`, the inverse of `bits8` (R13). -/
def val8 (b0 b1 b2 b3 b4 b5 b6 b7 : Bool) : Byte :=
  BitVec.ofNat 8 (b0.toNat * 128 + b1.toNat * 64 + b2.toNat * 32 + b3.toNat * 16 + b4.toNat * 8 + b5.toNat * 4 +
    b6.toNat * 2 + b7.toNat)

/-- `u32be`: four bytes, the most significant first (R13, R54). -/
def u32be (v : Nat) : List Byte :=
  [BitVec.ofNat 8 (v / 2 ^ 24), BitVec.ofNat 8 (v / 2 ^ 16), BitVec.ofNat 8 (v / 2 ^ 8), BitVec.ofNat 8 v]

/-- `be32`: the number of four bytes, the most significant first, the inverse of `u32be` (R13). -/
def be32 (b0 b1 b2 b3 : Byte) : Nat :=
  2 ^ 24 * b0.toNat + 2 ^ 16 * b1.toNat + 2 ^ 8 * b2.toNat + b3.toNat

/-- `sint32`: a register word as a signed integer (R13). -/
def sint32 (w : Word) : Int :=
  if w.toNat < 2 ^ 31 then (w.toNat : Int) else (w.toNat : Int) - 2 ^ 32

/-! ## Buffers (R21, R79) -/

/-- The buffer of an id; ids 5..15 are reserved (R79). -/
def bufOfId (buf : Nat) : Option Buf :=
  match buf with
  | 0 => some .txt
  | 1 => some .key
  | 2 => some .bit
  | 3 => some .sym
  | 4 => some .pay
  | _ => none

/-- The id of a buffer (R21, R79). -/
def bufId : Buf → Nat
  | .txt => 0
  | .key => 1
  | .bit => 2
  | .sym => 3
  | .pay => 4

/-- `cap(buf)`: TMAX, KMAX, BMAX = 8*TMAX, SMAX = TMAX, PMAX (R7, R21). -/
def capOf (p : Params) : Buf → Nat
  | .txt => p.tmax
  | .key => p.kmax
  | .bit => 8 * p.tmax
  | .sym => p.tmax
  | .pay => p.pmax

/-- `wmax(buf)`: the largest element of the buffer's width (R79; 40_system_buffer.md section 3). -/
def wmaxOf : Buf → Nat
  | .txt => 255
  | .key => 255
  | .bit => 1
  | .sym => 0xFFF
  | .pay => 255

/-- A buffer of characters: the one kind whose too large datum is an EncodingError (R106). -/
def isText : Buf → Bool
  | .txt => true
  | .key => true
  | .bit => false
  | .sym => false
  | .pay => false

/-- `LEN(buf)`: the buffer's length register (R22). -/
def lenOf (s : State) : Buf → Nat
  | .txt => s.txt.length
  | .key => s.key.length
  | .bit => s.bit.length
  | .sym => s.sym.length
  | .pay => s.pay.length

/-- `zext_32` of one bit. -/
def bitWord (b : Bool) : Word := if b then 1 else 0

/-- `zext_32(MemRead(buf, i))`, defined below the buffer's length (R14, R50, R108). -/
def readElem (s : State) (b : Buf) (i : Nat) : Option Word :=
  match b with
  | .txt => s.txt[i]?.map (·.setWidth 32)
  | .key => s.key[i]?.map (·.setWidth 32)
  | .bit => s.bit[i]?.map bitWord
  | .sym => s.sym[i]?.map (·.setWidth 32)
  | .pay => s.pay[i]?.map (·.setWidth 32)

/-- A length or a count as a register word (R22, R36; log 13). -/
def lenWord (n : Nat) : Word := BitVec.ofNat 32 n

/-! ## Register numbers (R36) -/

/-- What RDREG reads at register number `a`; `none` where the number is no register (R36). -/
def readReg (s : State) (a : Word) : Option Word :=
  match a.toNat with
  | 0x00 => some s.fault
  | 0x01 => some s.finfo
  | 0x02 => some s.terr
  | 0x03 => some s.status.word
  | 0x04 => some (lenWord s.txt.length)
  | 0x05 => some (lenWord s.key.length)
  | 0x06 => some (lenWord s.bit.length)
  | 0x07 => some (lenWord s.sym.length)
  | 0x08 => some (lenWord s.pay.length)
  | 0x09 => some s.seed
  | 0x0A => some s.olen
  | 0x0B => some s.rxlen
  | 0x0C => some s.rxcnt
  | 0x0D => some (lenWord s.params.tmax)
  | 0x0E => some (lenWord s.params.kmax)
  | 0x0F => some (lenWord s.params.pmax)
  | 0x10 => some Config.version
  | _ => none

/-! ## The level ROM (R31), level codes and symbol words (R77, R78) -/

/-- One row of LVLROM (R31). -/
structure LevelRow where
  pair : BitPair
  level : Int
  code : LevelCode
deriving DecidableEq, Repr

/-- LVLROM, the fixed bijective table (R31). -/
def lvlRom : List LevelRow :=
  [ { pair := 0b00, level := -2, code := 0b110 },
    { pair := 0b01, level := 1, code := 0b001 },
    { pair := 0b10, level := -1, code := 0b111 },
    { pair := 0b11, level := 2, code := 0b010 } ]

/-- `levelOf`: the level code of a bit pair, read from LVLROM (R150); every pair has a row. -/
def levelOf (p : BitPair) : LevelCode :=
  ((lvlRom.find? fun r => r.pair == p).map (·.code)).getD 0

/-- `bitpairOf`: the bit pair of a level code, read from LVLROM; undefined on the invalid codes (R150). -/
def bitpairOf (c : LevelCode) : Option BitPair :=
  (lvlRom.find? fun r => r.code == c).map (·.pair)

/-- `validLevel`: one of the four defined values (R77). -/
def validLevel (c : LevelCode) : Bool := c == 0b001 || c == 0b010 || c == 0b110 || c == 0b111

/-- The bit pair with first bit `f` and second bit `t` (R73). -/
def pairOf (f t : Bool) : BitPair := BitVec.ofNat 2 (2 * f.toNat + t.toNat)

/-- The first and the second bit of a pair (R73). -/
def pairBits (p : BitPair) : List Bool := [p.getLsbD 1, p.getLsbD 0]

/-- `lane(s, k) = (s >> (9 - 3k)) & 7` (R78). -/
def lane (w : SymWord) (k : Nat) : LevelCode := (w >>> (9 - 3 * k)).setWidth 3

/-- The symbol word of four lanes, lane 0 in bits [11:9] (R78). -/
def symOf (l0 l1 l2 l3 : LevelCode) : SymWord := l0 ++ l1 ++ l2 ++ l3

/-- The four lanes of a symbol word in order (R78). -/
def lanesOf (w : SymWord) : List LevelCode := [lane w 0, lane w 1, lane w 2, lane w 3]

end Sys2Proof.Machine
end

