-- ==== Sys2Proof/Machine/Ops.lean ====
section
/-! DEFINITION. The shared operations: completing a command, raising a fault or a transport error, the mode check of a
command, writing buffers, resetting, dropping the link, and the environment's draws. -/

namespace Sys2Proof.Machine

/-! ## Completing a command -/

/-- `respond(status, value)`: complete the command in flight with this response word (R14, R75). -/
def respond (status : BitVec 8) (value : Word) (s : State) : State :=
  { s with held := false, responses := s.responses ++ [{ status := status, value := value }] }

/-- `respond(0x00, value)`. -/
def respondOk (value : Word) (s : State) : State := respond statusOk value s

/-- Taking a fatal fault, `raise Fatal(code, info)` in RUN mode: FAULT, FINFO and the response are written, nothing else
changes (R204). Leaving it again is `resetState` (R207). -/
def raiseFatal (c : FatalCode) (info : Word) (s : State) : State :=
  respond c.code info { s with fault := c.code.setWidth 32, finfo := info }

/-- `raise Transport(code)`: TERR and the response are written; FAULT and the mode stay (R208). -/
def raiseTransport (c : TransportCode) (s : State) : State :=
  respond c.code 0 { s with terr := c.code.setWidth 32 }

/-- The refusal of a command in FAULTED mode (R206). -/
def refuseFaulted (s : State) : State := respond statusFaulted s.fault s

/-- A command that only RUN mode accepts (R100, R206). -/
def inRunMode (s body : State) : State := if s.fault = 0 then body else refuseFaulted s

/-- An illegal command word with opcode `op` (R74, R100). -/
def illegalWord (op : BitVec 8) (s : State) : State :=
  inRunMode s (raiseFatal .illegalCommand (op.setWidth 32) s)

/-! ## Buffers -/

/-- `MemWrite(buf, LEN(buf), d); LEN(buf) <- LEN(buf) + 1`: append one element of the buffer's width (R57, R106). -/
def pushElem (b : Buf) (d : Nat) (s : State) : State :=
  match b with
  | .txt => { s with txt := s.txt ++ [BitVec.ofNat 8 d] }
  | .key => { s with key := s.key ++ [BitVec.ofNat 8 d] }
  | .bit => { s with bit := s.bit ++ [d % 2 == 1] }
  | .sym => { s with sym := s.sym ++ [BitVec.ofNat 12 d] }
  | .pay => { s with pay := s.pay ++ [BitVec.ofNat 8 d] }

/-- `LEN(buf) <- min(LEN(buf), n)`: keep the first `n` elements (R109). -/
def truncBuf (b : Buf) (n : Nat) (s : State) : State :=
  match b with
  | .txt => { s with txt := s.txt.take n }
  | .key => { s with key := s.key.take n }
  | .bit => { s with bit := s.bit.take n }
  | .sym => { s with sym := s.sym.take n }
  | .pay => { s with pay := s.pay.take n }

/-! ## Reset and the link -/

/-- Set every item of state to its reset value: the effect hardware reset and SRESET share (R37, R103, R230). TXOUT is
not touched (R32), the constants keep their values (R30), and a command in flight is gone (R230). -/
def resetState (s : State) : State :=
  { s with
    txt := [], key := [], bit := [], sym := [], pay := []
    seed := 0, olen := 0
    fault := 0, finfo := 0, terr := 0, status := Status.clear
    rxlen := 0, rxcnt := 0
    rxfifo := [], rxeof := false
    held := false }

/-- `LINKUP <- 0; RXFIFO <- empty; RXEOF <- 0`: the connection is gone (R172, R174). -/
def dropLink (s : State) : State :=
  { s with status := { s.status with linkup := false }, rxfifo := [], rxeof := false }

/-! ## The environment's draws (R171, R173) -/

/-- `draw ok in {true, false}`: the next answer listed, else a free value (R171; log 4). -/
def drawnOk (s : State) : Bool :=
  match s.openDraws with
  | ok :: _ => ok
  | [] => Config.freeOpenOk s.drawCount

/-- The draw of `ok` is used up. -/
def passOpenDraw (s : State) : State :=
  { s with openDraws := s.openDraws.tail, drawCount := s.drawCount + 1 }

/-- `draw k in {0, ..., n}`: the next answer listed, else a free value, never above `n` (R173; log 4, log 5). -/
def drawnAccepts (n : Nat) (s : State) : Nat :=
  match s.writeDraws with
  | k :: _ => min k n
  | [] => min (Config.freeWriteAccepts s.drawCount) n

/-- The draw of `k` is used up. -/
def passWriteDraw (s : State) : State :=
  { s with writeDraws := s.writeDraws.tail, drawCount := s.drawCount + 1 }

end Sys2Proof.Machine
end

