-- ==== Sys2Proof/Machine/BitCodec.lean ====
section
/-! DEFINITION. BitCodec: the functions of R120 and R121 and the commands BC.ENC and BC.DEC. -/

namespace Sys2Proof.Machine

/-- `BCenc`: eight bits per character, the most significant first, in order, 8 times as many bits as characters (R120);
`bcDecode` undoes it (R122). -/
def bcEncode (t : List Byte) : List Bool := t.flatMap bits8

/-- `BCdec`: one character per eight bits (R121); it is used only where the length is a multiple of 8, and
there `bcEncode` undoes it (R122). -/
def bcDecode : List Bool → List Byte
  | b0 :: b1 :: b2 :: b3 :: b4 :: b5 :: b6 :: b7 :: rest => val8 b0 b1 b2 b3 b4 b5 b6 b7 :: bcDecode rest
  | _ => []

/-- BC.ENC: BIT ← BCenc(TXT) (R123). -/
def execBcEnc (s : State) : Result :=
  .next (inRunMode s (
    let b := bcEncode s.txt
    respondOk (lenWord b.length) { s with bit := b }))

/-- BC.DEC: TXT ← BCdec(BIT) (R124). -/
def execBcDec (s : State) : Result :=
  .next (inRunMode s (
    if s.bit.length % 8 ≠ 0 then raiseFatal .malformedInput (lenWord s.bit.length) s
    else
      let t := bcDecode s.bit
      respondOk (lenWord t.length) { s with txt := t }))

end Sys2Proof.Machine
end

