-- ==== Sys2Proof/Machine/Buffer.lean ====
section
/-! DEFINITION. The buffer commands (R106 to R110). -/

namespace Sys2Proof.Machine

/-- BPUSH's checks on a buffer that exists, in the order of R106, then the push. -/
def pushChecked (b : Buf) (d : Nat) (s : State) : State :=
  if isText b && decide (255 < d) then raiseFatal .encoding (lenWord d) s
  else if wmaxOf b < d then raiseFatal .illegalCommand 0x11 s
  else if lenOf s b = capOf s.params b then raiseFatal .capacity (lenWord (bufId b)) s
  else respondOk (lenWord (lenOf s b + 1)) (pushElem b d s)

/-- BPUSH: append one element (R106). -/
def execBpush (buf d : Nat) (s : State) : Result :=
  .next (inRunMode s (
    match bufOfId buf with
    | none => raiseFatal .illegalCommand 0x11 s
    | some b => pushChecked b d s))

/-- BCLR: empty a buffer (R107). -/
def execBclr (buf : Nat) (s : State) : Result :=
  .next (inRunMode s (
    match bufOfId buf with
    | none => raiseFatal .illegalCommand 0x10 s
    | some b => respondOk 0 (truncBuf b 0 s)))

/-- BREAD: read one element (R108). -/
def execBread (buf d : Nat) (s : State) : Result :=
  .next (inRunMode s (
    match bufOfId buf with
    | none => raiseFatal .illegalCommand 0x12 s
    | some b =>
      match readElem s b d with
      | none => raiseFatal .bounds (lenWord d) s
      | some v => respondOk v s))

/-- BTRUNC: keep a prefix (R109). -/
def execBtrunc (buf d : Nat) (s : State) : Result :=
  .next (inRunMode s (
    match bufOfId buf with
    | none => raiseFatal .illegalCommand 0x13 s
    | some b => respondOk (lenWord (min (lenOf s b) d)) (truncBuf b d s)))

/-- BTRUNCO: truncate BIT to originalLength (R110). -/
def execBtrunco (s : State) : Result :=
  .next (inRunMode s (
    respondOk (lenWord (min s.bit.length s.olen.toNat)) (truncBuf .bit s.olen.toNat s)))

end Sys2Proof.Machine
end

