-- ==== Sys2Proof/Machine/FrameTransport.lean ====
section
/-! DEFINITION. FrameTransport: the wire frame (R80, R170) and the four FT commands. -/

namespace Sys2Proof.Machine

/-- `frame(P) = u32be(len(P)) ++ P` (R80, R170). -/
def frame (p : List Byte) : List Byte := u32be p.length ++ p

/-- `L = be32(q[0 : 4])`, when four bytes have arrived (R174). -/
def frameLen : List Byte → Option Nat
  | b0 :: b1 :: b2 :: b3 :: _ => some (be32 b0 b1 b2 b3)
  | _ => none

/-! ## FT.OPEN and FT.CLOSE -/

/-- A new connection is attached: an empty RXFIFO, a new TXOUT log, LINKUP set, RXCLOSED, TORN and BROKEN cleared
(R171). -/
def attach (s : State) : State :=
  { s with
    rxfifo := [], rxeof := false, txout := []
    status := { s.status with linkup := true, rxclosed := false, torn := false, broken := false } }

/-- FT.OPEN once the environment has answered `ok` (R171). -/
def openWith (ok : Bool) (s : State) : State :=
  if ok then respondOk 0 (attach s) else raiseTransport .connection s

/-- FT.OPEN: attach a connection (R171). -/
def execFtOpen (s : State) : Result :=
  .next (inRunMode s (
    if s.status.linkup then raiseTransport .linkBusy s
    else openWith (drawnOk s) (passOpenDraw s)))

/-- FT.CLOSE: detach; it always answers OK (R172). -/
def execFtClose (s : State) : Result :=
  .next (inRunMode s (
    respondOk 0 (dropLink { s with status := { s.status with broken := false } })))

/-! ## FT.WRITE -/

/-- FT.WRITE once the link has accepted `k` of the frame's bytes (R173). -/
def writeWith (k : Nat) (s : State) : State :=
  let sent := { s with txout := s.txout ++ (frame s.pay).take k }
  if k < 4 + s.pay.length then
    raiseTransport .transport { sent with status := { sent.status with broken := true } }
  else respondOk (lenWord s.pay.length) sent

/-- FT.WRITE: send PAY as one frame (R173). -/
def execFtWrite (s : State) : Result :=
  .next (inRunMode s (
    if !s.status.linkup then raiseTransport .notConnected s
    else if s.status.broken then raiseTransport .transport s
    else writeWith (drawnAccepts (4 + s.pay.length) s) (passWriteDraw s)))

/-! ## FT.READ -/

/-- The hold condition of FT.READ has become true: BROKEN, RXEOF, or a length that is oversize or whose frame is
complete (R174). -/
def readReady (s : State) : Bool :=
  s.status.broken || s.rxeof ||
    match frameLen s.rxfifo with
    | none => false
    | some n => decide (s.params.pmax < n) || decide (4 + n ≤ s.rxfifo.length)

/-- An oversize frame: the connection is destroyed, ProtocolError (R174). -/
def readOversize (n : Nat) (s : State) : State :=
  raiseTransport .protocol (dropLink { s with rxlen := lenWord n, rxcnt := 0 })

/-- A complete frame of `n` payload bytes is delivered to PAY; the rest stays in RXFIFO (R59, R174). -/
def readComplete (n : Nat) (s : State) : State :=
  respondOk (lenWord n)
    { s with
      pay := (s.rxfifo.drop 4).take n
      rxfifo := s.rxfifo.drop (4 + n)
      rxlen := lenWord n, rxcnt := lenWord n }

/-- The peer has closed and no complete frame is left: ConnectionClosed, which is no error (R174, R203). -/
def readClosed (n cnt : Nat) (torn : Bool) (s : State) : State :=
  respond statusClosed 0
    (dropLink { s with
      rxlen := lenWord n, rxcnt := lenWord cnt
      status := { s.status with torn := torn, rxclosed := true } })

/-- FT.READ when the hold condition is true; the tests in the order of R174. -/
def readNow (s : State) : State :=
  if s.status.broken then raiseTransport .transport s
  else
    match frameLen s.rxfifo with
    | none => readClosed 0 s.rxfifo.length false s
    | some n =>
      if s.params.pmax < n then readOversize n s
      else if 4 + n ≤ s.rxfifo.length then readComplete n s
      else readClosed n (s.rxfifo.length - 4) true s

/-- FT.READ: receive one frame into PAY, or hold without a response (R174, R240). -/
def execFtRead (s : State) : Result :=
  .next (inRunMode s (
    if !s.status.linkup then raiseTransport .notConnected s
    else if readReady s then readNow s
    else { s with held := true }))

end Sys2Proof.Machine
end

