-- ==== Sys2Proof/Machine/LineCoder.lean ====
section
/-! DEFINITION. LineCoder: the functions of R151 and R152 and the four LC commands. -/

namespace Sys2Proof.Machine

/-- `pad = (8 - n mod 8) mod 8` (R151). -/
def padCount (n : Nat) : Nat := (8 - n % 8) % 8

/-- One symbol word per 8-bit block of a padded bit string (R53, R151). -/
def symbolBlocks : List Bool → List SymWord
  | b0 :: b1 :: b2 :: b3 :: b4 :: b5 :: b6 :: b7 :: rest =>
    symOf (levelOf (pairOf b0 b1)) (levelOf (pairOf b2 b3)) (levelOf (pairOf b4 b5)) (levelOf (pairOf b6 b7)) ::
      symbolBlocks rest
  | _ => []

/-- `LCenc`: pad on the right with zero bits, then one symbol word per block (R151). -/
def lcEncode (b : List Bool) : List SymWord :=
  symbolBlocks (b ++ List.replicate (padCount b.length) false)

/-- All lanes of a symbol sequence in scan order: symbol by symbol, lane 0 first (R155). -/
def allLanes (ws : List SymWord) : List LevelCode := ws.flatMap lanesOf

/-- The first invalid lane from position `pos` on, with its position `4j + k` (R155). -/
def firstInvalidFrom (pos : Nat) : List LevelCode → Option (Nat × LevelCode)
  | [] => none
  | c :: rest => if validLevel c then firstInvalidFrom (pos + 1) rest else some (pos, c)

/-- `FINFO` of an InvalidLevelError: `(position << 3) | code` (R155, R157, R201). -/
def levelInfo (pos : Nat) (c : LevelCode) : Word := (BitVec.ofNat 32 pos <<< 3) ||| c.setWidth 32

/-- `LCdec`: the bit pair of every lane in order (R152); it is used only where every lane is valid. -/
def lcDecode (ws : List SymWord) : List Bool :=
  (allLanes ws).flatMap fun c => ((bitpairOf c).map pairBits).getD []

/-- LC.ENC: SYM ← LCenc(BIT) (R154). -/
def execLcEnc (s : State) : Result :=
  .next (inRunMode s (
    let ws := lcEncode s.bit
    respondOk (lenWord ws.length) { s with sym := ws }))

/-- LC.DEC: BIT ← LCdec(SYM) (R155). -/
def execLcDec (s : State) : Result :=
  .next (inRunMode s (
    match firstInvalidFrom 0 (allLanes s.sym) with
    | some (pos, c) => raiseFatal .invalidLevel (levelInfo pos c) s
    | none =>
      let b := lcDecode s.sym
      respondOk (lenWord b.length) { s with bit := b }))

/-- LC.B2L: look up one bit pair (R156). -/
def execLcB2l (p : BitPair) (s : State) : Result :=
  .next (inRunMode s (respondOk ((levelOf p).setWidth 32) s))

/-- LC.L2B: look up one level; an invalid code is InvalidLevelError with the position field all ones (R157). -/
def execLcL2b (c : LevelCode) (s : State) : Result :=
  .next (inRunMode s (
    match bitpairOf c with
    | none => raiseFatal .invalidLevel (levelInfo 0x1FFFFFFF c) s
    | some p => respondOk (p.setWidth 32) s))

end Sys2Proof.Machine
end

