-- ==== Sys2Proof/Machine/Message.lean ====
section
/-! DEFINITION. The Message payload (R82, R83, R180, R181) and the two MSG commands. -/

namespace Sys2Proof.Machine

/-- What a payload carries: symbols, key, originalLength and the optional originalMessage (R82, R180). -/
structure Message where
  symbols : List SymWord
  key : List Byte
  olen : Word
  text : Option (List Byte)
deriving DecidableEq, Repr

/-! ## serialize (R82, R180) -/

/-- `field(t, v) = [t] ++ u32be(len(v)) ++ v` (R82). -/
def field (tag : Byte) (v : List Byte) : List Byte := tag :: (u32be v.length ++ v)

/-- The two bytes of a symbol word, big-endian (R82). -/
def symBytes (w : SymWord) : List Byte := [(w >>> 8).setWidth 8, w.setWidth 8]

/-- The fourth field, present when a text is given (R82). -/
def textField : Option (List Byte) → List Byte
  | none => []
  | some t => field 0x04 t

/-- `serialize`: the fields in this order, the fourth optional (R82, R180). -/
def serialize (m : Message) : List Byte :=
  field 0x01 (m.symbols.flatMap symBytes) ++ field 0x02 m.key ++ field 0x03 (u32be m.olen.toNat) ++ textField m.text

/-! ## parse (R83, R181) -/

/-- Take one field with this tag: its value and what follows it, when its length bytes and its value lie inside the
sequence (R83). -/
def takeField (tag : Byte) : List Byte → Option (List Byte × List Byte)
  | t :: b0 :: b1 :: b2 :: b3 :: rest =>
    if t = tag ∧ be32 b0 b1 b2 b3 ≤ rest.length then
      some (rest.take (be32 b0 b1 b2 b3), rest.drop (be32 b0 b1 b2 b3))
    else none
  | _ => none

/-- The symbol words of a SYMB value: an even length, and the upper four bits of each first byte zero (R83). -/
def takeSymbols : List Byte → Option (List SymWord)
  | [] => some []
  | [_] => none
  | hi :: lo :: rest =>
    if hi.toNat < 16 then (takeSymbols rest).map (BitVec.ofNat 12 (hi.toNat * 256 + lo.toNat) :: ·) else none

/-- The number of an OLENB value, which has exactly 4 bytes (R83). -/
def takeOlen : List Byte → Option Word
  | [b0, b1, b2, b3] => some (BitVec.ofNat 32 (be32 b0 b1 b2 b3))
  | _ => none

/-- What follows the third field: nothing, or one field with tag 0x04 and nothing after it (R83). -/
def takeText (p : Params) (rest : List Byte) : Option (Option (List Byte)) :=
  if rest = [] then some none
  else
    match takeField 0x04 rest with
    | some (t, []) => if t.length ≤ p.tmax then some (some t) else none
    | _ => none

/-- `parse`: defined exactly on the well-formed payloads (R83, R181). The level codes are not checked. -/
def parse (p : Params) (bytes : List Byte) : Option Message := do
  let (symb, r1) ← takeField 0x01 bytes
  let (key, r2) ← takeField 0x02 r1
  let (olenb, r3) ← takeField 0x03 r2
  let ws ← takeSymbols symb
  let n ← takeOlen olenb
  let t ← takeText p r3
  if ws.length ≤ p.tmax ∧ key.length ≤ p.kmax then
    some { symbols := ws, key := key, olen := n, text := t }
  else none

/-! ## The commands -/

/-- The bytes MSG.PACK needs (R82, R182). -/
def packedSize (f : Bool) (s : State) : Nat :=
  19 + 2 * s.sym.length + s.key.length + (if f then 5 + s.txt.length else 0)

/-- The Message MSG.PACK takes from the buffers (R182). -/
def messageOf (f : Bool) (s : State) : Message :=
  { symbols := s.sym, key := s.key, olen := s.olen, text := if f then some s.txt else none }

/-- MSG.PACK: PAY ← serialize(SYM, KEY, OLEN, TXT if f) (R182). -/
def execMsgPack (f : Bool) (s : State) : Result :=
  .next (inRunMode s (
    if s.params.pmax < packedSize f s then raiseFatal .capacity (lenWord (packedSize f s)) s
    else respondOk (lenWord (packedSize f s)) { s with pay := serialize (messageOf f s) }))

/-- The buffers and OMP from a parsed Message (R183). -/
def unpackTo (m : Message) (s : State) : State :=
  { s with
    sym := m.symbols, key := m.key, olen := m.olen
    txt := m.text.getD []
    status := { s.status with omp := m.text.isSome } }

/-- MSG.UNPACK: (SYM, KEY, OLEN, TXT) ← parse(PAY) (R183). -/
def execMsgUnpack (s : State) : Result :=
  .next (inRunMode s (
    match parse s.params s.pay with
    | none => raiseTransport .protocol s
    | some m => respondOk (lenWord m.symbols.length) (unpackTo m s)))

end Sys2Proof.Machine
end

