-- ==== Sys2Proof/Machine/StreamCipher.lean ====
section
/-! DEFINITION. StreamCipher: the functions of R130 to R133 and the five SC commands. -/

namespace Sys2Proof.Machine

/-- `KB`, the key bits: BCenc of KEY, recomputed by every command that needs it (R130). -/
def keyBits (s : State) : List Bool := bcEncode s.key

/-- `mask[i] = k[i mod m]` for `i < n`, `m` the length of `k`, which is not 0 where the mask is used (R131). -/
def maskBits (k : List Bool) (n : Nat) : List Bool :=
  (List.range n).map fun i => k.getD (i % k.length) false

/-- `XOR(b, k)`: position for position with the repeated key bits (R131). -/
def xorBits (b k : List Bool) : List Bool := List.zipWith Bool.xor b (maskBits k b.length)

/-- `s mod n`, the floor modulus, for `n > 0` (R12, R132). -/
def shiftOf (seed : Int) (n : Nat) : Nat := (seed % (n : Int)).toNat

/-- `PERM(b, s)`: rotate left by `s mod n` (R132). -/
def permBits (b : List Bool) (seed : Int) : List Bool :=
  b.drop (shiftOf seed b.length) ++ b.take (shiftOf seed b.length)

/-- `UNPERM(b, s)`: rotate right by `s mod n` (R133). -/
def unpermBits (b : List Bool) (seed : Int) : List Bool :=
  b.drop (b.length - shiftOf seed b.length) ++ b.take (b.length - shiftOf seed b.length)

/-- SC.XOR: BIT ← XOR(BIT, KB) (R135). -/
def execScXor (s : State) : Result :=
  .next (inRunMode s (
    if s.key.length = 0 then raiseFatal .emptyKey 0 s
    else respondOk (lenWord s.bit.length) { s with bit := xorBits s.bit (keyBits s) }))

/-- SC.PERM: BIT ← PERM(BIT, sint32(SEED)) (R136). -/
def execScPerm (s : State) : Result :=
  .next (inRunMode s (
    if s.bit.length = 0 then raiseFatal .invalidSeed 0 s
    else
      respondOk (lenWord (shiftOf (sint32 s.seed) s.bit.length)) { s with bit := permBits s.bit (sint32 s.seed) }))

/-- SC.UNPERM: BIT ← UNPERM(BIT, sint32(SEED)) (R137). -/
def execScUnperm (s : State) : Result :=
  .next (inRunMode s (
    if s.bit.length = 0 then raiseFatal .invalidSeed 0 s
    else
      respondOk (lenWord (shiftOf (sint32 s.seed) s.bit.length)) { s with bit := unpermBits s.bit (sint32 s.seed) }))

/-- SC.ENCRYPT: BIT ← PERM(XOR(BCenc(TXT), KB), KLEN) (R138). -/
def execScEncrypt (s : State) : Result :=
  .next (inRunMode s (
    if s.key.length = 0 then raiseFatal .emptyKey 0 s
    else if s.txt.length = 0 then raiseFatal .invalidSeed 0 s
    else
      let b := permBits (xorBits (bcEncode s.txt) (keyBits s)) s.key.length
      respondOk (lenWord b.length) { s with bit := b }))

/-- SC.DECRYPT: TXT ← BCdec(XOR(UNPERM(BIT, KLEN), KB)) (R139). -/
def execScDecrypt (s : State) : Result :=
  .next (inRunMode s (
    if s.bit.length = 0 then raiseFatal .invalidSeed 0 s
    else if s.key.length = 0 then raiseFatal .emptyKey 0 s
    else if s.bit.length % 8 ≠ 0 then raiseFatal .malformedInput (lenWord s.bit.length) s
    else
      let t := bcDecode (xorBits (unpermBits s.bit s.key.length) (keyBits s))
      respondOk (lenWord t.length) { s with txt := t }))

end Sys2Proof.Machine
end

