-- ==== Sys2Proof/Machine/System.lean ====
section
/-! DEFINITION. The system commands (R101 to R105). -/

namespace Sys2Proof.Machine

/-- NOP: accepted in both modes, only answers (R101). -/
def execNop (s : State) : Result := .next (respondOk 0 s)

/-- RDREG: accepted in both modes; a number that is no register is IllegalCommand, which in FAULTED mode is reported
and leaves FAULT and FINFO (R102, R206). -/
def execRdreg (a : Word) (s : State) : Result :=
  .next (
    match readReg s a with
    | some v => respondOk v s
    | none =>
      if s.fault = 0 then raiseFatal .illegalCommand 0x01 s
      else respond FatalCode.illegalCommand.code 0x01 s)

/-- SRESET: accepted in both modes; the only command that leaves FAULTED mode (R103, R207). -/
def execSreset (s : State) : Result := .next (respondOk 0 (resetState s))

/-- SETSEED: every 32-bit value is accepted (R104). -/
def execSetseed (a : Word) (s : State) : Result :=
  .next (inRunMode s (respondOk 0 { s with seed := a }))

/-- SETOLEN: the value is not checked against anything (R105). -/
def execSetolen (a : Word) (s : State) : Result :=
  .next (inRunMode s (respondOk 0 { s with olen := a }))

end Sys2Proof.Machine
end

