-- ==== Sys2Proof/Machine/Dispatch.lean ====
section
/-! DEFINITION. One arm per constructor of `Instr`, each one call of the instruction's meaning (R84, R100). -/

namespace Sys2Proof.Machine

def exec (i : Instr) (s : State) : Host.Outcome State Fault Refusal :=
  match i with
  | .nop => Sys2Proof.Machine.execNop s
  | .rdreg a => Sys2Proof.Machine.execRdreg a s
  | .sreset => Sys2Proof.Machine.execSreset s
  | .setseed a => Sys2Proof.Machine.execSetseed a s
  | .setolen a => Sys2Proof.Machine.execSetolen a s
  | .bclr buf => Sys2Proof.Machine.execBclr buf s
  | .bpush buf d => Sys2Proof.Machine.execBpush buf d s
  | .bread buf d => Sys2Proof.Machine.execBread buf d s
  | .btrunc buf d => Sys2Proof.Machine.execBtrunc buf d s
  | .btrunco => Sys2Proof.Machine.execBtrunco s
  | .bcEnc => Sys2Proof.Machine.execBcEnc s
  | .bcDec => Sys2Proof.Machine.execBcDec s
  | .scXor => Sys2Proof.Machine.execScXor s
  | .scPerm => Sys2Proof.Machine.execScPerm s
  | .scUnperm => Sys2Proof.Machine.execScUnperm s
  | .scEncrypt => Sys2Proof.Machine.execScEncrypt s
  | .scDecrypt => Sys2Proof.Machine.execScDecrypt s
  | .lcEnc => Sys2Proof.Machine.execLcEnc s
  | .lcDec => Sys2Proof.Machine.execLcDec s
  | .lcB2l p => Sys2Proof.Machine.execLcB2l p s
  | .lcL2b c => Sys2Proof.Machine.execLcL2b c s
  | .ftOpen => Sys2Proof.Machine.execFtOpen s
  | .ftClose => Sys2Proof.Machine.execFtClose s
  | .ftWrite => Sys2Proof.Machine.execFtWrite s
  | .ftRead => Sys2Proof.Machine.execFtRead s
  | .msgPack f => Sys2Proof.Machine.execMsgPack f s
  | .msgUnpack => Sys2Proof.Machine.execMsgUnpack s

end Sys2Proof.Machine
end

