-- ==== Sys2Proof/WellFormed.lean ====
section
/-! DEFINITION. Which terms of `Instr` a command word can carry: the operand fields fit the format's bits (R72). Whether
a command accepts the operand's VALUE (a buffer id above 4, a register number above 0x10) is the command's own check
(R74). -/

namespace Sys2Proof

/-- A buffer id fits `arg[31:28]` (R72, formats B and BZ). -/
def fitsBufId (buf : Nat) : Bool := buf < 2 ^ 4

/-- A datum, index or length fits `arg[27:0]` (R72, format B). -/
def fitsDatum (d : Nat) : Bool := d < 2 ^ 28

/-- Every operand fits its field (R72). The operands of formats A, P2, P3 and F1 fit by their type. -/
def WellFormed : Instr → Bool
  | .nop => true
  | .rdreg _ => true
  | .sreset => true
  | .setseed _ => true
  | .setolen _ => true
  | .bclr buf => fitsBufId buf
  | .bpush buf d => fitsBufId buf && fitsDatum d
  | .bread buf d => fitsBufId buf && fitsDatum d
  | .btrunc buf d => fitsBufId buf && fitsDatum d
  | .btrunco => true
  | .bcEnc => true
  | .bcDec => true
  | .scXor => true
  | .scPerm => true
  | .scUnperm => true
  | .scEncrypt => true
  | .scDecrypt => true
  | .lcEnc => true
  | .lcDec => true
  | .lcB2l _ => true
  | .lcL2b _ => true
  | .ftOpen => true
  | .ftClose => true
  | .ftWrite => true
  | .ftRead => true
  | .msgPack _ => true
  | .msgUnpack => true

end Sys2Proof
end

