-- ==== Sys2Proof/Decode.lean ====
section
/-! DEFINITION. The opcode map as data (R84), the decoder (R74), and after it the encoder, both written from the
formats of R72. -/

namespace Sys2Proof

/-! ## The fields of a command word -/

/-- `cmd[39:32]`, the opcode `op` (R70). -/
def opOf (w : CmdWord) : BitVec 8 := w.extractLsb' 32 8

/-- `cmd[31:0]`, the argument `arg` (R70). -/
def argOf (w : CmdWord) : Word := w.extractLsb' 0 32

/-- `arg[31:28]`, the buffer id of formats B and BZ (R72). -/
def bufOf (arg : Word) : Nat := (arg.extractLsb' 28 4).toNat

/-- `arg[27:0]`, the datum, index or length of format B (R72). -/
def datumOf (arg : Word) : Nat := (arg.extractLsb' 0 28).toNat

/-! ## The opcode map -/

/-- One row of the opcode map: a word `w` belongs to it when `w &&& mask = pattern` (R74). -/
structure OpRow where
  /-- The row's mnemonic in opcode_table.json. -/
  mnemonic : String
  /-- The row's `match`: the opcode shifted left by 32. -/
  pattern : CmdWord
  /-- The mask of the row's format (R72). -/
  mask : CmdWord
deriving DecidableEq, Repr

namespace OpcodeMap

/-- Unit SYS (R71, R84). -/
def unitSys : List OpRow :=
  [ ⟨"NOP", 0x0000000000, 0xFFFFFFFFFF⟩,
    ⟨"RDREG", 0x0100000000, 0xFF00000000⟩,
    ⟨"SRESET", 0x0200000000, 0xFFFFFFFFFF⟩,
    ⟨"SETSEED", 0x0300000000, 0xFF00000000⟩,
    ⟨"SETOLEN", 0x0400000000, 0xFF00000000⟩ ]

/-- Unit BUF (R71, R84). -/
def unitBuf : List OpRow :=
  [ ⟨"BCLR", 0x1000000000, 0xFF0FFFFFFF⟩,
    ⟨"BPUSH", 0x1100000000, 0xFF00000000⟩,
    ⟨"BREAD", 0x1200000000, 0xFF00000000⟩,
    ⟨"BTRUNC", 0x1300000000, 0xFF00000000⟩,
    ⟨"BTRUNCO", 0x1400000000, 0xFFFFFFFFFF⟩ ]

/-- Unit BC (R71, R84). -/
def unitBc : List OpRow :=
  [ ⟨"BC.ENC", 0x2000000000, 0xFFFFFFFFFF⟩,
    ⟨"BC.DEC", 0x2100000000, 0xFFFFFFFFFF⟩ ]

/-- Unit SC (R71, R84). -/
def unitSc : List OpRow :=
  [ ⟨"SC.XOR", 0x3000000000, 0xFFFFFFFFFF⟩,
    ⟨"SC.PERM", 0x3100000000, 0xFFFFFFFFFF⟩,
    ⟨"SC.UNPERM", 0x3200000000, 0xFFFFFFFFFF⟩,
    ⟨"SC.ENCRYPT", 0x3300000000, 0xFFFFFFFFFF⟩,
    ⟨"SC.DECRYPT", 0x3400000000, 0xFFFFFFFFFF⟩ ]

/-- Unit LC (R71, R84). -/
def unitLc : List OpRow :=
  [ ⟨"LC.ENC", 0x4000000000, 0xFFFFFFFFFF⟩,
    ⟨"LC.DEC", 0x4100000000, 0xFFFFFFFFFF⟩,
    ⟨"LC.B2L", 0x4200000000, 0xFFFFFFFFFC⟩,
    ⟨"LC.L2B", 0x4300000000, 0xFFFFFFFFF8⟩ ]

/-- Unit FT (R71, R84). -/
def unitFt : List OpRow :=
  [ ⟨"FT.OPEN", 0x5000000000, 0xFFFFFFFFFF⟩,
    ⟨"FT.CLOSE", 0x5100000000, 0xFFFFFFFFFF⟩,
    ⟨"FT.WRITE", 0x5200000000, 0xFFFFFFFFFF⟩,
    ⟨"FT.READ", 0x5300000000, 0xFFFFFFFFFF⟩ ]

/-- Unit MSG (R71, R84). -/
def unitMsg : List OpRow :=
  [ ⟨"MSG.PACK", 0x6000000000, 0xFFFFFFFFFE⟩,
    ⟨"MSG.UNPACK", 0x6100000000, 0xFFFFFFFFFF⟩ ]

end OpcodeMap

/-- All 27 rows of the opcode map (R84). -/
def opcodeMap : List OpRow :=
  OpcodeMap.unitSys ++ OpcodeMap.unitBuf ++ OpcodeMap.unitBc ++ OpcodeMap.unitSc ++ OpcodeMap.unitLc ++
    OpcodeMap.unitFt ++ OpcodeMap.unitMsg

/-- The word belongs to the row (R74). -/
def OpRow.covers (r : OpRow) (w : CmdWord) : Bool := w &&& r.mask == r.pattern

/-- A command word is legal when some row of the opcode map covers it (R74). -/
def isLegal (w : CmdWord) : Bool := opcodeMap.any (·.covers w)

/-! ## The decoder -/

/-- Why a word is illegal (R74). -/
inductive DecodeError where
  /-- No row has this opcode. -/
  | undefinedOpcode (op : BitVec 8)
  /-- The opcode is defined, but a reserved bit of the argument is not zero. -/
  | reservedBits (op : BitVec 8)
deriving DecidableEq, Repr

/-- Accept the word when the argument bits its format reserves are zero (R72). -/
def whenReservedZero (op : BitVec 8) (zero : Bool) (i : Instr) : Except DecodeError Instr :=
  if zero then .ok i else .error (.reservedBits op)

/-- The instruction of an opcode and an argument (R72, R84); every other opcode is illegal (R85). -/
def decodeFields (op : BitVec 8) (arg : Word) : Except DecodeError Instr :=
  match op.toNat with
  | 0x00 => whenReservedZero op (arg == 0) .nop
  | 0x01 => .ok (.rdreg arg)
  | 0x02 => whenReservedZero op (arg == 0) .sreset
  | 0x03 => .ok (.setseed arg)
  | 0x04 => .ok (.setolen arg)
  | 0x10 => whenReservedZero op (datumOf arg == 0) (.bclr (bufOf arg))
  | 0x11 => .ok (.bpush (bufOf arg) (datumOf arg))
  | 0x12 => .ok (.bread (bufOf arg) (datumOf arg))
  | 0x13 => .ok (.btrunc (bufOf arg) (datumOf arg))
  | 0x14 => whenReservedZero op (arg == 0) .btrunco
  | 0x20 => whenReservedZero op (arg == 0) .bcEnc
  | 0x21 => whenReservedZero op (arg == 0) .bcDec
  | 0x30 => whenReservedZero op (arg == 0) .scXor
  | 0x31 => whenReservedZero op (arg == 0) .scPerm
  | 0x32 => whenReservedZero op (arg == 0) .scUnperm
  | 0x33 => whenReservedZero op (arg == 0) .scEncrypt
  | 0x34 => whenReservedZero op (arg == 0) .scDecrypt
  | 0x40 => whenReservedZero op (arg == 0) .lcEnc
  | 0x41 => whenReservedZero op (arg == 0) .lcDec
  | 0x42 => whenReservedZero op (arg.toNat < 4) (.lcB2l (arg.setWidth 2))
  | 0x43 => whenReservedZero op (arg.toNat < 8) (.lcL2b (arg.setWidth 3))
  | 0x50 => whenReservedZero op (arg == 0) .ftOpen
  | 0x51 => whenReservedZero op (arg == 0) .ftClose
  | 0x52 => whenReservedZero op (arg == 0) .ftWrite
  | 0x53 => whenReservedZero op (arg == 0) .ftRead
  | 0x60 => whenReservedZero op (arg.toNat < 2) (.msgPack (arg.getLsbD 0))
  | 0x61 => whenReservedZero op (arg == 0) .msgUnpack
  | _ => .error (.undefinedOpcode op)

/-- The decoder: total on every 40-bit word, an illegal word is rejected by name (R74). -/
def decode (w : CmdWord) : Except DecodeError Instr := decodeFields (opOf w) (argOf w)

/-- The decoder on a row's word as opcode_table.json numbers it: one word of 40 bits, bit 0 its least significant bit
(log 15). -/
def decodeTableWord (nbits w : Nat) : Option Instr :=
  if w % 2 ^ nbits < 2 ^ 40 then
    match decode (BitVec.ofNat 40 (w % 2 ^ nbits)) with
    | .ok i => some i
    | .error _ => none
  else none

/-! ## The encoder -/

/-- The opcode of an instruction (R84). -/
def opcode : Instr → BitVec 8
  | .nop => 0x00
  | .rdreg _ => 0x01
  | .sreset => 0x02
  | .setseed _ => 0x03
  | .setolen _ => 0x04
  | .bclr _ => 0x10
  | .bpush _ _ => 0x11
  | .bread _ _ => 0x12
  | .btrunc _ _ => 0x13
  | .btrunco => 0x14
  | .bcEnc => 0x20
  | .bcDec => 0x21
  | .scXor => 0x30
  | .scPerm => 0x31
  | .scUnperm => 0x32
  | .scEncrypt => 0x33
  | .scDecrypt => 0x34
  | .lcEnc => 0x40
  | .lcDec => 0x41
  | .lcB2l _ => 0x42
  | .lcL2b _ => 0x43
  | .ftOpen => 0x50
  | .ftClose => 0x51
  | .ftWrite => 0x52
  | .ftRead => 0x53
  | .msgPack _ => 0x60
  | .msgUnpack => 0x61

/-- The argument of formats B and BZ: `arg[31:28]` the buffer id, `arg[27:0]` the datum (R72). -/
def bufArg (buf d : Nat) : Word := BitVec.ofNat 4 buf ++ BitVec.ofNat 28 d

/-- The argument of an instruction (R72). -/
def argument : Instr → Word
  | .nop => 0
  | .rdreg a => a
  | .sreset => 0
  | .setseed a => a
  | .setolen a => a
  | .bclr buf => bufArg buf 0
  | .bpush buf d => bufArg buf d
  | .bread buf d => bufArg buf d
  | .btrunc buf d => bufArg buf d
  | .btrunco => 0
  | .bcEnc => 0
  | .bcDec => 0
  | .scXor => 0
  | .scPerm => 0
  | .scUnperm => 0
  | .scEncrypt => 0
  | .scDecrypt => 0
  | .lcEnc => 0
  | .lcDec => 0
  | .lcB2l p => p.setWidth 32
  | .lcL2b c => c.setWidth 32
  | .ftOpen => 0
  | .ftClose => 0
  | .ftWrite => 0
  | .ftRead => 0
  | .msgPack f => if f then 1 else 0
  | .msgUnpack => 0

/-- The command word of an instruction: the opcode above the argument (R70). -/
def encode (i : Instr) : CmdWord := opcode i ++ argument i

end Sys2Proof
end

