-- ==== Sys2Proof/Machine/Link.lean ====
section
/-! DEFINITION. What the agents outside the block do: the link steps (R175), hardware reset (R230, R231), and which of
them acts next (R240; log 1, log 9, log 10). -/

namespace Sys2Proof.Machine

/-- One step of a link agent; a step that is not enabled does not happen (R175; log 9). -/
def linkStep (e : LinkStep) (s : State) : State :=
  match e with
  | .deliver b => if s.status.linkup && !s.rxeof then { s with rxfifo := s.rxfifo ++ [b] } else s
  | .close => if s.status.linkup && !s.rxeof then { s with rxeof := true } else s
  | .fail => if s.status.linkup then { s with status := { s.status with broken := true } } else s

/-- Hardware reset: a command in flight is abandoned without a response (R230). -/
def hardReset (s : State) : State := resetState s

/-- The bytes an abandoned command leaves on TXOUT: a strict prefix of the frame, for an FT.WRITE that was sending
(R173, R231; log 11). -/
def abandonedBytes (w : CmdWord) (k : Nat) (s : State) : List Byte :=
  match decode w with
  | .ok .ftWrite =>
    if s.fault = 0 ∧ s.status.linkup = true ∧ s.status.broken = false then
      (frame s.pay).take (min k (3 + s.pay.length))
    else []
  | _ => []

/-- Hardware reset abandons the command `w` in flight (R231). -/
def abandon (w : CmdWord) (k : Nat) (s : State) : State :=
  hardReset { s with txout := s.txout ++ abandonedBytes w k s }

/-- While an FT.READ holds, no command can be issued: the next action that can happen is the first link step or hardware
reset; the host's commands wait in their order (R240; log 10). -/
def nextWhileHeld : List Input → Option (Input × List Input)
  | [] => none
  | .link e :: rest => some (.link e, rest)
  | .hardReset :: rest => some (.hardReset, rest)
  | .command w :: rest => (nextWhileHeld rest).map fun (e, r) => (e, .command w :: r)
  | .abandoned w k :: rest => (nextWhileHeld rest).map fun (e, r) => (e, .abandoned w k :: r)

/-- The next action of the agents outside the block, and the actions after it. -/
def nextInput (s : State) : Option (Input × List Input) :=
  if s.held then nextWhileHeld s.inputs
  else
    match s.inputs with
    | [] => none
    | e :: rest => some (e, rest)

/-- The held FT.READ completes: its hold condition has become true (R174, R177; log 8). -/
def readCompletes (s : State) : Bool := s.held && readReady s

/-- The command port with the command word `w` next, and free to take it (log 12). -/
def placeCommand (w : CmdWord) (s : State) : State :=
  { s with held := false, inputs := .command w :: s.inputs }

end Sys2Proof.Machine
end

