-- ==== Sys2Proof/Machine/Step.lean ====
section
/-! DEFINITION. One step: a held FT.READ completes, or the next action of the agents outside the block takes place
(R60, R100, R174). -/

namespace Sys2Proof.Machine

/-- The command cycle for one command word (R100). -/
def issue (w : CmdWord) (s : State) : Host.Outcome State Fault Refusal :=
  match decode w with
  | .ok i => exec i s
  | .error _ => .next (illegalWord (opOf w) s)

/-- One action of an agent outside the block. -/
def accept (e : Input) (s : State) : Host.Outcome State Fault Refusal :=
  match e with
  | .command w => issue w s
  | .link e => .next (linkStep e s)
  | .hardReset => .next (hardReset s)
  | .abandoned w k => .next (abandon w k s)

/-- One step. Where no agent acts the block waits, and its state stays (R176, R230; log 2). -/
def step (s : State) : Host.Outcome State Fault Refusal :=
  if readCompletes s then exec .ftRead s
  else
    match nextInput s with
    | none => .next s
    | some (e, rest) => accept e { s with inputs := rest }

/-- `s` with the command word of a row of opcode_table.json at the head of what the host issues (log 12, log 15). -/
def State.withFetchWord (s : State) (nbits w : Nat) : State :=
  placeCommand (BitVec.ofNat 40 (w % 2 ^ nbits)) s

end Sys2Proof.Machine
end

