-- ==== Sys2Proof/Machine/Asm.lean ====
section
/-! DEFINITION. The assembler's names (R86), the pseudo-instructions and their expansions (R87). -/

namespace Sys2Proof.Machine

/-! ## Names (R84, R86) -/

/-- The mnemonic of an instruction (R84). -/
def mnemonic : Instr → String
  | .nop => "NOP"
  | .rdreg _ => "RDREG"
  | .sreset => "SRESET"
  | .setseed _ => "SETSEED"
  | .setolen _ => "SETOLEN"
  | .bclr _ => "BCLR"
  | .bpush _ _ => "BPUSH"
  | .bread _ _ => "BREAD"
  | .btrunc _ _ => "BTRUNC"
  | .btrunco => "BTRUNCO"
  | .bcEnc => "BC.ENC"
  | .bcDec => "BC.DEC"
  | .scXor => "SC.XOR"
  | .scPerm => "SC.PERM"
  | .scUnperm => "SC.UNPERM"
  | .scEncrypt => "SC.ENCRYPT"
  | .scDecrypt => "SC.DECRYPT"
  | .lcEnc => "LC.ENC"
  | .lcDec => "LC.DEC"
  | .lcB2l _ => "LC.B2L"
  | .lcL2b _ => "LC.L2B"
  | .ftOpen => "FT.OPEN"
  | .ftClose => "FT.CLOSE"
  | .ftWrite => "FT.WRITE"
  | .ftRead => "FT.READ"
  | .msgPack _ => "MSG.PACK"
  | .msgUnpack => "MSG.UNPACK"

/-- The name of a buffer operand, or its number where the id is reserved (R86). -/
def bufName (buf : Nat) : String :=
  match buf with
  | 0 => "TXT"
  | 1 => "KEY"
  | 2 => "BIT"
  | 3 => "SYM"
  | 4 => "PAY"
  | n => toString n

/-- The name of a register operand of RDREG, or its number where there is no such register (R36, R86). -/
def regName (a : Nat) : String :=
  match a with
  | 0x00 => "FAULT"
  | 0x01 => "FINFO"
  | 0x02 => "TERR"
  | 0x03 => "STATUS"
  | 0x04 => "TLEN"
  | 0x05 => "KLEN"
  | 0x06 => "BLEN"
  | 0x07 => "SLEN"
  | 0x08 => "PLEN"
  | 0x09 => "SEED"
  | 0x0A => "OLEN"
  | 0x0B => "RXLEN"
  | 0x0C => "RXCNT"
  | 0x0D => "CAPT"
  | 0x0E => "CAPK"
  | 0x0F => "CAPP"
  | 0x10 => "VERSION"
  | n => toString n

/-- The operands of a line, numbers in decimal (R86). -/
def operands : Instr → List String
  | .nop => []
  | .rdreg a => [regName a.toNat]
  | .sreset => []
  | .setseed a => [toString a.toNat]
  | .setolen a => [toString a.toNat]
  | .bclr buf => [bufName buf]
  | .bpush buf d => [bufName buf, toString d]
  | .bread buf d => [bufName buf, toString d]
  | .btrunc buf d => [bufName buf, toString d]
  | .btrunco => []
  | .bcEnc => []
  | .bcDec => []
  | .scXor => []
  | .scPerm => []
  | .scUnperm => []
  | .scEncrypt => []
  | .scDecrypt => []
  | .lcEnc => []
  | .lcDec => []
  | .lcB2l p => [toString p.toNat]
  | .lcL2b c => [toString c.toNat]
  | .ftOpen => []
  | .ftClose => []
  | .ftWrite => []
  | .ftRead => []
  | .msgPack f => [if f then "1" else "0"]
  | .msgUnpack => []

/-- One line of assembly: the mnemonic, then the operands separated by commas (R86). -/
def asmLine (i : Instr) : String :=
  if operands i = [] then mnemonic i else mnemonic i ++ " " ++ String.intercalate ", " (operands i)

/-! ## Pseudo-instructions (R87) -/

/-- `PUSHS buf, "..."` and `PUSHBYTES buf, [...]`: one BPUSH per element, in order. -/
def pushBytes (buf : Buf) (xs : List Byte) : List Instr := xs.map fun x => .bpush (bufId buf) x.toNat

/-- `PUSHBITS "..."`: one BPUSH BIT per digit, in order. -/
def pushBits (bs : List Bool) : List Instr := bs.map fun b => .bpush (bufId .bit) b.toNat

/-- `PUSHSYM (l0, l1, l2, l3)`: one BPUSH SYM of the symbol word (R78). -/
def pushSym (l0 l1 l2 l3 : LevelCode) : List Instr := [.bpush (bufId .sym) (symOf l0 l1 l2 l3).toNat]

/-- `LOADS buf, "..."` and `LOADBYTES buf, [...]`: BCLR, then the PUSH form. -/
def loadBytes (buf : Buf) (xs : List Byte) : List Instr := .bclr (bufId buf) :: pushBytes buf xs

/-- `LOADBITS "..."`: BCLR BIT, then PUSHBITS. -/
def loadBits (bs : List Bool) : List Instr := .bclr (bufId .bit) :: pushBits bs

/-- `LOADSYM (l0, l1, l2, l3)`: BCLR SYM, then PUSHSYM. -/
def loadSym (l0 l1 l2 l3 : LevelCode) : List Instr := .bclr (bufId .sym) :: pushSym l0 l1 l2 l3

end Sys2Proof.Machine
end

