-- ==== Sys2Proof/Machine/Pipeline.lean ====
section
/-! DEFINITION. A host that issues commands one after another, and the two pipelines of the spec: the sender's commands
(R186), and the receiver, which goes by the responses it gets (R187; log 24). -/

namespace Sys2Proof.Machine

/-- What answers a next value goes on from it; a stop stays. -/
def andThen {α β : Type} (r : Host.Outcome α Fault Refusal) (f : α → Host.Outcome β Fault Refusal) :
    Host.Outcome β Fault Refusal :=
  match r with
  | .next a => f a
  | .fault e => .fault e
  | .refused e => .refused e

/-- Commands one after another, each on the state the one before it left (R60). -/
def execAll : List Instr → State → Result
  | [], s => .next s
  | i :: rest, s => andThen (exec i s) (execAll rest)

/-! ## A host that reads the responses -/

/-- What a host has learnt from the commands it issued. -/
inductive Heard where
  /-- Every command answered OK; these are the values, in order. -/
  | values (vs : List Word)
  /-- The last command answered ConnectionClosed, 0x20, a clean exit (R203). -/
  | closed
  /-- The last command answered this status, which the host reports. -/
  | reported (status : BitVec 8)
  /-- The last command was an FT.READ and holds: no response yet (R174). -/
  | waiting
deriving DecidableEq, Repr

/-- What a response tells the host. -/
def hearResponse (r : Response) : Heard :=
  if r.status = statusOk then .values [r.value]
  else if r.status = statusClosed then .closed
  else .reported r.status

/-- What the host has learnt from the command it issued last, in the state that command left. -/
def heard (s : State) : Heard :=
  if s.held then .waiting
  else
    match s.responses.getLast? with
    | none => .waiting
    | some r => hearResponse r

/-- How far a host has come: what it has learnt, and the state of the block. -/
abbrev Turn := Host.Outcome (Heard × State) Fault Refusal

/-- The host goes on with the values only when every command has answered OK; else it stops there. -/
def whenOk (r : Turn) (f : List Word → State → Turn) : Turn :=
  andThen r fun (h, t) =>
    match h with
    | .values vs => f vs t
    | .closed => .next (.closed, t)
    | .reported status => .next (.reported status, t)
    | .waiting => .next (.waiting, t)

/-- Issue one command. -/
def ask (i : Instr) (s : State) : Turn := andThen (exec i s) fun t => .next (heard t, t)

/-- Issue commands one after another, each when the one before it has answered OK. -/
def askAll : List Instr → State → Turn
  | [], s => .next (.values [], s)
  | i :: rest, s =>
    whenOk (ask i s) fun vs t => whenOk (askAll rest t) fun ws u => .next (.values (vs ++ ws), u)

/-! ## The sender (R186) -/

/-- The sender's commands for a text and a key; `f` says whether originalMessage is packed (R186). The operand of SETOLEN
is what the host reads from BLEN, 8 times the length of the text. -/
def senderCommands (text key : List Byte) (f : Bool) : List Instr :=
  loadBytes .txt text ++ loadBytes .key key ++
    [.scEncrypt, .rdreg 0x06, .setolen (lenWord (8 * text.length)), .lcEnc, .msgPack f, .ftWrite]

/-! ## The receiver (R187) -/

/-- The receiver's commands between FT.READ and the reading of the text; the last one answers TLEN (R187). -/
def recoverCommands : List Instr := [.msgUnpack, .lcDec, .btrunco, .scDecrypt]

/-- `BREAD TXT, 0 .. n - 1` (R187). -/
def readTextCommands (n : Nat) : List Instr := (List.range n).map fun d => .bread (bufId .txt) d

/-- What the receiver does in the state that its FT.READ left. On status 0x20 it stops, on 0x12, 0x13 or another error it
reports and stops, and while FT.READ holds it waits; on OK it recovers the text and reads it, TLEN characters (R187;
log 24). -/
def afterRead (s : State) : Turn :=
  whenOk (.next (heard s, s)) fun _ t =>
    whenOk (askAll recoverCommands t) fun vs u => askAll (readTextCommands (vs.getLastD 0).toNat) u

/-- The receiver's turn for one frame: FT.READ, and what follows from its response. The values are the characters of the
delivered text (R187). -/
def receiveFrame (s : State) : Turn := andThen (exec .ftRead s) afterRead

/-- The receiver's turns, at most `n`, one per frame (R187): the texts it delivered, what ended the last turn when it
delivered none, and the state. -/
def receiveFrames : Nat → State → Host.Outcome (List (List Byte) × Heard × State) Fault Refusal
  | 0, s => .next ([], .values [], s)
  | n + 1, s =>
    andThen (receiveFrame s) fun (h, t) =>
      match h with
      | .values vs =>
        andThen (receiveFrames n t) fun (texts, e, u) => .next (vs.map (·.setWidth 8) :: texts, e, u)
      | .closed => .next ([], .closed, t)
      | .reported status => .next ([], .reported status, t)
      | .waiting => .next ([], .waiting, t)

end Sys2Proof.Machine
end

