-- ==== Sys2Proof/Safety.lean ====
section
/-! DEFINITION. What the statements are written in: the invariant of R39, the states a run starts from, and the shapes of a
command's answer, written out field by field and not with the model's own operations. -/

namespace Sys2Proof.Machine

/-! ## The invariant (R39) -/

/-- The invariant of R39 with what the block's link state implies (log 17 for the last two fields). -/
structure StateInv (s : State) : Prop where
  /-- The parameters are within the bounds of R6. -/
  params : s.params.InBounds
  /-- R39 item 1, TLEN ≤ TMAX. -/
  tlen : s.txt.length ≤ s.params.tmax
  /-- R39 item 1, KLEN ≤ KMAX. -/
  klen : s.key.length ≤ s.params.kmax
  /-- R39 item 1, BLEN ≤ BMAX = 8*TMAX. -/
  blen : s.bit.length ≤ 8 * s.params.tmax
  /-- R39 item 1, SLEN ≤ SMAX = TMAX. -/
  slen : s.sym.length ≤ s.params.tmax
  /-- R39 item 1, PLEN ≤ PMAX. -/
  plen : s.pay.length ≤ s.params.pmax
  /-- R39 item 4 and R25: FAULT is 0 or a fatal code, its upper bits zero. -/
  fault : s.fault = 0 ∨ (0x01 ≤ s.fault.toNat ∧ s.fault.toNat ≤ 0x08)
  /-- R39 item 4 and R27: TERR is 0 or a transport-class code, its upper bits zero. -/
  terr : s.terr = 0 ∨ (0x10 ≤ s.terr.toNat ∧ s.terr.toNat ≤ 0x14)
  /-- R39 item 5: BROKEN = 1 implies LINKUP = 1. -/
  brokenUp : s.status.broken = true → s.status.linkup = true
  /-- R39 item 5: RXCLOSED = 1 implies LINKUP = 0. -/
  closedDown : s.status.rxclosed = true → s.status.linkup = false
  /-- R39 item 5: TORN = 1 implies RXCLOSED = 1. -/
  tornClosed : s.status.torn = true → s.status.rxclosed = true
  /-- With the link down there is no byte and no end mark to read (R171, R172, R174, R175). -/
  downEmpty : s.status.linkup = false → s.rxfifo = [] ∧ s.rxeof = false
  /-- An FT.READ holds only in RUN mode with the link up (R174, R206). -/
  heldUp : s.held = true → s.status.linkup = true ∧ s.fault = 0

/-- A state right after power-on, with any parameters within the bounds, whatever the agents outside the block are going
to do (R6, R35, R37). -/
def PowerOn (s : State) : Prop :=
  s.params.InBounds ∧
    s = { State.reset with
      params := s.params, inputs := s.inputs, openDraws := s.openDraws, writeDraws := s.writeDraws
      drawCount := s.drawCount }

end Sys2Proof.Machine

namespace Sys2Proof.Claims

open Sys2Proof.Machine

/-! ## Shapes of an answer -/

/-- `t` with one more response given and no command in flight (R75). -/
abbrev answered (t : State) (status : BitVec 8) (value : Word) : State :=
  { t with held := false, responses := t.responses ++ [{ status := status, value := value }] }

/-- The command completes: it leaves `t` and answers (status, value) (R75). -/
abbrev Answers (i : Instr) (s t : State) (status : BitVec 8) (value : Word) : Prop :=
  exec i s = .next (answered t status value)

/-- The command runs: it leaves `t`, having answered OK, in RUN mode and with nothing held (R75, R76). -/
abbrev RunsOk (i : Instr) (s t : State) : Prop :=
  exec i s = .next t ∧ t.held = false ∧ t.fault = 0 ∧
    ∃ v : Word, t.responses = s.responses ++ [{ status := 0x00, value := v }]

/-- The command raises a fatal fault: FAULT and FINFO are written, code and info answered, nothing else changes (R204). -/
abbrev RaisesFatal (i : Instr) (s : State) (code : BitVec 8) (info : Word) : Prop :=
  Answers i s { s with fault := code.setWidth 32, finfo := info } code info

/-- The command raises a transport-class error and changes TERR alone (R208). -/
abbrev RaisesTransport (i : Instr) (s : State) (code : BitVec 8) : Prop :=
  Answers i s { s with terr := code.setWidth 32 } code 0

/-! ## Index forms of the rules' data -/

/-- Bit `p` of `BCenc(t)`, in the index form of R120: bit `7 - k` of character `j` for `p = 8j + k`. -/
abbrev textBit (t : List Byte) (p : Nat) : Bool := (t.getD (p / 8) 0).getLsbD (7 - p % 8)

/-- Bit `p` of a bit string padded on the right with zero bits (R151). -/
abbrev paddedBit (b : List Bool) (p : Nat) : Bool := b.getD p false

/-- Lane `k` of a symbol word as a number, in the form of R78. -/
abbrev laneNumber (w : SymWord) (k : Nat) : Nat := w.toNat / 2 ^ (9 - 3 * k) % 8

/-- The level table of R31: the pair with first bit `f` and second bit `t` has level code `c`. -/
abbrev PairHasCode (f t : Bool) (c : Nat) : Prop :=
  (f, t, c) ∈ [(false, false, 0b110), (false, true, 0b001), (true, false, 0b111), (true, true, 0b010)]

/-- A level code is one of the four defined values (R77). -/
abbrev CodeDefined (c : Nat) : Prop := c ∈ [0b110, 0b111, 0b001, 0b010]

/-- The rows of R21 and R79 at a state: buffer id, buffer, `wmax(buf)`, `cap(buf)`. -/
abbrev bufRows (s : State) : List (Nat × Buf × Nat × Nat) :=
  [(0, .txt, 255, s.params.tmax), (1, .key, 255, s.params.kmax), (2, .bit, 1, 8 * s.params.tmax),
    (3, .sym, 0xFFF, s.params.tmax), (4, .pay, 255, s.params.pmax)]

/-- The four bytes of `u32be(n)`, byte `i` worth `256 ^ (3 - i)` (R13). -/
abbrev bytesBE (n : Nat) : List Byte := (List.range 4).map fun i => BitVec.ofNat 8 (n / 256 ^ (3 - i))

/-- `field(t, v)` of R82. -/
abbrev fieldBytes (tag : Byte) (v : List Byte) : List Byte := [tag] ++ bytesBE v.length ++ v

/-- A text as the values that BREAD answers, its characters zero-extended (R108). -/
abbrev textValues (t : List Byte) : List Word := t.map fun x => BitVec.ofNat 32 x.toNat

/-- The payload of R82 for symbols, key, originalLength and the optional originalMessage. -/
abbrev payloadBytes (ws : List SymWord) (k : List Byte) (n : Word) (m : Option (List Byte)) : List Byte :=
  fieldBytes 0x01 (ws.flatMap fun w => [BitVec.ofNat 8 (w.toNat / 256), BitVec.ofNat 8 (w.toNat % 256)]) ++
    fieldBytes 0x02 k ++ fieldBytes 0x03 (bytesBE n.toNat) ++
    (match m with
      | none => []
      | some t => fieldBytes 0x04 t)

/-- The Message fits the capacities (R83, R181). -/
abbrev MessageFits (p : Params) (ws : List SymWord) (k : List Byte) (m : Option (List Byte)) : Prop :=
  ws.length ≤ p.tmax ∧ k.length ≤ p.kmax ∧ (m.getD []).length ≤ p.tmax

/-- The state after the environment has answered the draw of FT.OPEN (log 4). -/
abbrev openDrawn (s : State) : State :=
  { s with openDraws := s.openDraws.tail, drawCount := s.drawCount + 1 }

/-- The state after the environment has answered the draw of FT.WRITE (log 4). -/
abbrev writeDrawn (s : State) : State :=
  { s with writeDraws := s.writeDraws.tail, drawCount := s.drawCount + 1 }

/-- The state with nothing left of a connection to read: link down, RXFIFO empty, RXEOF 0 (R172, R174). -/
abbrev linkDropped (s : State) : State :=
  { s with status := { s.status with linkup := false }, rxfifo := [], rxeof := false }

/-- The state of R37 after a reset that finds the block in `s`: the constants, TXOUT and the model's own inputs and
outputs stay (R30, R32). -/
abbrev resetFrom (s : State) : State :=
  { State.reset with
    params := s.params, txout := s.txout, inputs := s.inputs, responses := s.responses
    openDraws := s.openDraws, writeDraws := s.writeDraws, drawCount := s.drawCount }

end Sys2Proof.Claims
end

