-- ==== Sys2Proof/Certificates/Slice0/Obligations.lean ====
section
/-! DEFINITION. The statements for the provers. Each docstring names the rules it formalises. -/

open Sys2Proof Sys2Proof.Machine Sys2Proof.Claims

/-! ## Encoding -/

/-- R74: "Rows never overlap (opcodes are distinct), so at most one row matches." -/
def Obligations.OpcodeRowsNeverOverlap : Prop :=
  ∀ (w : CmdWord) (r r' : OpRow), r ∈ opcodeMap → r' ∈ opcodeMap →
    w &&& r.mask = r.pattern → w &&& r'.mask = r'.pattern → r = r'

/-- R74: a word is legal exactly when some row matches, and then the decoder gives that row's instruction. -/
def Obligations.DecodeAcceptsExactlyLegalWords : Prop :=
  ∀ w : CmdWord,
    (∀ i, decode w = .ok i → ∃ r ∈ opcodeMap, w &&& r.mask = r.pattern ∧ r.mnemonic = mnemonic i) ∧
    (∀ r ∈ opcodeMap, w &&& r.mask = r.pattern → ∃ i, decode w = .ok i ∧ mnemonic i = r.mnemonic)

/-- R70, R72, R84: for every instruction whose operands fit their fields, decoding its encoding gives it back. -/
def Obligations.DecodeOfEncode : Prop :=
  ∀ i : Instr, WellFormed i = true → decode (encode i) = .ok i

/-- R72, R74: a word the decoder accepts is the encoding of what it gives, so no bit is ignored. -/
def Obligations.EncodeOfDecode : Prop :=
  ∀ (w : CmdWord) (i : Instr), decode w = .ok i → encode i = w ∧ WellFormed i = true

/-- R70, R72, R74 and R84, the words as the commands' rules and 95_test_vectors.md write them out: they decode to the
commands they stand for, or are rejected by name. -/
def Obligations.WrittenWordsDecode : Prop :=
  decode 0x010000000D = .ok (.rdreg 0x0D) ∧ decode 0x03FFFFFFFF = .ok (.setseed 0xFFFFFFFF) ∧
    decode 0x1020000000 = .ok (.bclr 2) ∧ decode 0x1100000048 = .ok (.bpush 0 0x48) ∧
    decode 0x1220000005 = .ok (.bread 2 5) ∧ decode 0x2000000000 = .ok .bcEnc ∧
    decode 0x3300000000 = .ok .scEncrypt ∧ decode 0x4200000002 = .ok (.lcB2l 0b10) ∧
    decode 0x4300000007 = .ok (.lcL2b 0b111) ∧ decode 0x5300000000 = .ok .ftRead ∧
    decode 0x6000000001 = .ok (.msgPack true) ∧ decode 0x4200000004 = .error (.reservedBits 0x42) ∧
    decode 0x0500000000 = .error (.undefinedOpcode 0x05)

/-- R85 with R74 and R206: the reserved words, at the command port. In RUN mode each is fatal IllegalCommand with
FINFO the opcode; in FAULTED mode each gets the Faulted response. -/
def Obligations.ReservedWordsAreIllegal : Prop :=
  ∀ (s : State) (op : BitVec 8) (arg : Word) (rest : List Input),
    s.held = false → s.inputs = .command (op ++ arg) :: rest →
    ((0x05 ≤ op.toNat ∧ op.toNat ≤ 0x0F) ∨ (0x15 ≤ op.toNat ∧ op.toNat ≤ 0x1F) ∨
      (0x22 ≤ op.toNat ∧ op.toNat ≤ 0x2F) ∨ (0x35 ≤ op.toNat ∧ op.toNat ≤ 0x3F) ∨
      (0x44 ≤ op.toNat ∧ op.toNat ≤ 0x4F) ∨ (0x54 ≤ op.toNat ∧ op.toNat ≤ 0x5F) ∨
      (0x62 ≤ op.toNat ∧ op.toNat ≤ 0x6F) ∨ 0x70 ≤ op.toNat ∨
      (op.toNat ∈ [0x00, 0x02, 0x14, 0x20, 0x21, 0x30, 0x31, 0x32, 0x33, 0x34, 0x40, 0x41, 0x50, 0x51, 0x52, 0x53,
        0x61] ∧ arg ≠ 0) ∨
      (op.toNat = 0x10 ∧ arg.toNat % 2 ^ 28 ≠ 0) ∨ (op.toNat = 0x42 ∧ 4 ≤ arg.toNat) ∨
      (op.toNat = 0x43 ∧ 8 ≤ arg.toNat) ∨ (op.toNat = 0x60 ∧ 2 ≤ arg.toNat)) →
    (s.fault = 0 → step s = .next (answered
      { s with inputs := rest, fault := 0x06, finfo := op.setWidth 32 } 0x06 (op.setWidth 32))) ∧
    (s.fault ≠ 0 → step s = .next (answered { s with inputs := rest } 0x0F s.fault))

/-! ## The step -/

/-- R100, R60, R174: a step runs the command at the port; what it adds is that the command leaves the host's list. The
rest is the model's choice: that a held FT.READ whose condition is true completes in a step of its own, without using an
input (log 8), that withFetchWord places one word at the port and clears the hold (log 12), and that the state stays where
nothing acts (log 2). -/
def Obligations.StepRunsDecodedCommand : Prop :=
  (∀ (s : State) (w : CmdWord) (rest : List Input) (i : Instr),
    s.held = false → s.inputs = .command w :: rest → decode w = .ok i →
    step s = exec i { s with inputs := rest }) ∧
  (∀ (s : State) (w : Nat) (i : Instr), w < 2 ^ 40 → decode (BitVec.ofNat 40 w) = .ok i →
    step (s.withFetchWord 40 w) = exec i { s with held := false }) ∧
  (∀ s : State, s.held = true → readReady s = true → step s = exec .ftRead s) ∧
  (∀ s : State, s.held = false → s.inputs = [] → step s = .next s)

/-- R175, R176, R240: the three link steps, each with its effect when it is enabled and none when it is not (log 9), between
commands and while an FT.READ holds; during a hold the host's commands that stand before it wait (log 10). They also run in
FAULTED mode (R206): the mode is no hypothesis. A hold whose condition is true ends first (log 8). -/
def Obligations.LinkStepsAsEnabled : Prop :=
  ∀ (s : State) (waiting : List CmdWord) (rest : List Input),
    (s.held = true → readReady s = false) → (s.held = false → waiting = []) →
    (∀ b, s.inputs = waiting.map Input.command ++ .link (.deliver b) :: rest →
      (s.status.linkup = true → s.rxeof = false →
        step s = .next { s with inputs := waiting.map Input.command ++ rest, rxfifo := s.rxfifo ++ [b] }) ∧
      (s.status.linkup = false ∨ s.rxeof = true →
        step s = .next { s with inputs := waiting.map Input.command ++ rest })) ∧
    (s.inputs = waiting.map Input.command ++ .link .close :: rest →
      (s.status.linkup = true → s.rxeof = false →
        step s = .next { s with inputs := waiting.map Input.command ++ rest, rxeof := true }) ∧
      (s.status.linkup = false ∨ s.rxeof = true →
        step s = .next { s with inputs := waiting.map Input.command ++ rest })) ∧
    (s.inputs = waiting.map Input.command ++ .link .fail :: rest →
      (s.status.linkup = true →
        step s = .next { s with
          inputs := waiting.map Input.command ++ rest, status := { s.status with broken := true } }) ∧
      (s.status.linkup = false → step s = .next { s with inputs := waiting.map Input.command ++ rest }))

/-- R230, R231, R37: hardware reset, between commands, during a hold, and abandoning a command. An abandoned FT.WRITE
leaves a strict prefix of the frame on TXOUT, every strict prefix for some `k`; any other command leaves nothing. -/
def Obligations.HardwareResetEffect : Prop :=
  (∀ (s : State) (rest : List Input), s.inputs = .hardReset :: rest →
    (s.held = true → readReady s = false) →
    step s = .next (resetFrom { s with inputs := rest })) ∧
  (∀ (s : State) (k : Nat) (rest : List Input), s.held = false →
    s.inputs = .abandoned 0x5200000000 k :: rest → s.fault = 0 → s.status.linkup = true → s.status.broken = false →
    k < 4 + s.pay.length →
    step s = .next (resetFrom
      { s with inputs := rest, txout := s.txout ++ (bytesBE s.pay.length ++ s.pay).take k })) ∧
  (∀ (s : State) (w : CmdWord) (k : Nat) (rest : List Input), s.held = false →
    s.inputs = .abandoned w k :: rest →
    w ≠ 0x5200000000 ∨ s.fault ≠ 0 ∨ s.status.linkup = false ∨ s.status.broken = true →
    step s = .next (resetFrom { s with inputs := rest }))

/-! ## Reset and invariants -/

/-- R37, and log 6 for TXOUT: what the state right after power-on holds; the constants are the defaults of R6 (log 3). -/
def Obligations.ResetLeaves : Prop :=
  (∀ b, lenOf State.reset b = 0) ∧
  (∀ a, a ≤ 0x0C → Answers (.rdreg (BitVec.ofNat 32 a)) State.reset State.reset 0x00 0) ∧
  State.reset.rxfifo = [] ∧ State.reset.rxeof = false ∧ State.reset.held = false ∧ State.reset.mode = .run ∧
  Answers (.rdreg 0x0D) State.reset State.reset 0x00 1024 ∧ Answers (.rdreg 0x0E) State.reset State.reset 0x00 256 ∧
  Answers (.rdreg 0x0F) State.reset State.reset 0x00 65536 ∧ Answers (.rdreg 0x10) State.reset State.reset 0x00 1

/-- R39: the invariant holds right after power-on, whatever the parameters within their bounds and whatever the agents
outside do next. -/
def Obligations.InvariantAtPowerOn : Prop := ∀ s : State, PowerOn s → StateInv s

/-- R39: every step, a command's or a link agent's or a reset, keeps the invariant. -/
def Obligations.StepKeepsInvariant : Prop := ∀ s t : State, StateInv s → step s = .next t → StateInv t

/-- 93_implementation_defined.md: "every command has a defined result for every draw", for whole runs: from
power-on no run stops, and the invariant of R39 holds all along. Two fields of it, `downEmpty` and `heldUp`, are the model's
deduction (log 17), and a step in which nothing acts leaving the state is its choice (log 2). -/
def Obligations.RunsNeverStop : Prop :=
  ∀ (n : Nat) (s : State), PowerOn s → ∃ t : State, core.run n s = .next t ∧ StateInv t

/-- R30: what the four constant registers read, in every mode, before and after every step, resets included. -/
def Obligations.ConstantsNeverChange : Prop :=
  ∀ s t : State, step s = .next t →
    t.params = s.params ∧
    ∀ (a v : Word), (a, v) ∈ [(0x0D, BitVec.ofNat 32 s.params.tmax), (0x0E, BitVec.ofNat 32 s.params.kmax),
        (0x0F, BitVec.ofNat 32 s.params.pmax), (0x10, 0x00000001)] →
      Answers (.rdreg a) s s 0x00 v ∧ Answers (.rdreg a) t t 0x00 v

/-! ## The command cycle and the two modes -/

/-- R75, R100: every command, on every state, answers exactly one response, or holds without one, which only FT.READ can
do. -/
def Obligations.EveryCommandAnswersOnce : Prop :=
  ∀ (i : Instr) (s : State), ∃ t : State, exec i s = .next t ∧
    ((∃ r, t.responses = s.responses ++ [r] ∧ t.held = false) ∨ (i = .ftRead ∧ t = { s with held := true }))

/-- R204, R209, R15: a command, or an illegal word, that takes a fatal fault in RUN mode writes FAULT, FINFO and its
response, and nothing else. -/
def Obligations.FatalFaultsArePrecise : Prop :=
  ∀ s t : State, s.fault = 0 → t.fault ≠ 0 →
    ((∃ i, exec i s = .next t) ∨ ∃ w, issue w s = .next t) →
    ∃ (code : BitVec 8) (info : Word), 0x01 ≤ code.toNat ∧ code.toNat ≤ 0x08 ∧
      t = answered { s with fault := code.setWidth 32, finfo := info } code info

/-- R206: in FAULTED mode every word but a legal NOP, RDREG or SRESET, illegal words too, gets (0x0F, FAULT) and changes
nothing; those three run, RDREG of a bad register number answers (0x06, 0x01), and the link agents still run. -/
def Obligations.FaultedModeRefuses : Prop :=
  ∀ (s : State) (rest : List Input), s.fault ≠ 0 → s.held = false →
    (∀ w, s.inputs = .command w :: rest → (∀ i, decode w = .ok i → i ≠ .nop ∧ i ≠ .sreset ∧ ∀ a, i ≠ .rdreg a) →
      step s = .next (answered { s with inputs := rest } 0x0F s.fault)) ∧
    (s.inputs = .command 0x0000000000 :: rest → step s = .next (answered { s with inputs := rest } 0x00 0)) ∧
    (s.inputs = .command 0x0200000000 :: rest →
      step s = .next (answered (resetFrom { s with inputs := rest }) 0x00 0)) ∧
    (∀ a : Word, s.inputs = .command (0x01#8 ++ a) :: rest →
      (0x10 < a.toNat → step s = .next (answered { s with inputs := rest } 0x06 0x01)) ∧
      (a.toNat ≤ 0x10 → ∃ v, step s = .next (answered { s with inputs := rest } 0x00 v))) ∧
    (∀ e, s.inputs = .link e :: rest → step s = .next (linkStep e { s with inputs := rest }))

/-- R207: FAULT and FINFO of a faulted block change only in a step that takes a hardware reset or an SRESET command, and
that step leaves the reset state of R37. -/
def Obligations.FaultedLeftByResetOnly : Prop :=
  ∀ s t : State, s.fault ≠ 0 → step s = .next t → t.fault ≠ s.fault ∨ t.finfo ≠ s.finfo →
    ∃ rest : List Input,
      ((nextInput s = some (.hardReset, rest) ∨ ∃ w k, nextInput s = some (.abandoned w k, rest)) ∧
        t = resetFrom { s with inputs := rest }) ∨
      (nextInput s = some (.command 0x0200000000, rest) ∧ t = answered (resetFrom { s with inputs := rest }) 0x00 0)

/-- R208, R202: a response with a transport-class status reports value 0 and its code in TERR; FAULT, FINFO, the mode,
the five buffers and SEED and OLEN stay. -/
def Obligations.TransportErrorsAreNotFatal : Prop :=
  ∀ (i : Instr) (s t : State) (r : Response), exec i s = .next t → t.responses = s.responses ++ [r] →
    0x10 ≤ r.status.toNat → r.status.toNat ≤ 0x14 →
    r.value = 0 ∧ t.terr = r.status.setWidth 32 ∧ t.fault = s.fault ∧ t.finfo = s.finfo ∧
      t.txt = s.txt ∧ t.key = s.key ∧ t.bit = s.bit ∧ t.sym = s.sym ∧ t.pay = s.pay ∧ t.seed = s.seed ∧
      t.olen = s.olen

/-- R58: BREAD, RDREG, LC.B2L and a successful LC.L2B change no state, so doing one twice gives the same response
twice. -/
def Obligations.ReadsHaveNoSideEffects : Prop :=
  ∀ (i : Instr) (s t : State) (r : Response),
    ((∃ buf d, i = .bread buf d) ∨ (∃ a, i = .rdreg a) ∨ (∃ p, i = .lcB2l p) ∨ (∃ c, i = .lcL2b c)) →
    exec i s = .next t → t.responses = s.responses ++ [r] → r.status = 0x00 →
    t = answered s 0x00 r.value ∧ exec i t = .next (answered t 0x00 r.value)

/-- R61, read with R28 and R175 beside it (log 20): a link step taken before a command or after it gives the same state and
the same response, for every command but FT.READ and FT.WRITE. RDREG of STATUS can see `link.fail`: there the block's
state is the same and the value read may differ. FT.OPEN on a link that is down decides whether the step is enabled. -/
def Obligations.LinkStepsCommuteWithCommands : Prop :=
  (∀ (i : Instr) (e : LinkStep) (s t : State), i ≠ .ftRead → i ≠ .ftWrite →
    (i = .ftOpen → s.status.linkup = true) → (i = .rdreg 0x03 → e ≠ .fail) →
    exec i s = .next t → exec i (linkStep e s) = .next (linkStep e t)) ∧
  ∀ s t : State, exec (.rdreg 0x03) s = .next t →
    ∃ v : Word, exec (.rdreg 0x03) (linkStep .fail s) =
      .next { linkStep .fail t with responses := s.responses ++ [{ status := 0x00, value := v }] }

/-- R32: TXOUT is append-only; only FT.OPEN starts a new log. Reset and FT.CLOSE leave it. -/
def Obligations.TxoutIsAppendOnly : Prop :=
  ∀ s t : State, step s = .next t →
    (∃ bytes, t.txout = s.txout ++ bytes) ∨
      (t.txout = [] ∧ s.status.linkup = false ∧ t.status.linkup = true ∧
        ∃ rest, nextInput s = some (.command 0x5000000000, rest))

/-! ## System commands -/

/-- R101, R104, R105: NOP in both modes, a word with its opcode and an argument being illegal; SETSEED and SETOLEN in RUN
mode, for every 32-bit value. -/
def Obligations.NopSetseedSetolen : Prop :=
  encode .nop = 0x0000000000 ∧ (∀ s : State, Answers .nop s s 0x00 0) ∧
  (∀ a : Word, a ≠ 0 → decode (0x00#8 ++ a) = .error (.reservedBits 0x00)) ∧
  ∀ a : Word, encode (.setseed a) = 0x03#8 ++ a ∧ encode (.setolen a) = 0x04#8 ++ a ∧
    ∀ s : State, s.fault = 0 →
      Answers (.setseed a) s { s with seed := a } 0x00 0 ∧ Answers (.setolen a) s { s with olen := a } 0x00 0

/-- R102, R36, R28, R30: RDREG of every register, in both modes, and of a number that is no register. -/
def Obligations.RdregReadsEveryRegister : Prop :=
  (∀ a : Word, encode (.rdreg a) = 0x01#8 ++ a) ∧
  ∀ s : State,
    (∀ (a v : Word), (a, v) ∈
      [(0x00, s.fault), (0x01, s.finfo), (0x02, s.terr), (0x04, BitVec.ofNat 32 s.txt.length),
        (0x05, BitVec.ofNat 32 s.key.length), (0x06, BitVec.ofNat 32 s.bit.length),
        (0x07, BitVec.ofNat 32 s.sym.length), (0x08, BitVec.ofNat 32 s.pay.length), (0x09, s.seed), (0x0A, s.olen),
        (0x0B, s.rxlen), (0x0C, s.rxcnt), (0x0D, BitVec.ofNat 32 s.params.tmax),
        (0x0E, BitVec.ofNat 32 s.params.kmax), (0x0F, BitVec.ofNat 32 s.params.pmax), (0x10, 1)] →
      Answers (.rdreg a) s s 0x00 v) ∧
    (∃ v : Word, Answers (.rdreg 0x03) s s 0x00 v ∧ v.getLsbD 0 = s.status.linkup ∧
      v.getLsbD 1 = s.status.rxclosed ∧ v.getLsbD 2 = s.status.torn ∧ v.getLsbD 3 = s.status.broken ∧
      v.getLsbD 4 = s.status.omp ∧ ∀ n, 5 ≤ n → v.getLsbD n = false) ∧
    (∀ a : Word, 0x10 < a.toNat →
      (s.fault = 0 → RaisesFatal (.rdreg a) s 0x06 0x01) ∧ (s.fault ≠ 0 → Answers (.rdreg a) s s 0x06 0x01))

/-- R103, R37: SRESET, in both modes: every item at its reset value, the constants and TXOUT as they were; no other command
leaves FAULTED mode. -/
def Obligations.SresetResets : Prop :=
  encode .sreset = 0x0200000000 ∧ (∀ s : State, Answers .sreset s (resetFrom s) 0x00 0) ∧
  ∀ (i : Instr) (s t : State), s.fault ≠ 0 → exec i s = .next t → t.fault = 0 → i = .sreset

/-! ## Buffer commands -/

/-- R106, R79, R7: BPUSH: its checks in order, and the push: the element at index LEN, the length one more, every other
element and length as before. -/
def Obligations.BpushAppendsOrRejects : Prop :=
  (∀ buf d, buf < 2 ^ 4 → d < 2 ^ 28 → (encode (.bpush buf d)).toNat = 0x11 * 2 ^ 32 + buf * 2 ^ 28 + d) ∧
  ∀ (s : State) (buf d : Nat), s.fault = 0 →
    (4 < buf → RaisesFatal (.bpush buf d) s 0x06 0x11) ∧
    ∀ b wm cap, (buf, b, wm, cap) ∈ bufRows s →
      (buf ≤ 1 → wm < d → RaisesFatal (.bpush buf d) s 0x01 (BitVec.ofNat 32 d)) ∧
      (2 ≤ buf → wm < d → RaisesFatal (.bpush buf d) s 0x06 0x11) ∧
      (d ≤ wm → lenOf s b = cap → RaisesFatal (.bpush buf d) s 0x08 (BitVec.ofNat 32 buf)) ∧
      (d ≤ wm → lenOf s b ≠ cap →
        ∃ t : State, Answers (.bpush buf d) s t 0x00 (BitVec.ofNat 32 (lenOf s b + 1)) ∧
          readElem t b (lenOf s b) = some (BitVec.ofNat 32 d) ∧ lenOf t b = lenOf s b + 1 ∧
          (∀ b' i, (b', i) ≠ (b, lenOf s b) → readElem t b' i = readElem s b' i) ∧
          (∀ b', b' ≠ b → lenOf t b' = lenOf s b') ∧
          t = { s with txt := t.txt, key := t.key, bit := t.bit, sym := t.sym, pay := t.pay })

/-- R108: BREAD: the element zero-extended, or BoundsError with the index, or IllegalCommand; refused in FAULTED mode. -/
def Obligations.BreadReadsOrRejects : Prop :=
  (∀ buf d, buf < 2 ^ 4 → d < 2 ^ 28 → (encode (.bread buf d)).toNat = 0x12 * 2 ^ 32 + buf * 2 ^ 28 + d) ∧
  (∀ (s : State) (buf d : Nat), s.fault ≠ 0 → Answers (.bread buf d) s s 0x0F s.fault) ∧
  ∀ (s : State) (d : Nat), s.fault = 0 →
    (∀ x, s.txt[d]? = some x → Answers (.bread 0 d) s s 0x00 (BitVec.ofNat 32 x.toNat)) ∧
    (∀ x, s.key[d]? = some x → Answers (.bread 1 d) s s 0x00 (BitVec.ofNat 32 x.toNat)) ∧
    (∀ x, s.bit[d]? = some x → Answers (.bread 2 d) s s 0x00 (BitVec.ofNat 32 x.toNat)) ∧
    (∀ x, s.sym[d]? = some x → Answers (.bread 3 d) s s 0x00 (BitVec.ofNat 32 x.toNat)) ∧
    (∀ x, s.pay[d]? = some x → Answers (.bread 4 d) s s 0x00 (BitVec.ofNat 32 x.toNat)) ∧
    (∀ buf b wm cap, (buf, b, wm, cap) ∈ bufRows s → lenOf s b ≤ d →
      RaisesFatal (.bread buf d) s 0x07 (BitVec.ofNat 32 d)) ∧
    (∀ buf, 4 < buf → RaisesFatal (.bread buf d) s 0x06 0x12)

/-- R107, R109, R110: BCLR, BTRUNC and BTRUNCO keep a prefix of one buffer; its kept elements keep their indices and
values, and every other buffer is as before. -/
def Obligations.TruncationsKeepAPrefix : Prop :=
  (∀ buf, buf < 2 ^ 4 → (encode (.bclr buf)).toNat = 0x10 * 2 ^ 32 + buf * 2 ^ 28) ∧
  (∀ buf d, buf < 2 ^ 4 → d < 2 ^ 28 → (encode (.btrunc buf d)).toNat = 0x13 * 2 ^ 32 + buf * 2 ^ 28 + d) ∧
  encode .btrunco = 0x1400000000 ∧
  ∀ s : State, s.fault = 0 →
    (∀ buf d, 4 < buf → RaisesFatal (.bclr buf) s 0x06 0x10 ∧ RaisesFatal (.btrunc buf d) s 0x06 0x13) ∧
    ∀ (i : Instr) (b : Buf) (n : Nat),
      ((∃ buf wm cap, (buf, b, wm, cap) ∈ bufRows s ∧ ((i = .bclr buf ∧ n = 0) ∨ i = .btrunc buf n)) ∨
        (i = .btrunco ∧ b = .bit ∧ n = s.olen.toNat)) →
      ∃ t : State, Answers i s t 0x00 (BitVec.ofNat 32 (lenOf t b)) ∧ lenOf t b = min (lenOf s b) n ∧
        (∀ j, j < lenOf t b → readElem t b j = readElem s b j) ∧
        (∀ b' j, b' ≠ b → readElem t b' j = readElem s b' j) ∧ (∀ b', b' ≠ b → lenOf t b' = lenOf s b') ∧
        t = { s with txt := t.txt, key := t.key, bit := t.bit, sym := t.sym, pay := t.pay }

/-! ## BitCodec -/

/-- R123, R120, R52: BC.ENC writes bit `7 - k` of character `j` at index `8j + k`. -/
def Obligations.BcEncExpandsText : Prop :=
  encode .bcEnc = 0x2000000000 ∧
  ∀ s : State, s.fault = 0 →
    ∃ b : List Bool, Answers .bcEnc s { s with bit := b } 0x00 (BitVec.ofNat 32 b.length) ∧
      b.length = 8 * s.txt.length ∧ ∀ p, p < 8 * s.txt.length → b[p]? = some (textBit s.txt p)

/-- R124, R121: BC.DEC reads each group of eight bits as a number, the first bit worth 128; a length that is no multiple
of 8 is MalformedInputError. -/
def Obligations.BcDecPacksBits : Prop :=
  encode .bcDec = 0x2100000000 ∧
  ∀ s : State, s.fault = 0 →
    (s.bit.length % 8 ≠ 0 → RaisesFatal .bcDec s 0x02 (BitVec.ofNat 32 s.bit.length)) ∧
    (s.bit.length % 8 = 0 →
      ∃ t : List Byte, Answers .bcDec s { s with txt := t } 0x00 (BitVec.ofNat 32 t.length) ∧
        t.length = s.bit.length / 8 ∧
        ∀ j, j < t.length → (t.getD j 0).toNat =
          ((List.range 8).map fun k => (s.bit.getD (8 * j + k) false).toNat * 2 ^ (7 - k)).sum)

/-- R122: both round trips, by the commands, each answering OK: BC.ENC gives 8 bits per character and BC.DEC after it gives
that text whatever TXT holds by then; BC.DEC then BC.ENC gives BIT back when its length is a multiple of 8, whatever BIT
holds in between. -/
def Obligations.BitCodecRoundTrips : Prop :=
  ∀ s : State, s.fault = 0 →
    (∃ t : State, RunsOk .bcEnc s t ∧ t.bit.length = 8 * s.txt.length ∧
      ∀ x : List Byte, ∃ u : State, RunsOk .bcDec { t with txt := x } u ∧ u.txt = s.txt) ∧
    (s.bit.length % 8 = 0 → ∃ t : State, RunsOk .bcDec s t ∧
      ∀ b : List Bool, ∃ u : State, RunsOk .bcEnc { t with bit := b } u ∧ u.bit = s.bit)

/-! ## StreamCipher -/

/-- R135, R130, R131: SC.XOR, position for position with the repeated key bits; EmptyKeyError whatever BLEN is. -/
def Obligations.ScXorMasksBits : Prop :=
  encode .scXor = 0x3000000000 ∧
  ∀ s : State, s.fault = 0 →
    (s.key = [] → RaisesFatal .scXor s 0x05 0) ∧
    (s.key ≠ [] →
      ∃ b : List Bool, Answers .scXor s { s with bit := b } 0x00 (BitVec.ofNat 32 s.bit.length) ∧
        b.length = s.bit.length ∧
        ∀ p x, s.bit[p]? = some x → b[p]? = some (x ^^ textBit s.key (p % (8 * s.key.length))))

/-- R131, R135: SC.XOR twice with the same KEY, both times answering OK, restores BIT. -/
def Obligations.ScXorTwiceRestores : Prop :=
  ∀ s : State, s.fault = 0 → s.key ≠ [] →
    ∃ t u : State, RunsOk .scXor s t ∧ RunsOk .scXor t u ∧ u.bit = s.bit

/-- R136, R132, R12: SC.PERM rotates left by the floor modulus of the signed SEED. -/
def Obligations.ScPermRotatesLeft : Prop :=
  encode .scPerm = 0x3100000000 ∧
  ∀ s : State, s.fault = 0 →
    (s.bit = [] → RaisesFatal .scPerm s 0x03 0) ∧
    (s.bit ≠ [] →
      ∃ (b : List Bool) (shift : Nat), Answers .scPerm s { s with bit := b } 0x00 (BitVec.ofNat 32 shift) ∧
        shift < s.bit.length ∧ (s.bit.length : Int) ∣ s.seed.toInt - shift ∧ b.length = s.bit.length ∧
        ∀ p, p < s.bit.length → b[p]? = s.bit[(p + shift) % s.bit.length]?)

/-- R137, R133, R12: SC.UNPERM rotates right by the same amount. -/
def Obligations.ScUnpermRotatesRight : Prop :=
  encode .scUnperm = 0x3200000000 ∧
  ∀ s : State, s.fault = 0 →
    (s.bit = [] → RaisesFatal .scUnperm s 0x03 0) ∧
    (s.bit ≠ [] →
      ∃ (b : List Bool) (shift : Nat), Answers .scUnperm s { s with bit := b } 0x00 (BitVec.ofNat 32 shift) ∧
        shift < s.bit.length ∧ (s.bit.length : Int) ∣ s.seed.toInt - shift ∧ b.length = s.bit.length ∧
        ∀ p, p < s.bit.length → b[(p + shift) % s.bit.length]? = s.bit[p]?)

/-- R134: SC.PERM then SC.UNPERM, and SC.UNPERM then SC.PERM, all answering OK, restore a non-empty BIT for every SEED. -/
def Obligations.RotationsAreInverse : Prop :=
  ∀ s : State, s.fault = 0 → s.bit ≠ [] →
    (∃ t u : State, RunsOk .scPerm s t ∧ RunsOk .scUnperm t u ∧ u.bit = s.bit) ∧
    (∃ t u : State, RunsOk .scUnperm s t ∧ RunsOk .scPerm t u ∧ u.bit = s.bit)

/-- R138, R130 to R132: SC.ENCRYPT: the text's bits, masked with the key's, rotated left by KLEN; its checks in order. -/
def Obligations.ScEncryptText : Prop :=
  encode .scEncrypt = 0x3300000000 ∧
  ∀ s : State, s.fault = 0 →
    (s.key = [] → RaisesFatal .scEncrypt s 0x05 0) ∧
    (s.key ≠ [] → s.txt = [] → RaisesFatal .scEncrypt s 0x03 0) ∧
    (s.key ≠ [] → s.txt ≠ [] →
      ∃ b : List Bool, Answers .scEncrypt s { s with bit := b } 0x00 (BitVec.ofNat 32 b.length) ∧
        b.length = 8 * s.txt.length ∧
        ∀ p q, p < 8 * s.txt.length → q = (p + s.key.length) % (8 * s.txt.length) →
          b[p]? = some (textBit s.txt q ^^ textBit s.key (q % (8 * s.key.length))))

/-- R139, R130, R131, R133: SC.DECRYPT: the bits rotated right by KLEN, masked, packed into characters; its checks in
order. -/
def Obligations.ScDecryptBits : Prop :=
  encode .scDecrypt = 0x3400000000 ∧
  ∀ s : State, s.fault = 0 →
    (s.bit = [] → RaisesFatal .scDecrypt s 0x03 0) ∧
    (s.bit ≠ [] → s.key = [] → RaisesFatal .scDecrypt s 0x05 0) ∧
    (s.bit ≠ [] → s.key ≠ [] → s.bit.length % 8 ≠ 0 →
      RaisesFatal .scDecrypt s 0x02 (BitVec.ofNat 32 s.bit.length)) ∧
    (s.bit ≠ [] → s.key ≠ [] → s.bit.length % 8 = 0 →
      ∃ t : List Byte, Answers .scDecrypt s { s with txt := t } 0x00 (BitVec.ofNat 32 t.length) ∧
        t.length = s.bit.length / 8 ∧
        ∀ p x, s.bit[p]? = some x → ∀ q, q = (p + s.key.length) % s.bit.length →
          textBit t q = (x ^^ textBit s.key (q % (8 * s.key.length))))

/-- R140: SC.ENCRYPT then SC.DECRYPT, both answering OK, give the text back, for every non-empty text and key: TXT is left
as it was, and is written so whatever it holds when SC.DECRYPT runs. -/
def Obligations.DecryptAfterEncrypt : Prop :=
  ∀ s : State, s.fault = 0 → s.txt ≠ [] → s.key ≠ [] →
    ∃ t : State, RunsOk .scEncrypt s t ∧ t.txt = s.txt ∧
      ∀ x : List Byte, ∃ u : State, RunsOk .scDecrypt { t with txt := x } u ∧ u.txt = s.txt

/-! ## LineCoder -/

/-- R154, R151, R53, R78: LC.ENC: lane `k` of symbol word `j` is the level code of the bits `8j + 2k` and `8j + 2k + 1`,
bits beyond BIT being zero padding. -/
def Obligations.LcEncMapsPairs : Prop :=
  encode .lcEnc = 0x4000000000 ∧
  ∀ s : State, s.fault = 0 →
    ∃ ws : List SymWord, Answers .lcEnc s { s with sym := ws } 0x00 (BitVec.ofNat 32 ws.length) ∧
      ws.length = (s.bit.length + 7) / 8 ∧
      ∀ j k, j < ws.length → k < 4 →
        PairHasCode (paddedBit s.bit (8 * j + 2 * k)) (paddedBit s.bit (8 * j + 2 * k + 1)) (laneNumber (ws.getD j 0) k)

/-- R155, R152: LC.DEC. Where every lane is valid, bits `8j + 2k` and `8j + 2k + 1` are the pair of lane `k` of word `j`;
else InvalidLevelError at the first invalid lane in scan order, with its position and code. -/
def Obligations.LcDecMapsLanesOrFaults : Prop :=
  encode .lcDec = 0x4100000000 ∧
  ∀ s : State, s.fault = 0 →
    ((∀ j k, j < s.sym.length → k < 4 → CodeDefined (laneNumber (s.sym.getD j 0) k)) →
      ∃ b : List Bool, Answers .lcDec s { s with bit := b } 0x00 (BitVec.ofNat 32 b.length) ∧
        b.length = 8 * s.sym.length ∧
        ∀ j k, j < s.sym.length → k < 4 →
          PairHasCode (paddedBit b (8 * j + 2 * k)) (paddedBit b (8 * j + 2 * k + 1))
            (laneNumber (s.sym.getD j 0) k)) ∧
    ∀ j k, j < s.sym.length → k < 4 → ¬ CodeDefined (laneNumber (s.sym.getD j 0) k) →
      (∀ j' k', k' < 4 → 4 * j' + k' < 4 * j + k → CodeDefined (laneNumber (s.sym.getD j' 0) k')) →
      RaisesFatal .lcDec s 0x04 (BitVec.ofNat 32 ((4 * j + k) * 8 + laneNumber (s.sym.getD j 0) k))

/-- R153: LC.ENC then LC.DEC gives BIT padded on the right with zero bits to a multiple of 8, whatever BIT holds by then, and
LC.DEC then LC.ENC gives an all-valid SYM back, whatever SYM holds in between; all answer OK. -/
def Obligations.LineCoderRoundTrips : Prop :=
  ∀ s : State, s.fault = 0 →
    (∃ t : State, RunsOk .lcEnc s t ∧ ∀ b : List Bool, ∃ u : State, RunsOk .lcDec { t with bit := b } u ∧
      u.bit = s.bit ++ List.replicate ((8 - s.bit.length % 8) % 8) false) ∧
    ((∀ j k, j < s.sym.length → k < 4 → CodeDefined (laneNumber (s.sym.getD j 0) k)) →
      ∃ t : State, RunsOk .lcDec s t ∧
        ∀ ws : List SymWord, ∃ u : State, RunsOk .lcEnc { t with sym := ws } u ∧ u.sym = s.sym)

/-- R156, R157, R150: the eight look-ups, and InvalidLevelError with the position field all ones. -/
def Obligations.LevelLookUps : Prop :=
  (∀ p : BitPair, (encode (.lcB2l p)).toNat = 0x42 * 2 ^ 32 + p.toNat) ∧
  (∀ c : LevelCode, (encode (.lcL2b c)).toNat = 0x43 * 2 ^ 32 + c.toNat) ∧
  ∀ s : State, s.fault = 0 →
    (∀ (p : BitPair) (v : Word), (p, v) ∈ [(0, 6), (1, 1), (2, 7), (3, 2)] → Answers (.lcB2l p) s s 0x00 v) ∧
    (∀ (c : LevelCode) (v : Word), (c, v) ∈ [(6, 0), (7, 2), (1, 1), (2, 3)] → Answers (.lcL2b c) s s 0x00 v) ∧
    (∀ c : LevelCode, c ∈ [0, 3, 4, 5] → RaisesFatal (.lcL2b c) s 0x04 (BitVec.ofNat 32 (0x1FFFFFFF * 8 + c.toNat)))

/-- R159, R31: `bitpairOf` and `levelOf` are inverse on the four pairs and the four valid codes. -/
def Obligations.LevelTableIsBijective : Prop :=
  (∀ p : BitPair, bitpairOf (levelOf p) = some p) ∧
  (∀ c : LevelCode, CodeDefined c.toNat → ∃ p, bitpairOf c = some p ∧ levelOf p = c) ∧
  (∀ c : LevelCode, ¬ CodeDefined c.toNat → bitpairOf c = none) ∧
  (∀ r ∈ lvlRom, levelOf r.pair = r.code ∧ r.code.toInt = r.level) ∧
  lvlRom.map (·.level) = [-2, 1, -1, 2]

/-! ## FrameTransport -/

/-- R170, R80, R60: the machine's frame is the length and the payload; a stream of its frames splits in exactly one way into
them; and FT.READ after FT.READ takes them off such a stream in their order, the bytes after them left in RXFIFO. -/
def Obligations.FrameStreamSplitsOneWay : Prop :=
  (∀ p : List Byte, frame p = bytesBE p.length ++ p) ∧
  (∀ ps qs : List (List Byte), (∀ p ∈ ps, p.length < 2 ^ 32) → (∀ q ∈ qs, q.length < 2 ^ 32) →
    ps.flatMap frame = qs.flatMap frame → ps = qs) ∧
  ∀ (s : State) (ps : List (List Byte)) (rest : List Byte), s.fault = 0 → s.params.InBounds →
    s.status.linkup = true → s.status.broken = false → (∀ p ∈ ps, p.length ≤ s.params.pmax) →
    s.rxfifo = ps.flatMap frame ++ rest →
    ∃ u : State, execAll (List.replicate ps.length .ftRead) s = .next u ∧ u.fault = 0 ∧ u.rxfifo = rest ∧
      (∀ p, ps.getLast? = some p → u.pay = p) ∧
      u.responses = s.responses ++ ps.map fun p => { status := 0x00, value := BitVec.ofNat 32 p.length }

/-- R171: FT.OPEN: LinkBusy, or the environment's draw: ConnectionError with LINKUP still 0, or a new connection. The
draw is any of the two, and it is the one the state lists where it lists one (log 4). -/
def Obligations.FtOpenAttaches : Prop :=
  encode .ftOpen = 0x5000000000 ∧
  ∀ s : State, s.fault = 0 →
    (s.status.linkup = true → RaisesTransport .ftOpen s 0x14) ∧
    (s.status.linkup = false →
      ∃ ok : Bool, (∀ o rest, s.openDraws = o :: rest → ok = o) ∧
        (ok = false → Answers .ftOpen s { openDrawn s with terr := 0x10 } 0x10 0) ∧
        (ok = true → Answers .ftOpen s
          { openDrawn s with
            rxfifo := [], rxeof := false, txout := []
            status := { linkup := true, rxclosed := false, torn := false, broken := false, omp := s.status.omp } }
          0x00 0))

/-- R172: FT.CLOSE always answers OK: LINKUP and BROKEN cleared, unread bytes gone, the rest as it was. -/
def Obligations.FtCloseDetaches : Prop :=
  encode .ftClose = 0x5100000000 ∧
  ∀ s : State, s.fault = 0 →
    Answers .ftClose s
      { s with rxfifo := [], rxeof := false, status := { s.status with linkup := false, broken := false } } 0x00 0

/-- R173, R59, R80, R54: FT.WRITE: the two refusals, and for the number `k` of bytes the link accepts: all of the frame
and OK, or a strict prefix, BROKEN and TransportError. `k` is any number up to the frame's length, and the one the state
lists where it lists one (log 4, log 5). -/
def Obligations.FtWriteSendsFrame : Prop :=
  encode .ftWrite = 0x5200000000 ∧
  ∀ s : State, s.fault = 0 →
    (s.status.linkup = false → RaisesTransport .ftWrite s 0x11) ∧
    (s.status.linkup = true → s.status.broken = true → RaisesTransport .ftWrite s 0x12) ∧
    (s.status.linkup = true → s.status.broken = false →
      ∃ k : Nat, k ≤ 4 + s.pay.length ∧ (∀ n rest, s.writeDraws = n :: rest → k = min n (4 + s.pay.length)) ∧
        (k = 4 + s.pay.length → Answers .ftWrite s
          { writeDrawn s with txout := s.txout ++ bytesBE s.pay.length ++ s.pay } 0x00 (BitVec.ofNat 32 s.pay.length)) ∧
        (k < 4 + s.pay.length → Answers .ftWrite s
          { writeDrawn s with
            txout := s.txout ++ (bytesBE s.pay.length ++ s.pay).take k, terr := 0x12
            status := { s.status with broken := true } } 0x12 0))

/-- R174: FT.READ. NotConnectedError; TransportError; a complete frame delivered to PAY, also when the peer has closed,
the rest left in RXFIFO; ProtocolError on an oversize length; ConnectionClosed in the header and in the payload; and the
hold, which gives no response. -/
def Obligations.FtReadOutcomes : Prop :=
  encode .ftRead = 0x5300000000 ∧
  ∀ s : State, s.fault = 0 → s.params.InBounds →
    (s.status.linkup = false → RaisesTransport .ftRead s 0x11) ∧
    (s.status.linkup = true → s.status.broken = true → RaisesTransport .ftRead s 0x12) ∧
    (s.status.linkup = true → s.status.broken = false →
      (∀ p rest, s.rxfifo = bytesBE p.length ++ p ++ rest → p.length ≤ s.params.pmax → Answers .ftRead s
        { s with
          pay := p, rxfifo := rest
          rxlen := BitVec.ofNat 32 p.length, rxcnt := BitVec.ofNat 32 p.length } 0x00 (BitVec.ofNat 32 p.length)) ∧
      (∀ n rest, s.rxfifo = bytesBE n ++ rest → n < 2 ^ 32 → s.params.pmax < n → Answers .ftRead s
        { linkDropped s with rxlen := BitVec.ofNat 32 n, rxcnt := 0, terr := 0x13 } 0x13 0) ∧
      (s.rxfifo.length < 4 → s.rxeof = true → Answers .ftRead s
        { linkDropped s with
          rxlen := 0, rxcnt := BitVec.ofNat 32 s.rxfifo.length
          status := { s.status with linkup := false, rxclosed := true, torn := false } } 0x20 0) ∧
      (∀ n p, s.rxfifo = bytesBE n ++ p → n ≤ s.params.pmax → p.length < n → s.rxeof = true → Answers .ftRead s
        { linkDropped s with
          rxlen := BitVec.ofNat 32 n, rxcnt := BitVec.ofNat 32 p.length
          status := { s.status with linkup := false, rxclosed := true, torn := true } } 0x20 0) ∧
      (s.rxfifo.length < 4 → s.rxeof = false → exec .ftRead s = .next { s with held := true }) ∧
      (∀ n p, s.rxfifo = bytesBE n ++ p → n ≤ s.params.pmax → p.length < n → s.rxeof = false →
        exec .ftRead s = .next { s with held := true }))

/-- R177, R174, V-S7: an FT.READ that holds while the rest of a frame arrives byte by byte completes with that frame,
however much had arrived before; nothing else than the delivery has changed. That it completes in a step of its own is the
model's choice (log 8). -/
def Obligations.HeldReadCompletesWhenFrameArrives : Prop :=
  ∀ (s : State) (bs p : List Byte) (rest : List Input), s.held = true → s.fault = 0 → s.params.InBounds →
    s.status.linkup = true → s.status.broken = false → s.rxeof = false →
    s.rxfifo ++ bs = bytesBE p.length ++ p → p.length ≤ s.params.pmax →
    s.inputs = (bs.map fun b => Input.link (.deliver b)) ++ rest →
    core.run (bs.length + 1) s = .next (answered
      { s with
        inputs := rest, rxfifo := [], pay := p
        rxlen := BitVec.ofNat 32 p.length, rxcnt := BitVec.ofNat 32 p.length } 0x00 (BitVec.ofNat 32 p.length))

/-- R240, R176: while an FT.READ holds no command is issued: a step gives no response and the host's commands wait in
their order; the hold goes on, or a hardware reset ended it. -/
def Obligations.HeldReadBlocksCommands : Prop :=
  ∀ s t : State, s.held = true → readReady s = false → step s = .next t →
    t.responses = s.responses ∧
    t.inputs.filterMap (fun e => match e with
      | .command w => some w
      | _ => none) =
      s.inputs.filterMap (fun e => match e with
      | .command w => some w
      | _ => none) ∧
    (t.held = true ∨ ∃ rest, nextInput s = some (.hardReset, rest))

/-! ## Message -/

/-- R182, R82, R180: MSG.PACK: the payload of R82 and its length, or CapacityError with the bytes needed. -/
def Obligations.MsgPackSerializes : Prop :=
  (∀ f : Bool, (encode (.msgPack f)).toNat = 0x60 * 2 ^ 32 + f.toNat) ∧
  ∀ (s : State) (f : Bool) (n : Nat), s.fault = 0 →
    n = 19 + 2 * s.sym.length + s.key.length + (if f = true then 5 + s.txt.length else 0) →
    (s.params.pmax < n → RaisesFatal (.msgPack f) s 0x08 (BitVec.ofNat 32 n)) ∧
    (n ≤ s.params.pmax →
      ∃ pay : List Byte, pay = payloadBytes s.sym s.key s.olen (if f = true then some s.txt else none) ∧
        pay.length = n ∧ Answers (.msgPack f) s { s with pay := pay } 0x00 (BitVec.ofNat 32 n))

/-- R183, R83, R181: MSG.UNPACK: a PAY that is the payload of a Message within the capacities gives back that Message,
whatever its level codes; any other PAY is ProtocolError and changes nothing but TERR. -/
def Obligations.MsgUnpackParses : Prop :=
  encode .msgUnpack = 0x6100000000 ∧
  ∀ s : State, s.fault = 0 → s.params.InBounds →
    (∀ ws k n m, s.pay = payloadBytes ws k n m → MessageFits s.params ws k m →
      Answers .msgUnpack s
        { s with sym := ws, key := k, olen := n, txt := m.getD [], status := { s.status with omp := m.isSome } }
        0x00 (BitVec.ofNat 32 ws.length)) ∧
    ((∀ ws k n m, s.pay = payloadBytes ws k n m → ¬ MessageFits s.params ws k m) →
      RaisesTransport .msgUnpack s 0x13)

/-! ## The two pipelines -/

/-- R186, R187: the sender's commands for a non-empty text and key send one frame (that the link accepts all of it is said
through the listed draw, log 4); a receiver that finds these bytes unaltered at the front of RXFIFO recovers the text, reads
it from TXT character by character, keeps the bytes that follow, and goes on to the next frame. -/
def Obligations.ReceiverRecoversSentText : Prop :=
  ∀ (m k : List Byte) (f : Bool) (s : State) (accepts : Nat) (draws : List Nat) (size : Nat),
    size = 19 + 2 * m.length + k.length + (if f = true then 5 + m.length else 0) →
    m ≠ [] → k ≠ [] → StateInv s → s.fault = 0 → s.status.linkup = true → s.status.broken = false →
    m.length ≤ s.params.tmax → k.length ≤ s.params.kmax → size ≤ s.params.pmax →
    s.writeDraws = accepts :: draws → 4 + size ≤ accepts →
    ∃ (s' : State) (sent : List Byte), execAll (senderCommands m k f) s = .next s' ∧ s'.fault = 0 ∧
      s'.txout = s.txout ++ sent ∧ sent.length = 4 + size ∧
      ∀ (r : State) (rest : List Byte), StateInv r → r.fault = 0 → r.status.linkup = true → r.status.broken = false →
        m.length ≤ r.params.tmax → k.length ≤ r.params.kmax → size ≤ r.params.pmax → r.rxfifo = sent ++ rest →
        ∃ r' : State, receiveFrame r = .next (.values (textValues m), r') ∧ r'.txt = m ∧ r'.fault = 0 ∧
          r'.rxfifo = rest ∧
          ∀ n texts e u, receiveFrames n r' = .next (texts, e, u) → receiveFrames (n + 1) r = .next (m :: texts, e, u)

/-- R187: the receiver's loop stops where its FT.READ does not deliver a frame: at a closure (status 0x20) cleanly, at
TransportError and ProtocolError (0x12, 0x13) with a report, and where FT.READ holds it waits. No command is issued after that
FT.READ, so MSG.UNPACK has not run. A receiver that waits goes on, in the state of the step in which its FT.READ completes, as
one whose FT.READ did not have to hold (log 8, log 24). -/
def Obligations.ReceiverStopsWhereReadStops : Prop :=
  (∀ (n : Nat) (s : State), s.fault = 0 →
    (∀ (t : State) (v : Word), Answers .ftRead s t 0x20 v →
      receiveFrames (n + 1) s = .next ([], .closed, answered t 0x20 v)) ∧
    (∀ (t : State) (status : BitVec 8), status ∈ [0x12, 0x13] → Answers .ftRead s t status 0 →
      receiveFrames (n + 1) s = .next ([], .reported status, answered t status 0)) ∧
    (s.status.linkup = true → readReady s = false →
      receiveFrames (n + 1) s = .next ([], .waiting, { s with held := true }))) ∧
  ∀ s t : State, s.held = true → readReady s = true → step s = .next t → afterRead t = receiveFrame s
end

