-- ==== Sys2Proof/Laws/Codec.lean ====
section
/-! SUPPORT. The bit and byte conversions, BitCodec and the cipher's functions: lengths, index forms and inverses, the
building blocks of the statements about BC and SC commands. -/

namespace Sys2Proof.Machine

/-! ## Bytes and bits (R13) -/

@[simp] theorem bits8_length (v : Byte) : (bits8 v).length = 8 := rfl

/-- Bit `k` of `bits8` is bit `7 - k` of the byte (R13). -/
theorem bits8_getElem? (v : Byte) {k : Nat} (h : k < 8) : (bits8 v)[k]? = some (v.getLsbD (7 - k)) := by
  obtain rfl | rfl | rfl | rfl | rfl | rfl | rfl | rfl :
    k = 0 ∨ k = 1 ∨ k = 2 ∨ k = 3 ∨ k = 4 ∨ k = 5 ∨ k = 6 ∨ k = 7 := by omega
  all_goals rfl

/-- `val8` of the bits of a byte is that byte (R13). -/
theorem val8_bits (v : Byte) :
    val8 (v.getLsbD 7) (v.getLsbD 6) (v.getLsbD 5) (v.getLsbD 4) (v.getLsbD 3) (v.getLsbD 2) (v.getLsbD 1)
      (v.getLsbD 0) = v := by
  revert v; decide

/-- The bits of `val8` are the bits it was made of (R13). -/
theorem bits8_val8 (b0 b1 b2 b3 b4 b5 b6 b7 : Bool) :
    bits8 (val8 b0 b1 b2 b3 b4 b5 b6 b7) = [b0, b1, b2, b3, b4, b5, b6, b7] := by
  revert b0 b1 b2 b3 b4 b5 b6 b7; decide

/-! ## Big-endian numbers (R13) -/

@[simp] theorem u32be_length (v : Nat) : (u32be v).length = 4 := rfl

theorem be32_lt (b0 b1 b2 b3 : Byte) : be32 b0 b1 b2 b3 < 2 ^ 32 := by
  have h0 := b0.isLt; have h1 := b1.isLt; have h2 := b2.isLt; have h3 := b3.isLt
  unfold be32; omega

/-- `be32` undoes `u32be` below 2^32 (R13). -/
theorem be32_u32be {v : Nat} (h : v < 2 ^ 32) :
    be32 (BitVec.ofNat 8 (v / 2 ^ 24)) (BitVec.ofNat 8 (v / 2 ^ 16)) (BitVec.ofNat 8 (v / 2 ^ 8)) (BitVec.ofNat 8 v) =
      v := by
  simp only [be32, BitVec.toNat_ofNat]; omega

/-- `u32be` undoes `be32` (R13). -/
theorem u32be_be32 (b0 b1 b2 b3 : Byte) : u32be (be32 b0 b1 b2 b3) = [b0, b1, b2, b3] := by
  have h0 := b0.isLt; have h1 := b1.isLt; have h2 := b2.isLt; have h3 := b3.isLt
  simp only [u32be, be32, List.cons.injEq, and_true]
  refine ⟨?_, ?_, ?_, ?_⟩ <;> apply BitVec.eq_of_toNat_eq <;> simp only [BitVec.toNat_ofNat] <;> omega

/-! ## BitCodec (R120 to R122) -/

/-- An encoded text is 8 bits per character, a multiple of 8 (R122). -/
@[simp] theorem bcEncode_length (t : List Byte) : (bcEncode t).length = 8 * t.length := by
  induction t with
  | nil => rfl
  | cons c t ih => simp only [bcEncode, List.flatMap_cons, List.length_append, bits8_length, List.length_cons] at ih ⊢; omega

/-- Index form of `BCenc` (R120). -/
theorem bcEncode_getElem? (t : List Byte) {p : Nat} (h : p < 8 * t.length) :
    (bcEncode t)[p]? = some ((t.getD (p / 8) 0).getLsbD (7 - p % 8)) := by
  induction t generalizing p with
  | nil => simp at h
  | cons c t ih =>
    simp only [bcEncode, List.flatMap_cons]
    by_cases hp : p < 8
    · rw [List.getElem?_append_left (by simpa using hp), bits8_getElem? c hp]
      simp [Nat.div_eq_of_lt hp, Nat.mod_eq_of_lt hp]
    · rw [List.getElem?_append_right (by simp; omega), bits8_length]
      have h8 : p - 8 < 8 * t.length := by simp at h; omega
      have := ih h8
      simp only [bcEncode] at this
      rw [this]
      have e1 : p / 8 = (p - 8) / 8 + 1 := by omega
      have e2 : (p - 8) % 8 = p % 8 := by omega
      simp [e1, e2]

/-- Decoding an encoded text gives it back, for every text (R122). -/
@[simp] theorem bcDecode_bcEncode (t : List Byte) : bcDecode (bcEncode t) = t := by
  induction t with
  | nil => rfl
  | cons c t ih =>
    have : bcEncode (c :: t) = bits8 c ++ bcEncode t := by simp [bcEncode]
    rw [this]
    simp only [bits8, List.cons_append, List.nil_append, bcDecode, val8_bits, ih]

/-- A list whose length is a multiple of 8 is empty or eight elements and such a list. -/
theorem eight_cases {α : Type} {b : List α} (h : b.length % 8 = 0) :
    b = [] ∨ ∃ b0 b1 b2 b3 b4 b5 b6 b7 rest,
      b = b0 :: b1 :: b2 :: b3 :: b4 :: b5 :: b6 :: b7 :: rest ∧ rest.length % 8 = 0 := by
  match b, h with
  | [], _ => exact .inl rfl
  | b0 :: b1 :: b2 :: b3 :: b4 :: b5 :: b6 :: b7 :: rest, h =>
    exact .inr ⟨b0, b1, b2, b3, b4, b5, b6, b7, rest, rfl, by simp only [List.length_cons] at h; omega⟩

/-- Encoding a decoded bit string gives it back, when its length is a multiple of 8 (R122). -/
theorem bcEncode_bcDecode (b : List Bool) (h : b.length % 8 = 0) : bcEncode (bcDecode b) = b := by
  induction hn : b.length using Nat.strongRecOn generalizing b with
  | _ n ih =>
    obtain rfl | ⟨b0, b1, b2, b3, b4, b5, b6, b7, rest, rfl, hr⟩ := eight_cases h
    · rfl
    · have := ih rest.length (by simp only [List.length_cons] at hn; omega) rest hr rfl
      simp only [bcEncode] at this
      simp [bcDecode, bcEncode, bits8_val8, this]

/-- The length of a decoded text (R121). -/
theorem bcDecode_length (b : List Bool) (h : b.length % 8 = 0) : (bcDecode b).length = b.length / 8 := by
  have := congrArg List.length (bcEncode_bcDecode b h)
  rw [bcEncode_length] at this; omega

/-! ## The cipher's functions (R131 to R133) -/

@[simp] theorem maskBits_length (k : List Bool) (n : Nat) : (maskBits k n).length = n := by simp [maskBits]

@[simp] theorem xorBits_length (b k : List Bool) : (xorBits b k).length = b.length := by simp [xorBits]

/-- Index form of `XOR` (R131). -/
theorem xorBits_getElem? (b k : List Bool) {p : Nat} {x : Bool} (h : b[p]? = some x) :
    (xorBits b k)[p]? = some (x ^^ k.getD (p % k.length) false) := by
  have hp : p < b.length := (List.getElem?_eq_some_iff.mp h).1
  simp [xorBits, maskBits, List.getElem?_zipWith, h, List.getElem?_range hp]

/-- `XOR` with the same key bits twice restores the string (R131). -/
@[simp] theorem xorBits_xorBits (b k : List Bool) : xorBits (xorBits b k) k = b := by
  apply List.ext_getElem?; intro p
  rcases h : b[p]? with _ | x
  · simpa using h
  · rw [xorBits_getElem? (xorBits b k) k (xorBits_getElem? b k h)]
    simp

/-- The shift is a valid index of a non-empty string (R132). -/
theorem shiftOf_lt (seed : Int) {n : Nat} (h : 0 < n) : shiftOf seed n < n := by
  unfold shiftOf
  have := Int.emod_lt_of_pos seed (show (0 : Int) < n by omega)
  have := Int.emod_nonneg seed (show (n : Int) ≠ 0 by omega)
  omega

/-- The shift is the seed up to a multiple of the length (R12). -/
theorem dvd_sub_shiftOf (seed : Int) {n : Nat} (h : 0 < n) : (n : Int) ∣ seed - shiftOf seed n := by
  unfold shiftOf
  rw [Int.toNat_of_nonneg (Int.emod_nonneg seed (by omega))]
  exact Int.dvd_self_sub_emod

/-- With a natural number as seed the shift is its remainder (R138). -/
theorem shiftOf_natCast (k n : Nat) : shiftOf (k : Int) n = k % n := by
  unfold shiftOf; rw [← Int.natCast_mod, Int.toNat_natCast]

@[simp] theorem permBits_length (b : List Bool) (seed : Int) : (permBits b seed).length = b.length := by
  simp only [permBits, List.length_append, List.length_drop, List.length_take]; omega

@[simp] theorem unpermBits_length (b : List Bool) (seed : Int) : (unpermBits b seed).length = b.length := by
  simp only [unpermBits, List.length_append, List.length_drop, List.length_take]; omega

/-- Index form of `PERM` (R132). -/
theorem permBits_getElem? (b : List Bool) (seed : Int) {p : Nat} (h : p < b.length) :
    (permBits b seed)[p]? = b[(p + shiftOf seed b.length) % b.length]? := by
  have hs := shiftOf_lt seed (show 0 < b.length by omega)
  unfold permBits
  generalize shiftOf seed b.length = m at hs ⊢
  by_cases hp : p < b.length - m
  · rw [List.getElem?_append_left (by simpa using hp), List.getElem?_drop, Nat.mod_eq_of_lt (by omega), Nat.add_comm]
  · rw [List.getElem?_append_right (by simp; omega), List.length_drop, List.getElem?_take, if_pos (by omega)]
    rw [Nat.mod_eq_sub_mod (by omega), Nat.mod_eq_of_lt (by omega)]
    congr 1; omega

/-- Rotating back restores the string (R133). -/
@[simp] theorem unpermBits_permBits (b : List Bool) (seed : Int) : unpermBits (permBits b seed) seed = b := by
  unfold unpermBits
  rw [permBits_length]
  unfold permBits
  rcases Nat.eq_zero_or_pos b.length with h | h
  · simp [List.length_eq_zero_iff.mp h]
  · have hs := shiftOf_lt seed h
    rw [List.drop_left' (by simp), List.take_left' (by simp), List.take_append_drop]

/-- Rotating forth restores the string (R133). -/
@[simp] theorem permBits_unpermBits (b : List Bool) (seed : Int) : permBits (unpermBits b seed) seed = b := by
  unfold permBits
  rw [unpermBits_length]
  unfold unpermBits
  rcases Nat.eq_zero_or_pos b.length with h | h
  · simp [List.length_eq_zero_iff.mp h]
  · have hs := shiftOf_lt seed h
    rw [List.drop_left' (by simp; omega), List.take_left' (by simp; omega), List.take_append_drop]

end Sys2Proof.Machine
end

