-- ==== Sys2Proof/Laws/PerInstr.lean ====
section
/-! SUPPORT. Facts about every instruction as syntax, one lemma per constructor. -/

namespace Sys2Proof.Laws.EncodedFields

/-- The two fields of an instruction's command word are its opcode and its argument (R70). -/
def Statement (i : Instr) : Prop := opOf (encode i) = opcode i ∧ argOf (encode i) = argument i

/-- The fields of a word put together from an opcode and an argument. -/
theorem fields_of_append (op : BitVec 8) (arg : Word) : opOf (op ++ arg) = op ∧ argOf (op ++ arg) = arg := by
  constructor
  · apply BitVec.eq_of_getLsbD_eq; intro k hk
    simp only [opOf, BitVec.getLsbD_extractLsb', BitVec.getLsbD_append]
    have : ¬ 32 + k < 32 := by omega
    simp [hk, this]
  · apply BitVec.eq_of_getLsbD_eq; intro k hk
    simp only [argOf, BitVec.getLsbD_extractLsb', BitVec.getLsbD_append]
    simp [hk]

theorem nop : Statement .nop := fields_of_append _ _
theorem rdreg (a : Word) : Statement (.rdreg a) := fields_of_append _ _
theorem sreset : Statement .sreset := fields_of_append _ _
theorem setseed (a : Word) : Statement (.setseed a) := fields_of_append _ _
theorem setolen (a : Word) : Statement (.setolen a) := fields_of_append _ _
theorem bclr (buf : Nat) : Statement (.bclr buf) := fields_of_append _ _
theorem bpush (buf d : Nat) : Statement (.bpush buf d) := fields_of_append _ _
theorem bread (buf d : Nat) : Statement (.bread buf d) := fields_of_append _ _
theorem btrunc (buf d : Nat) : Statement (.btrunc buf d) := fields_of_append _ _
theorem btrunco : Statement .btrunco := fields_of_append _ _
theorem bcEnc : Statement .bcEnc := fields_of_append _ _
theorem bcDec : Statement .bcDec := fields_of_append _ _
theorem scXor : Statement .scXor := fields_of_append _ _
theorem scPerm : Statement .scPerm := fields_of_append _ _
theorem scUnperm : Statement .scUnperm := fields_of_append _ _
theorem scEncrypt : Statement .scEncrypt := fields_of_append _ _
theorem scDecrypt : Statement .scDecrypt := fields_of_append _ _
theorem lcEnc : Statement .lcEnc := fields_of_append _ _
theorem lcDec : Statement .lcDec := fields_of_append _ _
theorem lcB2l (p : BitPair) : Statement (.lcB2l p) := fields_of_append _ _
theorem lcL2b (c : LevelCode) : Statement (.lcL2b c) := fields_of_append _ _
theorem ftOpen : Statement .ftOpen := fields_of_append _ _
theorem ftClose : Statement .ftClose := fields_of_append _ _
theorem ftWrite : Statement .ftWrite := fields_of_append _ _
theorem ftRead : Statement .ftRead := fields_of_append _ _
theorem msgPack (f : Bool) : Statement (.msgPack f) := fields_of_append _ _
theorem msgUnpack : Statement .msgUnpack := fields_of_append _ _

end Sys2Proof.Laws.EncodedFields
end

