-- ==== Sys2Proof/Laws/Decode.lean ====
section
/-! SUPPORT. A command word is its opcode and its argument, an argument of format B is its buffer id and its datum, and a
row of the opcode map covers a word by these two fields. -/

namespace Sys2Proof

/-! ## The two fields of a word (R70) -/

/-- A word is its two fields put together. -/
@[simp] theorem opOf_append_argOf (w : CmdWord) : opOf w ++ argOf w = w := by
  apply BitVec.eq_of_getLsbD_eq; intro k hk
  rw [BitVec.getLsbD_append]
  simp only [opOf, argOf, BitVec.getLsbD_extractLsb']
  by_cases h : k < 32
  · simp [h]
  · simp only [h, decide_false, if_false]
    have e : 32 + (k - 32) = k := by omega
    simp [e]; omega

@[simp] theorem opOf_append (op : BitVec 8) (arg : Word) : opOf (op ++ arg) = op :=
  (Laws.EncodedFields.fields_of_append op arg).1

@[simp] theorem argOf_append (op : BitVec 8) (arg : Word) : argOf (op ++ arg) = arg :=
  (Laws.EncodedFields.fields_of_append op arg).2

/-- Two words put together from fields are equal only when the fields are. -/
theorem append_inj {op op' : BitVec 8} {arg arg' : Word} (h : (op ++ arg : CmdWord) = op' ++ arg') :
    op = op' ∧ arg = arg' := by
  have h1 := congrArg opOf h
  have h2 := congrArg argOf h
  simp only [opOf_append, argOf_append] at h1 h2
  exact ⟨h1, h2⟩

/-- The decoder works on the fields. -/
theorem decode_append (op : BitVec 8) (arg : Word) : decode (op ++ arg) = decodeFields op arg := by
  rw [decode, opOf_append, argOf_append]

/-! ## The two fields of a format B argument (R72) -/

/-- An argument is its buffer id and its datum put together. -/
@[simp] theorem bufArg_fields (arg : Word) : bufArg (bufOf arg) (datumOf arg) = arg := by
  unfold bufArg bufOf datumOf
  apply BitVec.eq_of_getLsbD_eq; intro k hk
  rw [BitVec.getLsbD_append]
  simp only [BitVec.ofNat_toNat, BitVec.setWidth_eq, BitVec.getLsbD_extractLsb']
  by_cases h : k < 28
  · simp [h]
  · simp only [h, decide_false, if_false]
    have e : 28 + (k - 28) = k := by omega
    simp [e]; omega

theorem bufOf_bufArg {buf d : Nat} (h : buf < 2 ^ 4) : bufOf (bufArg buf d) = buf := by
  have e : (bufArg buf d).extractLsb' 28 4 = BitVec.ofNat 4 buf := by
    apply BitVec.eq_of_getLsbD_eq; intro k hk
    simp only [bufArg, BitVec.getLsbD_extractLsb', BitVec.getLsbD_append]
    have : ¬ 28 + k < 28 := by omega
    simp [hk, this]
  rw [bufOf, e, BitVec.toNat_ofNat, Nat.mod_eq_of_lt h]

theorem datumOf_bufArg {buf d : Nat} (h : d < 2 ^ 28) : datumOf (bufArg buf d) = d := by
  have e : (bufArg buf d).extractLsb' 0 28 = BitVec.ofNat 28 d := by
    apply BitVec.eq_of_getLsbD_eq; intro k hk
    simp only [bufArg, BitVec.getLsbD_extractLsb', BitVec.getLsbD_append]
    simp [hk]
  rw [datumOf, e, BitVec.toNat_ofNat, Nat.mod_eq_of_lt h]

/-! ## Rows of the opcode map (R74) -/

/-- Masking works field by field. -/
theorem and_append (op opMask : BitVec 8) (arg argMask : Word) :
    ((op ++ arg : CmdWord) &&& (opMask ++ argMask : CmdWord)) = (op &&& opMask) ++ (arg &&& argMask) := by
  apply BitVec.eq_of_getLsbD_eq; intro k hk
  simp only [BitVec.getLsbD_and, BitVec.getLsbD_append]
  split <;> rfl

/-- Every row masks the whole opcode, and its pattern has no argument bit. -/
theorem rows_fields : ∀ r ∈ opcodeMap, opOf r.mask = 0xFF ∧ argOf r.pattern = 0 := by decide

/-- A row covers the words with its opcode whose masked argument bits are zero. -/
theorem row_covers {w : CmdWord} {r : OpRow} (hr : r ∈ opcodeMap) :
    w &&& r.mask = r.pattern ↔ opOf w = opOf r.pattern ∧ argOf w &&& argOf r.mask = 0 := by
  obtain ⟨h1, h2⟩ := rows_fields r hr
  have ones : opOf w &&& 0xFF = opOf w := BitVec.and_allOnes
  conv => lhs; rw [← opOf_append_argOf w, ← opOf_append_argOf r.mask, ← opOf_append_argOf r.pattern, and_append, h1, h2, ones]
  exact ⟨append_inj, fun ⟨a, b⟩ => by rw [a, b]⟩

end Sys2Proof
end

