-- ==== Sys2Proof/Laws/Line.lean ====
section
/-! SUPPORT. Levels, lanes, symbol words and the line coder's functions: index forms, validity and inverses. -/

namespace Sys2Proof.Machine

/-! ## The level ROM (R31, R150) -/

@[simp] theorem bitpairOf_levelOf (p : BitPair) : bitpairOf (levelOf p) = some p := by revert p; decide

theorem levelOf_of_bitpairOf {c : LevelCode} {p : BitPair} (h : bitpairOf c = some p) : levelOf p = c := by
  revert c p; decide

/-- The valid codes are those with a bit pair (R77, R150). -/
theorem validLevel_eq (c : LevelCode) : validLevel c = (bitpairOf c).isSome := by revert c; decide

@[simp] theorem validLevel_levelOf (p : BitPair) : validLevel (levelOf p) = true := by revert p; decide

@[simp] theorem pairBits_pairOf (f t : Bool) : pairBits (pairOf f t) = [f, t] := by revert f t; decide

@[simp] theorem pairOf_pairBits (p : BitPair) : pairOf (p.getLsbD 1) (p.getLsbD 0) = p := by revert p; decide

/-! ## Lanes (R78) -/

theorem toNat_append {n m : Nat} (x : BitVec n) (y : BitVec m) : (x ++ y).toNat = x.toNat * 2 ^ m + y.toNat := by
  rw [BitVec.toNat_append, Nat.shiftLeft_eq, Nat.mul_comm]
  exact (Nat.two_pow_add_eq_or_of_lt y.isLt _).symm

theorem symOf_toNat (a b c d : LevelCode) :
    (symOf a b c d).toNat = a.toNat * 512 + b.toNat * 64 + c.toNat * 8 + d.toNat := by
  simp only [symOf, toNat_append]; omega

theorem lane_toNat (w : SymWord) (k : Nat) : (lane w k).toNat = w.toNat / 2 ^ (9 - 3 * k) % 8 := by
  simp [lane, BitVec.toNat_setWidth, BitVec.toNat_ushiftRight, Nat.shiftRight_eq_div_pow]

/-- The lanes of a word put together from four level codes. -/
@[simp] theorem lanesOf_symOf (a b c d : LevelCode) : lanesOf (symOf a b c d) = [a, b, c, d] := by
  have ha := a.isLt; have hb := b.isLt; have hc := c.isLt; have hd := d.isLt
  simp only [lanesOf, List.cons.injEq, and_true]
  refine ⟨?_, ?_, ?_, ?_⟩ <;> apply BitVec.eq_of_toNat_eq <;> rw [lane_toNat, symOf_toNat] <;> omega

/-- A word is its four lanes put together. -/
@[simp] theorem symOf_lanes (w : SymWord) : symOf (lane w 0) (lane w 1) (lane w 2) (lane w 3) = w := by
  apply BitVec.eq_of_toNat_eq
  have := w.isLt
  simp only [symOf_toNat, lane_toNat]; omega

@[simp] theorem allLanes_nil : allLanes [] = [] := rfl

@[simp] theorem allLanes_cons (w : SymWord) (ws : List SymWord) : allLanes (w :: ws) = lanesOf w ++ allLanes ws := rfl

/-- Lane `4j + k` in scan order is lane `k` of word `j` (R155). -/
theorem allLanes_getElem? (ws : List SymWord) {j k : Nat} (hj : j < ws.length) (hk : k < 4) :
    (allLanes ws)[4 * j + k]? = some (lane (ws.getD j 0) k) := by
  induction ws generalizing j with
  | nil => simp at hj
  | cons w ws ih =>
    rcases j with _ | j
    · obtain rfl | rfl | rfl | rfl : k = 0 ∨ k = 1 ∨ k = 2 ∨ k = 3 := by omega
      all_goals rfl
    · have e : 4 * (j + 1) + k = (lanesOf w).length + (4 * j + k) := by simp [lanesOf]; omega
      rw [allLanes_cons, e, List.getElem?_append_right (by omega), Nat.add_sub_cancel_left,
        ih (by simpa using hj)]
      simp

@[simp] theorem allLanes_length (ws : List SymWord) : (allLanes ws).length = 4 * ws.length := by
  induction ws with
  | nil => rfl
  | cons w ws ih => simp [lanesOf, ih]; omega

/-! ## The scan of LC.DEC (R155) -/

/-- The scan finds nothing exactly when every lane is valid. -/
theorem firstInvalidFrom_eq_none {pos : Nat} {cs : List LevelCode} :
    firstInvalidFrom pos cs = none ↔ ∀ c ∈ cs, validLevel c = true := by
  induction cs generalizing pos with
  | nil => simp [firstInvalidFrom]
  | cons c cs ih =>
    by_cases h : validLevel c = true <;> simp [firstInvalidFrom, h, ih]

/-- The scan finds the first invalid lane, with its position. -/
theorem firstInvalidFrom_eq_some {pos i : Nat} {cs : List LevelCode} {c : LevelCode} (hc : cs[i]? = some c)
    (hbad : validLevel c = false) (hbefore : ∀ i', i' < i → ∀ c', cs[i']? = some c' → validLevel c' = true) :
    firstInvalidFrom pos cs = some (pos + i, c) := by
  induction cs generalizing pos i with
  | nil => simp at hc
  | cons d cs ih =>
    rcases i with _ | i
    · simp only [List.getElem?_cons_zero, Option.some.injEq] at hc
      simp [firstInvalidFrom, hc, hbad]
    · have hd : validLevel d = true := hbefore 0 (by omega) d rfl
      rw [firstInvalidFrom, if_pos hd, ih (i := i) (by simpa using hc)
        (fun i' h' c' hc' => hbefore (i' + 1) (by omega) c' (by simpa using hc'))]
      congr 2; omega

/-! ## The line coder's functions (R151 to R153) -/

theorem padCount_spec (n : Nat) : (n + padCount n) % 8 = 0 ∧ (n + padCount n) / 8 = (n + 7) / 8 := by
  unfold padCount; omega

/-- One word per block (R151). -/
theorem symbolBlocks_length (b : List Bool) (h : b.length % 8 = 0) : (symbolBlocks b).length = b.length / 8 := by
  induction hn : b.length using Nat.strongRecOn generalizing b with
  | _ n ih =>
    obtain rfl | ⟨b0, b1, b2, b3, b4, b5, b6, b7, rest, rfl, hr⟩ := eight_cases h
    · simp at hn; simp [symbolBlocks, ← hn]
    · have := ih rest.length (by simp only [List.length_cons] at hn; omega) rest hr rfl
      simp only [symbolBlocks, List.length_cons] at hn ⊢
      omega

/-- The lanes of the words of a bit string are the levels of its pairs, in order (R151). -/
theorem allLanes_symbolBlocks (b : List Bool) (h : b.length % 8 = 0) {p : Nat} (hp : 2 * p < b.length) :
    (allLanes (symbolBlocks b))[p]? = some (levelOf (pairOf (b.getD (2 * p) false) (b.getD (2 * p + 1) false))) := by
  induction hn : b.length using Nat.strongRecOn generalizing b p with
  | _ n ih =>
    obtain rfl | ⟨b0, b1, b2, b3, b4, b5, b6, b7, rest, rfl, hr⟩ := eight_cases h
    · simp at hp
    · simp only [symbolBlocks, allLanes_cons, lanesOf_symOf]
      by_cases h4 : p < 4
      · obtain rfl | rfl | rfl | rfl : p = 0 ∨ p = 1 ∨ p = 2 ∨ p = 3 := by omega
        all_goals rfl
      · obtain ⟨q, rfl⟩ := Nat.exists_eq_add_of_le (Nat.le_of_not_lt h4)
        have hq : 2 * q < rest.length := by simp only [List.length_cons] at hp; omega
        have := ih rest.length (by simp only [List.length_cons] at hn; omega) rest hr hq rfl
        rw [List.getElem?_append_right (by simp)]
        simp only [List.length_cons, List.length_nil, Nat.zero_add, Nat.reduceAdd, Nat.add_sub_cancel_left, this]
        have e1 : 2 * (4 + q) = 2 * q + 8 := by omega
        simp [e1]

/-- Decoding the words of a bit string gives it back (R153). -/
theorem lcDecode_symbolBlocks (b : List Bool) (h : b.length % 8 = 0) : lcDecode (symbolBlocks b) = b := by
  induction hn : b.length using Nat.strongRecOn generalizing b with
  | _ n ih =>
    obtain rfl | ⟨b0, b1, b2, b3, b4, b5, b6, b7, rest, rfl, hr⟩ := eight_cases h
    · rfl
    · have := ih rest.length (by simp only [List.length_cons] at hn; omega) rest hr rfl
      simp only [lcDecode] at this
      simp [symbolBlocks, lcDecode, this]

/-- Every lane of the words of a bit string is valid (R151). -/
theorem allLanes_symbolBlocks_valid (b : List Bool) : ∀ c ∈ allLanes (symbolBlocks b), validLevel c = true := by
  induction b using symbolBlocks.induct with
  | case1 b0 b1 b2 b3 b4 b5 b6 b7 rest ih =>
    intro c hc
    simp only [symbolBlocks, allLanes_cons, lanesOf_symOf, List.mem_append, List.mem_cons, List.not_mem_nil,
      or_false] at hc
    rcases hc with (rfl | rfl | rfl | rfl) | hc
    · simp
    · simp
    · simp
    · simp
    · exact ih c hc
  | case2 b hb =>
    intro c hc
    rw [symbolBlocks] at hc
    · simp at hc
    · exact hb

/-- LC.ENC's function: its length, `ceil(n / 8)` (R151). -/
theorem lcEncode_length (b : List Bool) : (lcEncode b).length = (b.length + 7) / 8 := by
  have := padCount_spec b.length
  rw [lcEncode, symbolBlocks_length _ (by simpa using this.1)]
  simpa using this.2

theorem lcEncode_valid (b : List Bool) : ∀ c ∈ allLanes (lcEncode b), validLevel c = true :=
  allLanes_symbolBlocks_valid _

/-- Encoding then decoding pads on the right with zero bits (R153). -/
theorem lcDecode_lcEncode (b : List Bool) :
    lcDecode (lcEncode b) = b ++ List.replicate (padCount b.length) false := by
  have := padCount_spec b.length
  exact lcDecode_symbolBlocks _ (by simpa using this.1)

/-- The length of a decoded sequence whose lanes are valid (R152). -/
theorem lcDecode_length (ws : List SymWord) (h : ∀ c ∈ allLanes ws, validLevel c = true) :
    (lcDecode ws).length = 8 * ws.length := by
  have key : ∀ cs : List LevelCode, (∀ c ∈ cs, validLevel c = true) →
      (cs.flatMap fun c => ((bitpairOf c).map pairBits).getD []).length = 2 * cs.length := by
    intro cs hcs
    induction cs with
    | nil => rfl
    | cons c cs ih =>
      have hc := hcs c (by simp)
      rw [validLevel_eq, Option.isSome_iff_exists] at hc
      obtain ⟨p, hp⟩ := hc
      simp [hp, pairBits, ih fun d hd => hcs d (by simp [hd])]; omega
  rw [lcDecode, key _ h, allLanes_length]; omega

/-- Index form of `LCdec`: the pair of lane `p` in scan order is at `2p` and `2p + 1` (R152). -/
theorem lcDecode_getElem? {ws : List SymWord} (h : ∀ c ∈ allLanes ws, validLevel c = true) {p : Nat} {c : LevelCode}
    {q : BitPair} (hc : (allLanes ws)[p]? = some c) (hq : bitpairOf c = some q) :
    (lcDecode ws)[2 * p]? = some (q.getLsbD 1) ∧ (lcDecode ws)[2 * p + 1]? = some (q.getLsbD 0) := by
  rw [lcDecode]
  generalize allLanes ws = cs at h hc
  induction cs generalizing p with
  | nil => simp at hc
  | cons d cs ih =>
    have hd := h d (by simp)
    rw [validLevel_eq, Option.isSome_iff_exists] at hd
    obtain ⟨r, hr⟩ := hd
    rcases p with _ | p
    · simp only [List.getElem?_cons_zero, Option.some.injEq] at hc
      subst hc
      obtain rfl : r = q := by simpa [hr] using hq
      simp [hr, pairBits]
    · have := ih (p := p) (fun c hc => h c (by simp [hc])) (by simpa using hc)
      have e1 : 2 * (p + 1) = 2 * p + 2 := by omega
      have e2 : 2 * p + 2 + 1 = (2 * p + 1) + 2 := by omega
      simp only [List.flatMap_cons, hr, Option.map_some, Option.getD_some, pairBits, e1, e2, List.cons_append,
        List.nil_append, List.getElem?_cons_succ]
      exact this

/-- Decoding then encoding restores a sequence whose lanes are valid (R153). -/
theorem lcEncode_lcDecode (ws : List SymWord) (h : ∀ c ∈ allLanes ws, validLevel c = true) :
    lcEncode (lcDecode ws) = ws := by
  have hpad : padCount (lcDecode ws).length = 0 := by
    rw [lcDecode_length ws h]; unfold padCount; omega
  rw [lcEncode, hpad, List.replicate_zero, List.append_nil]
  clear hpad
  induction ws with
  | nil => rfl
  | cons w ws ih =>
    have hw := ih fun c hc => h c (by simp [hc])
    have hl : ∀ k, k < 4 → ∃ p, bitpairOf (lane w k) = some p := by
      intro k hk
      rw [← Option.isSome_iff_exists, ← validLevel_eq]
      apply h
      obtain rfl | rfl | rfl | rfl : k = 0 ∨ k = 1 ∨ k = 2 ∨ k = 3 := by omega
      all_goals simp [lanesOf]
    obtain ⟨p0, h0⟩ := hl 0 (by omega)
    obtain ⟨p1, h1⟩ := hl 1 (by omega)
    obtain ⟨p2, h2⟩ := hl 2 (by omega)
    obtain ⟨p3, h3⟩ := hl 3 (by omega)
    simp only [lcDecode] at hw
    simp only [lcDecode, allLanes_cons, lanesOf, List.flatMap_cons, h0, h1, h2,
      h3, Option.map_some, Option.getD_some, pairBits, List.cons_append, List.nil_append, symbolBlocks,
      pairOf_pairBits, hw, levelOf_of_bitpairOf h0, levelOf_of_bitpairOf h1, levelOf_of_bitpairOf h2,
      levelOf_of_bitpairOf h3, symOf_lanes]

end Sys2Proof.Machine
end

