-- ==== Sys2Proof/Laws/State.lean ====
section
/-! SUPPORT. What each shared update leaves in each field of the state, one simp lemma per field per update, so that no
proof unfolds a record update. -/

namespace Sys2Proof.Machine

/-! ## Completing a command -/

@[simp] theorem respond_params (st : BitVec 8) (v : Word) (s : State) : (respond st v s).params = s.params := rfl
@[simp] theorem respond_txt (st : BitVec 8) (v : Word) (s : State) : (respond st v s).txt = s.txt := rfl
@[simp] theorem respond_key (st : BitVec 8) (v : Word) (s : State) : (respond st v s).key = s.key := rfl
@[simp] theorem respond_bit (st : BitVec 8) (v : Word) (s : State) : (respond st v s).bit = s.bit := rfl
@[simp] theorem respond_sym (st : BitVec 8) (v : Word) (s : State) : (respond st v s).sym = s.sym := rfl
@[simp] theorem respond_pay (st : BitVec 8) (v : Word) (s : State) : (respond st v s).pay = s.pay := rfl
@[simp] theorem respond_seed (st : BitVec 8) (v : Word) (s : State) : (respond st v s).seed = s.seed := rfl
@[simp] theorem respond_olen (st : BitVec 8) (v : Word) (s : State) : (respond st v s).olen = s.olen := rfl
@[simp] theorem respond_fault (st : BitVec 8) (v : Word) (s : State) : (respond st v s).fault = s.fault := rfl
@[simp] theorem respond_finfo (st : BitVec 8) (v : Word) (s : State) : (respond st v s).finfo = s.finfo := rfl
@[simp] theorem respond_terr (st : BitVec 8) (v : Word) (s : State) : (respond st v s).terr = s.terr := rfl
@[simp] theorem respond_status (st : BitVec 8) (v : Word) (s : State) : (respond st v s).status = s.status := rfl
@[simp] theorem respond_rxlen (st : BitVec 8) (v : Word) (s : State) : (respond st v s).rxlen = s.rxlen := rfl
@[simp] theorem respond_rxcnt (st : BitVec 8) (v : Word) (s : State) : (respond st v s).rxcnt = s.rxcnt := rfl
@[simp] theorem respond_rxfifo (st : BitVec 8) (v : Word) (s : State) : (respond st v s).rxfifo = s.rxfifo := rfl
@[simp] theorem respond_rxeof (st : BitVec 8) (v : Word) (s : State) : (respond st v s).rxeof = s.rxeof := rfl
@[simp] theorem respond_txout (st : BitVec 8) (v : Word) (s : State) : (respond st v s).txout = s.txout := rfl
@[simp] theorem respond_held (st : BitVec 8) (v : Word) (s : State) : (respond st v s).held = false := rfl
@[simp] theorem respond_inputs (st : BitVec 8) (v : Word) (s : State) : (respond st v s).inputs = s.inputs := rfl
@[simp] theorem respond_responses (st : BitVec 8) (v : Word) (s : State) : (respond st v s).responses = s.responses ++ [{ status := st, value := v }] := rfl
@[simp] theorem respond_openDraws (st : BitVec 8) (v : Word) (s : State) : (respond st v s).openDraws = s.openDraws := rfl
@[simp] theorem respond_writeDraws (st : BitVec 8) (v : Word) (s : State) : (respond st v s).writeDraws = s.writeDraws := rfl
@[simp] theorem respond_drawCount (st : BitVec 8) (v : Word) (s : State) : (respond st v s).drawCount = s.drawCount := rfl

/-! ## Taking a fatal fault -/

@[simp] theorem raiseFatal_params (c : FatalCode) (info : Word) (s : State) : (raiseFatal c info s).params = s.params := rfl
@[simp] theorem raiseFatal_txt (c : FatalCode) (info : Word) (s : State) : (raiseFatal c info s).txt = s.txt := rfl
@[simp] theorem raiseFatal_key (c : FatalCode) (info : Word) (s : State) : (raiseFatal c info s).key = s.key := rfl
@[simp] theorem raiseFatal_bit (c : FatalCode) (info : Word) (s : State) : (raiseFatal c info s).bit = s.bit := rfl
@[simp] theorem raiseFatal_sym (c : FatalCode) (info : Word) (s : State) : (raiseFatal c info s).sym = s.sym := rfl
@[simp] theorem raiseFatal_pay (c : FatalCode) (info : Word) (s : State) : (raiseFatal c info s).pay = s.pay := rfl
@[simp] theorem raiseFatal_seed (c : FatalCode) (info : Word) (s : State) : (raiseFatal c info s).seed = s.seed := rfl
@[simp] theorem raiseFatal_olen (c : FatalCode) (info : Word) (s : State) : (raiseFatal c info s).olen = s.olen := rfl
@[simp] theorem raiseFatal_fault (c : FatalCode) (info : Word) (s : State) : (raiseFatal c info s).fault = c.code.setWidth 32 := rfl
@[simp] theorem raiseFatal_finfo (c : FatalCode) (info : Word) (s : State) : (raiseFatal c info s).finfo = info := rfl
@[simp] theorem raiseFatal_terr (c : FatalCode) (info : Word) (s : State) : (raiseFatal c info s).terr = s.terr := rfl
@[simp] theorem raiseFatal_status (c : FatalCode) (info : Word) (s : State) : (raiseFatal c info s).status = s.status := rfl
@[simp] theorem raiseFatal_rxlen (c : FatalCode) (info : Word) (s : State) : (raiseFatal c info s).rxlen = s.rxlen := rfl
@[simp] theorem raiseFatal_rxcnt (c : FatalCode) (info : Word) (s : State) : (raiseFatal c info s).rxcnt = s.rxcnt := rfl
@[simp] theorem raiseFatal_rxfifo (c : FatalCode) (info : Word) (s : State) : (raiseFatal c info s).rxfifo = s.rxfifo := rfl
@[simp] theorem raiseFatal_rxeof (c : FatalCode) (info : Word) (s : State) : (raiseFatal c info s).rxeof = s.rxeof := rfl
@[simp] theorem raiseFatal_txout (c : FatalCode) (info : Word) (s : State) : (raiseFatal c info s).txout = s.txout := rfl
@[simp] theorem raiseFatal_held (c : FatalCode) (info : Word) (s : State) : (raiseFatal c info s).held = false := rfl
@[simp] theorem raiseFatal_inputs (c : FatalCode) (info : Word) (s : State) : (raiseFatal c info s).inputs = s.inputs := rfl
@[simp] theorem raiseFatal_responses (c : FatalCode) (info : Word) (s : State) : (raiseFatal c info s).responses = s.responses ++ [{ status := c.code, value := info }] := rfl
@[simp] theorem raiseFatal_openDraws (c : FatalCode) (info : Word) (s : State) : (raiseFatal c info s).openDraws = s.openDraws := rfl
@[simp] theorem raiseFatal_writeDraws (c : FatalCode) (info : Word) (s : State) : (raiseFatal c info s).writeDraws = s.writeDraws := rfl
@[simp] theorem raiseFatal_drawCount (c : FatalCode) (info : Word) (s : State) : (raiseFatal c info s).drawCount = s.drawCount := rfl

/-! ## Raising a transport-class error -/

@[simp] theorem raiseTransport_params (c : TransportCode) (s : State) : (raiseTransport c s).params = s.params := rfl
@[simp] theorem raiseTransport_txt (c : TransportCode) (s : State) : (raiseTransport c s).txt = s.txt := rfl
@[simp] theorem raiseTransport_key (c : TransportCode) (s : State) : (raiseTransport c s).key = s.key := rfl
@[simp] theorem raiseTransport_bit (c : TransportCode) (s : State) : (raiseTransport c s).bit = s.bit := rfl
@[simp] theorem raiseTransport_sym (c : TransportCode) (s : State) : (raiseTransport c s).sym = s.sym := rfl
@[simp] theorem raiseTransport_pay (c : TransportCode) (s : State) : (raiseTransport c s).pay = s.pay := rfl
@[simp] theorem raiseTransport_seed (c : TransportCode) (s : State) : (raiseTransport c s).seed = s.seed := rfl
@[simp] theorem raiseTransport_olen (c : TransportCode) (s : State) : (raiseTransport c s).olen = s.olen := rfl
@[simp] theorem raiseTransport_fault (c : TransportCode) (s : State) : (raiseTransport c s).fault = s.fault := rfl
@[simp] theorem raiseTransport_finfo (c : TransportCode) (s : State) : (raiseTransport c s).finfo = s.finfo := rfl
@[simp] theorem raiseTransport_terr (c : TransportCode) (s : State) : (raiseTransport c s).terr = c.code.setWidth 32 := rfl
@[simp] theorem raiseTransport_status (c : TransportCode) (s : State) : (raiseTransport c s).status = s.status := rfl
@[simp] theorem raiseTransport_rxlen (c : TransportCode) (s : State) : (raiseTransport c s).rxlen = s.rxlen := rfl
@[simp] theorem raiseTransport_rxcnt (c : TransportCode) (s : State) : (raiseTransport c s).rxcnt = s.rxcnt := rfl
@[simp] theorem raiseTransport_rxfifo (c : TransportCode) (s : State) : (raiseTransport c s).rxfifo = s.rxfifo := rfl
@[simp] theorem raiseTransport_rxeof (c : TransportCode) (s : State) : (raiseTransport c s).rxeof = s.rxeof := rfl
@[simp] theorem raiseTransport_txout (c : TransportCode) (s : State) : (raiseTransport c s).txout = s.txout := rfl
@[simp] theorem raiseTransport_held (c : TransportCode) (s : State) : (raiseTransport c s).held = false := rfl
@[simp] theorem raiseTransport_inputs (c : TransportCode) (s : State) : (raiseTransport c s).inputs = s.inputs := rfl
@[simp] theorem raiseTransport_responses (c : TransportCode) (s : State) : (raiseTransport c s).responses = s.responses ++ [{ status := c.code, value := 0 }] := rfl
@[simp] theorem raiseTransport_openDraws (c : TransportCode) (s : State) : (raiseTransport c s).openDraws = s.openDraws := rfl
@[simp] theorem raiseTransport_writeDraws (c : TransportCode) (s : State) : (raiseTransport c s).writeDraws = s.writeDraws := rfl
@[simp] theorem raiseTransport_drawCount (c : TransportCode) (s : State) : (raiseTransport c s).drawCount = s.drawCount := rfl

/-! ## Reset -/

@[simp] theorem resetState_params (s : State) : (resetState s).params = s.params := rfl
@[simp] theorem resetState_txt (s : State) : (resetState s).txt = [] := rfl
@[simp] theorem resetState_key (s : State) : (resetState s).key = [] := rfl
@[simp] theorem resetState_bit (s : State) : (resetState s).bit = [] := rfl
@[simp] theorem resetState_sym (s : State) : (resetState s).sym = [] := rfl
@[simp] theorem resetState_pay (s : State) : (resetState s).pay = [] := rfl
@[simp] theorem resetState_seed (s : State) : (resetState s).seed = 0 := rfl
@[simp] theorem resetState_olen (s : State) : (resetState s).olen = 0 := rfl
@[simp] theorem resetState_fault (s : State) : (resetState s).fault = 0 := rfl
@[simp] theorem resetState_finfo (s : State) : (resetState s).finfo = 0 := rfl
@[simp] theorem resetState_terr (s : State) : (resetState s).terr = 0 := rfl
@[simp] theorem resetState_status (s : State) : (resetState s).status = Status.clear := rfl
@[simp] theorem resetState_rxlen (s : State) : (resetState s).rxlen = 0 := rfl
@[simp] theorem resetState_rxcnt (s : State) : (resetState s).rxcnt = 0 := rfl
@[simp] theorem resetState_rxfifo (s : State) : (resetState s).rxfifo = [] := rfl
@[simp] theorem resetState_rxeof (s : State) : (resetState s).rxeof = false := rfl
@[simp] theorem resetState_txout (s : State) : (resetState s).txout = s.txout := rfl
@[simp] theorem resetState_held (s : State) : (resetState s).held = false := rfl
@[simp] theorem resetState_inputs (s : State) : (resetState s).inputs = s.inputs := rfl
@[simp] theorem resetState_responses (s : State) : (resetState s).responses = s.responses := rfl
@[simp] theorem resetState_openDraws (s : State) : (resetState s).openDraws = s.openDraws := rfl
@[simp] theorem resetState_writeDraws (s : State) : (resetState s).writeDraws = s.writeDraws := rfl
@[simp] theorem resetState_drawCount (s : State) : (resetState s).drawCount = s.drawCount := rfl

/-! ## Dropping the link -/

@[simp] theorem dropLink_params (s : State) : (dropLink s).params = s.params := rfl
@[simp] theorem dropLink_txt (s : State) : (dropLink s).txt = s.txt := rfl
@[simp] theorem dropLink_key (s : State) : (dropLink s).key = s.key := rfl
@[simp] theorem dropLink_bit (s : State) : (dropLink s).bit = s.bit := rfl
@[simp] theorem dropLink_sym (s : State) : (dropLink s).sym = s.sym := rfl
@[simp] theorem dropLink_pay (s : State) : (dropLink s).pay = s.pay := rfl
@[simp] theorem dropLink_seed (s : State) : (dropLink s).seed = s.seed := rfl
@[simp] theorem dropLink_olen (s : State) : (dropLink s).olen = s.olen := rfl
@[simp] theorem dropLink_fault (s : State) : (dropLink s).fault = s.fault := rfl
@[simp] theorem dropLink_finfo (s : State) : (dropLink s).finfo = s.finfo := rfl
@[simp] theorem dropLink_terr (s : State) : (dropLink s).terr = s.terr := rfl
@[simp] theorem dropLink_status (s : State) : (dropLink s).status = { s.status with linkup := false } := rfl
@[simp] theorem dropLink_rxlen (s : State) : (dropLink s).rxlen = s.rxlen := rfl
@[simp] theorem dropLink_rxcnt (s : State) : (dropLink s).rxcnt = s.rxcnt := rfl
@[simp] theorem dropLink_rxfifo (s : State) : (dropLink s).rxfifo = [] := rfl
@[simp] theorem dropLink_rxeof (s : State) : (dropLink s).rxeof = false := rfl
@[simp] theorem dropLink_txout (s : State) : (dropLink s).txout = s.txout := rfl
@[simp] theorem dropLink_held (s : State) : (dropLink s).held = s.held := rfl
@[simp] theorem dropLink_inputs (s : State) : (dropLink s).inputs = s.inputs := rfl
@[simp] theorem dropLink_responses (s : State) : (dropLink s).responses = s.responses := rfl
@[simp] theorem dropLink_openDraws (s : State) : (dropLink s).openDraws = s.openDraws := rfl
@[simp] theorem dropLink_writeDraws (s : State) : (dropLink s).writeDraws = s.writeDraws := rfl
@[simp] theorem dropLink_drawCount (s : State) : (dropLink s).drawCount = s.drawCount := rfl

/-! ## The draw of FT.OPEN -/

@[simp] theorem passOpenDraw_params (s : State) : (passOpenDraw s).params = s.params := rfl
@[simp] theorem passOpenDraw_txt (s : State) : (passOpenDraw s).txt = s.txt := rfl
@[simp] theorem passOpenDraw_key (s : State) : (passOpenDraw s).key = s.key := rfl
@[simp] theorem passOpenDraw_bit (s : State) : (passOpenDraw s).bit = s.bit := rfl
@[simp] theorem passOpenDraw_sym (s : State) : (passOpenDraw s).sym = s.sym := rfl
@[simp] theorem passOpenDraw_pay (s : State) : (passOpenDraw s).pay = s.pay := rfl
@[simp] theorem passOpenDraw_seed (s : State) : (passOpenDraw s).seed = s.seed := rfl
@[simp] theorem passOpenDraw_olen (s : State) : (passOpenDraw s).olen = s.olen := rfl
@[simp] theorem passOpenDraw_fault (s : State) : (passOpenDraw s).fault = s.fault := rfl
@[simp] theorem passOpenDraw_finfo (s : State) : (passOpenDraw s).finfo = s.finfo := rfl
@[simp] theorem passOpenDraw_terr (s : State) : (passOpenDraw s).terr = s.terr := rfl
@[simp] theorem passOpenDraw_status (s : State) : (passOpenDraw s).status = s.status := rfl
@[simp] theorem passOpenDraw_rxlen (s : State) : (passOpenDraw s).rxlen = s.rxlen := rfl
@[simp] theorem passOpenDraw_rxcnt (s : State) : (passOpenDraw s).rxcnt = s.rxcnt := rfl
@[simp] theorem passOpenDraw_rxfifo (s : State) : (passOpenDraw s).rxfifo = s.rxfifo := rfl
@[simp] theorem passOpenDraw_rxeof (s : State) : (passOpenDraw s).rxeof = s.rxeof := rfl
@[simp] theorem passOpenDraw_txout (s : State) : (passOpenDraw s).txout = s.txout := rfl
@[simp] theorem passOpenDraw_held (s : State) : (passOpenDraw s).held = s.held := rfl
@[simp] theorem passOpenDraw_inputs (s : State) : (passOpenDraw s).inputs = s.inputs := rfl
@[simp] theorem passOpenDraw_responses (s : State) : (passOpenDraw s).responses = s.responses := rfl
@[simp] theorem passOpenDraw_openDraws (s : State) : (passOpenDraw s).openDraws = s.openDraws.tail := rfl
@[simp] theorem passOpenDraw_writeDraws (s : State) : (passOpenDraw s).writeDraws = s.writeDraws := rfl
@[simp] theorem passOpenDraw_drawCount (s : State) : (passOpenDraw s).drawCount = s.drawCount + 1 := rfl

/-! ## The draw of FT.WRITE -/

@[simp] theorem passWriteDraw_params (s : State) : (passWriteDraw s).params = s.params := rfl
@[simp] theorem passWriteDraw_txt (s : State) : (passWriteDraw s).txt = s.txt := rfl
@[simp] theorem passWriteDraw_key (s : State) : (passWriteDraw s).key = s.key := rfl
@[simp] theorem passWriteDraw_bit (s : State) : (passWriteDraw s).bit = s.bit := rfl
@[simp] theorem passWriteDraw_sym (s : State) : (passWriteDraw s).sym = s.sym := rfl
@[simp] theorem passWriteDraw_pay (s : State) : (passWriteDraw s).pay = s.pay := rfl
@[simp] theorem passWriteDraw_seed (s : State) : (passWriteDraw s).seed = s.seed := rfl
@[simp] theorem passWriteDraw_olen (s : State) : (passWriteDraw s).olen = s.olen := rfl
@[simp] theorem passWriteDraw_fault (s : State) : (passWriteDraw s).fault = s.fault := rfl
@[simp] theorem passWriteDraw_finfo (s : State) : (passWriteDraw s).finfo = s.finfo := rfl
@[simp] theorem passWriteDraw_terr (s : State) : (passWriteDraw s).terr = s.terr := rfl
@[simp] theorem passWriteDraw_status (s : State) : (passWriteDraw s).status = s.status := rfl
@[simp] theorem passWriteDraw_rxlen (s : State) : (passWriteDraw s).rxlen = s.rxlen := rfl
@[simp] theorem passWriteDraw_rxcnt (s : State) : (passWriteDraw s).rxcnt = s.rxcnt := rfl
@[simp] theorem passWriteDraw_rxfifo (s : State) : (passWriteDraw s).rxfifo = s.rxfifo := rfl
@[simp] theorem passWriteDraw_rxeof (s : State) : (passWriteDraw s).rxeof = s.rxeof := rfl
@[simp] theorem passWriteDraw_txout (s : State) : (passWriteDraw s).txout = s.txout := rfl
@[simp] theorem passWriteDraw_held (s : State) : (passWriteDraw s).held = s.held := rfl
@[simp] theorem passWriteDraw_inputs (s : State) : (passWriteDraw s).inputs = s.inputs := rfl
@[simp] theorem passWriteDraw_responses (s : State) : (passWriteDraw s).responses = s.responses := rfl
@[simp] theorem passWriteDraw_openDraws (s : State) : (passWriteDraw s).openDraws = s.openDraws := rfl
@[simp] theorem passWriteDraw_writeDraws (s : State) : (passWriteDraw s).writeDraws = s.writeDraws.tail := rfl
@[simp] theorem passWriteDraw_drawCount (s : State) : (passWriteDraw s).drawCount = s.drawCount + 1 := rfl

/-! ## The two names for an answer -/

@[simp] theorem respondOk_eq (v : Word) (s : State) : respondOk v s = respond 0x00 v s := rfl

@[simp] theorem refuseFaulted_eq (s : State) : refuseFaulted s = respond 0x0F s.fault s := rfl

end Sys2Proof.Machine
end

