-- ==== Sys2Proof/Laws/Ops.lean ====
section
/-! SUPPORT. One lemma per shared operation that says once what it can do, and the inversion lemma of the step. -/

namespace Sys2Proof.Machine

/-! ## The mode check -/

theorem inRunMode_run {s b : State} (h : s.fault = 0) : inRunMode s b = b := by simp [inRunMode, h]

theorem inRunMode_faulted {s b : State} (h : s.fault ≠ 0) : inRunMode s b = respond 0x0F s.fault s := by
  unfold inRunMode; rw [if_neg h]; rfl

/-- A command that RUN mode alone accepts does its body there, and answers Faulted otherwise (R100, R206). -/
theorem inRunMode_cases (s b : State) :
    (s.fault = 0 ∧ inRunMode s b = b) ∨ (s.fault ≠ 0 ∧ inRunMode s b = respond 0x0F s.fault s) := by
  by_cases h : s.fault = 0
  · exact .inl ⟨h, inRunMode_run h⟩
  · exact .inr ⟨h, inRunMode_faulted h⟩

/-- In RUN mode a meaning answers its body (R100). -/
theorem next_inRunMode {s b : State} (h : s.fault = 0) : (.next (inRunMode s b) : Result) = .next b := by
  rw [inRunMode_run h]

/-! ## Buffer ids and lengths -/

@[simp] theorem bufOfId_bufId (b : Buf) : bufOfId (bufId b) = some b := by cases b <;> rfl

/-- An id names a buffer exactly when it is that buffer's (R79). -/
theorem bufOfId_eq_some {buf : Nat} {b : Buf} : bufOfId buf = some b ↔ buf = bufId b := by
  constructor
  · unfold bufOfId; split <;> rintro h <;> cases h <;> rfl
  · rintro rfl; exact bufOfId_bufId b

/-- Ids above 4 are reserved (R79). -/
theorem bufOfId_reserved {buf : Nat} (h : 4 < buf) : bufOfId buf = none := by
  unfold bufOfId; split <;> first | rfl | omega

theorem isSome_getElem? {α : Type} (l : List α) (i : Nat) : l[i]?.isSome = true ↔ i < l.length := by
  rcases h : l[i]? with _ | x
  · simpa using List.getElem?_eq_none_iff.mp h
  · simpa using (List.getElem?_eq_some_iff.mp h).1

/-- Below the length an element is there to read, from the length on there is none (R50). -/
theorem readElem_isSome (s : State) (b : Buf) (i : Nat) : (readElem s b i).isSome = true ↔ i < lenOf s b := by
  cases b <;> simp only [readElem, lenOf, Option.isSome_map, isSome_getElem?]

theorem readElem_eq_none {s : State} {b : Buf} {i : Nat} (h : lenOf s b ≤ i) : readElem s b i = none := by
  have := readElem_isSome s b i
  rcases hr : readElem s b i with _ | x
  · rfl
  · simp only [hr, Option.isSome_some, true_iff] at this; omega

/-! ## Writing buffers -/

/-- A push changes the five buffers only. -/
theorem pushElem_frame (b : Buf) (d : Nat) (s : State) :
    pushElem b d s = { s with
      txt := (pushElem b d s).txt, key := (pushElem b d s).key, bit := (pushElem b d s).bit
      sym := (pushElem b d s).sym, pay := (pushElem b d s).pay } := by
  cases b <;> rfl

/-- A push makes its buffer one longer and leaves the other lengths (R106). -/
theorem lenOf_pushElem (b b' : Buf) (d : Nat) (s : State) :
    lenOf (pushElem b d s) b' = if b' = b then lenOf s b + 1 else lenOf s b' := by
  cases b <;> cases b' <;> simp [pushElem, lenOf]

/-- An element of a width is the same number as a register word. -/
theorem setWidth_ofNat_of_lt {w : Nat} (n : Nat) (hn : n < 2 ^ w) : (BitVec.ofNat w n).setWidth 32 = BitVec.ofNat 32 n := by
    apply BitVec.eq_of_toNat_eq
    simp only [BitVec.toNat_setWidth, BitVec.toNat_ofNat]
    rw [Nat.mod_eq_of_lt hn]

/-- A list with one more element. -/
theorem getElem?_concat {α : Type} (l : List α) (x : α) (i : Nat) : (l ++ [x])[i]? = if i = l.length then some x else l[i]? := by
  rcases Nat.lt_trichotomy i l.length with h | h | h
  · simp [List.getElem?_append_left h, Nat.ne_of_lt h]
  · subst h; simp
  · rw [if_neg (by omega), List.getElem?_eq_none (by simp; omega), List.getElem?_eq_none (by omega)]

/-- What a push leaves at each address: the datum at (buffer, old length), every other element as it was (R106). -/
theorem readElem_pushElem (b b' : Buf) (d i : Nat) (s : State) (h : d ≤ wmaxOf b) :
    readElem (pushElem b d s) b' i =
      if b' = b ∧ i = lenOf s b then some (BitVec.ofNat 32 d) else readElem s b' i := by
  cases b <;> cases b' <;>
    simp only [pushElem, readElem, lenOf, wmaxOf, reduceCtorEq, false_and, true_and, if_false, getElem?_concat] at h ⊢ <;>
    split <;> try rfl
  · rw [Option.map_some, setWidth_ofNat_of_lt d (by omega)]
  · rw [Option.map_some, setWidth_ofNat_of_lt d (by omega)]
  · obtain rfl | rfl : d = 0 ∨ d = 1 := by omega
    all_goals rfl
  · rw [Option.map_some, setWidth_ofNat_of_lt d (by omega)]
  · rw [Option.map_some, setWidth_ofNat_of_lt d (by omega)]

/-- Keeping a prefix makes its buffer at most that long and leaves the other lengths (R109). -/
theorem lenOf_truncBuf (b b' : Buf) (n : Nat) (s : State) :
    lenOf (truncBuf b n s) b' = if b' = b then min (lenOf s b) n else lenOf s b' := by
  cases b <;> cases b' <;> simp [truncBuf, lenOf, Nat.min_comm]

/-- Keeping a prefix keeps its elements in place and leaves every other buffer (R109). -/
theorem readElem_truncBuf (b b' : Buf) (n i : Nat) (s : State) :
    readElem (truncBuf b n s) b' i = if b' = b ∧ n ≤ i then none else readElem s b' i := by
  cases b <;> cases b' <;>
    simp only [truncBuf, readElem, reduceCtorEq, false_and, true_and, if_false, List.getElem?_take] <;>
    by_cases h : i < n <;> simp [h, Nat.not_le.mpr, Nat.not_lt.mp]

/-- Keeping a prefix changes the five buffers only. -/
theorem truncBuf_frame (b : Buf) (n : Nat) (s : State) :
    truncBuf b n s = { s with
      txt := (truncBuf b n s).txt, key := (truncBuf b n s).key, bit := (truncBuf b n s).bit
      sym := (truncBuf b n s).sym, pay := (truncBuf b n s).pay } := by
  cases b <;> rfl

/-! ## What acts while an FT.READ holds -/

/-- The action taken while an FT.READ holds is a link step or a hardware reset, and the host's commands stay in the list,
in their order (R240; log 10). -/
theorem nextWhileHeld_spec {l r : List Input} {e : Input} (h : nextWhileHeld l = some (e, r)) :
    (e = .hardReset ∨ ∃ k, e = .link k) ∧ l.Perm (e :: r) ∧
      ∀ f : Input → Option CmdWord, f .hardReset = none → (∀ k, f (.link k) = none) →
        r.filterMap f = l.filterMap f := by
  induction l generalizing r with
  | nil => cases h
  | cons x l ih =>
    cases x with
    | link k => cases h; exact ⟨.inr ⟨k, rfl⟩, .refl _, fun f _ hk => by simp [hk]⟩
    | hardReset => cases h; exact ⟨.inl rfl, .refl _, fun f hr _ => by simp [hr]⟩
    | command w =>
      simp only [nextWhileHeld, Option.map_eq_some_iff, Prod.exists, Prod.mk.injEq] at h
      obtain ⟨a, b, hab, rfl, rfl⟩ := h
      obtain ⟨h1, h2, h3⟩ := ih hab
      exact ⟨h1, (h2.cons _).trans (.swap _ _ _), fun f hr hk => by simp [List.filterMap_cons, h3 f hr hk]⟩
    | abandoned w k =>
      simp only [nextWhileHeld, Option.map_eq_some_iff, Prod.exists, Prod.mk.injEq] at h
      obtain ⟨a, b, hab, rfl, rfl⟩ := h
      obtain ⟨h1, h2, h3⟩ := ih hab
      exact ⟨h1, (h2.cons _).trans (.swap _ _ _), fun f hr hk => by simp [List.filterMap_cons, h3 f hr hk]⟩

/-! ## The step -/

/-- No meaning stops. -/
theorem exec_answers (i : Instr) (s : State) : ∃ t, exec i s = .next t := by
  cases i <;> exact ⟨_, rfl⟩

/-- Everything a step can do (R60, R100, R174, R175, R230): a held FT.READ completes, nothing happens, a legal command runs, an
illegal word is answered, a link step, a hardware reset, or one that abandons a command. -/
theorem step_cases {s t : State} (h : step s = .next t) :
    (readCompletes s = true ∧ exec .ftRead s = .next t) ∨
    (readCompletes s = false ∧ nextInput s = none ∧ t = s) ∨
    (readCompletes s = false ∧ ∃ rest, (
      (∃ w i, nextInput s = some (.command w, rest) ∧ decode w = .ok i ∧ exec i { s with inputs := rest } = .next t) ∨
      (∃ w e, nextInput s = some (.command w, rest) ∧ decode w = .error e ∧
        t = illegalWord (opOf w) { s with inputs := rest }) ∨
      (∃ e, nextInput s = some (.link e, rest) ∧ t = linkStep e { s with inputs := rest }) ∨
      (nextInput s = some (.hardReset, rest) ∧ t = resetState { s with inputs := rest }) ∨
      (∃ w k, nextInput s = some (.abandoned w k, rest) ∧ t = abandon w k { s with inputs := rest }))) := by
  unfold step at h
  split at h
  · next hc => exact .inl ⟨hc, h⟩
  · next hc =>
    have hc : readCompletes s = false := by simpa using hc
    refine .inr ?_
    split at h
    · next hn => injection h with h; exact .inl ⟨hc, hn, h.symm⟩
    · next e rest hn =>
      refine .inr ⟨hc, rest, ?_⟩
      cases e with
      | command w =>
        simp only [accept, issue] at h
        split at h
        · next i hd => exact .inl ⟨w, i, hn, hd, h⟩
        · next e hd => injection h with h; exact .inr (.inl ⟨w, e, hn, hd, h.symm⟩)
      | link e => injection h with h; exact .inr (.inr (.inl ⟨e, hn, h.symm⟩))
      | hardReset => injection h with h; exact .inr (.inr (.inr (.inl ⟨hn, h.symm⟩)))
      | abandoned w k => injection h with h; exact .inr (.inr (.inr (.inr ⟨w, k, hn, h.symm⟩)))

end Sys2Proof.Machine
end

