-- ==== Sys2Proof/Laws/Wire.lean ====
section
/-! SUPPORT. The wire frame and the Message payload: what a prefix reads as, and that `parse` undoes `serialize` and
accepts nothing else. -/

namespace Sys2Proof.Machine

/-! ## The frame (R80, R174) -/

/-- The prefix of a frame reads as the number it was made of (R13, R174). -/
@[simp] theorem frameLen_u32be {n : Nat} (h : n < 2 ^ 32) (rest : List Byte) :
    frameLen (u32be n ++ rest) = some n := by
  show some (be32 _ _ _ _) = some n
  rw [be32_u32be h]

/-- A length is known exactly when four bytes have arrived, which are then its prefix (R174). -/
theorem frameLen_eq_some {q : List Byte} {n : Nat} (h : frameLen q = some n) :
    n < 2 ^ 32 ∧ ∃ rest, q = u32be n ++ rest := by
  unfold frameLen at h
  split at h
  · next b0 b1 b2 b3 rest =>
    injection h with h; subst h
    exact ⟨be32_lt _ _ _ _, rest, by rw [u32be_be32]; rfl⟩
  · cases h

theorem frameLen_eq_none {q : List Byte} : frameLen q = none ↔ q.length < 4 := by
  unfold frameLen
  split
  · simp
  · next hq =>
    simp only [true_iff]
    match q, hq with
    | [], _ => simp
    | [_], _ => simp
    | [_, _], _ => simp
    | [_, _, _], _ => simp
    | b0 :: b1 :: b2 :: b3 :: rest, hq => exact absurd rfl (hq b0 b1 b2 b3 rest)

theorem frame_length (p : List Byte) : (frame p).length = 4 + p.length := by simp [frame]

/-! ## Fields (R82, R83) -/

theorem field_length (tag : Byte) (v : List Byte) : (field tag v).length = 5 + v.length := by simp [field]; omega

/-- Taking a field that is there (R82, R83). -/
theorem takeField_field (tag : Byte) (v rest : List Byte) (h : v.length < 2 ^ 32) :
    takeField tag (field tag v ++ rest) = some (v, rest) := by
  simp only [field, u32be, List.cons_append, List.nil_append, takeField, be32_u32be h]
  simp

/-- What `takeField` accepts is a field with that tag (R83). -/
theorem takeField_eq_some {tag : Byte} {bytes v rest : List Byte} (h : takeField tag bytes = some (v, rest)) :
    bytes = field tag v ++ rest ∧ v.length < 2 ^ 32 := by
  unfold takeField at h
  split at h
  · next t b0 b1 b2 b3 r =>
    split at h
    · next hc =>
      obtain ⟨rfl, hle⟩ := hc
      simp only [Option.some.injEq, Prod.mk.injEq] at h
      obtain ⟨rfl, rfl⟩ := h
      have hl : (r.take (be32 b0 b1 b2 b3)).length = be32 b0 b1 b2 b3 := by
        rw [List.length_take]; omega
      refine ⟨?_, lt_of_eq_of_lt hl (be32_lt _ _ _ _)⟩
      simp only [field, hl, u32be_be32, List.cons_append, List.nil_append, List.take_append_drop]
    · cases h
  · cases h

/-! ## Symbols and originalLength (R82, R83) -/

theorem symBytes_eq (w : SymWord) : symBytes w = [BitVec.ofNat 8 (w.toNat / 256), BitVec.ofNat 8 (w.toNat % 256)] := by
  have := w.isLt
  have h1 : (w >>> 8).setWidth 8 = BitVec.ofNat 8 (w.toNat / 256) := by
    apply BitVec.eq_of_toNat_eq
    simp only [BitVec.toNat_setWidth, BitVec.toNat_ushiftRight, Nat.shiftRight_eq_div_pow, BitVec.toNat_ofNat]
  have h2 : w.setWidth 8 = BitVec.ofNat 8 (w.toNat % 256) := by
    apply BitVec.eq_of_toNat_eq
    simp only [BitVec.toNat_setWidth, BitVec.toNat_ofNat]; omega
  rw [symBytes, h1, h2]

@[simp] theorem takeSymbols_symBytes (ws : List SymWord) : takeSymbols (ws.flatMap symBytes) = some ws := by
  induction ws with
  | nil => rfl
  | cons w ws ih =>
    have hw := w.isLt
    simp only [List.flatMap_cons, symBytes_eq, List.cons_append, List.nil_append, takeSymbols, BitVec.toNat_ofNat]
    rw [if_pos (by omega)]
    rw [show takeSymbols (ws.flatMap fun w => symBytes w) = some ws from ih, Option.map_some]
    congr 2
    apply BitVec.eq_of_toNat_eq
    simp only [BitVec.toNat_ofNat]; omega

theorem takeSymbols_eq_some {bytes : List Byte} {ws : List SymWord} (h : takeSymbols bytes = some ws) :
    bytes = ws.flatMap symBytes := by
  induction bytes using takeSymbols.induct generalizing ws with
  | case1 => simp only [takeSymbols, Option.some.injEq] at h; subst h; rfl
  | case2 b => simp [takeSymbols] at h
  | case3 hi lo rest hhi ih =>
    simp only [takeSymbols, hhi, if_true, Option.map_eq_some_iff] at h
    obtain ⟨us, hus, rfl⟩ := h
    have hlo := lo.isLt
    rw [List.flatMap_cons, ← ih hus, symBytes_eq]
    simp only [List.cons_append, List.nil_append, List.cons.injEq, and_true]
    constructor <;> apply BitVec.eq_of_toNat_eq <;> simp only [BitVec.toNat_ofNat] <;> omega
  | case4 hi lo rest hhi => simp [takeSymbols, hhi] at h

theorem flatMap_symBytes_length (ws : List SymWord) : (ws.flatMap symBytes).length = 2 * ws.length := by
  induction ws with
  | nil => rfl
  | cons w ws ih => simp [symBytes, ih]; omega

@[simp] theorem takeOlen_u32be (n : Word) : takeOlen (u32be n.toNat) = some n := by
  show some (BitVec.ofNat 32 (be32 _ _ _ _)) = some n
  rw [be32_u32be n.isLt, BitVec.ofNat_toNat, BitVec.setWidth_eq]

theorem takeOlen_eq_some {bytes : List Byte} {n : Word} (h : takeOlen bytes = some n) : bytes = u32be n.toNat := by
  unfold takeOlen at h
  split at h
  · next b0 b1 b2 b3 =>
    injection h with h; subst h
    rw [BitVec.toNat_ofNat, Nat.mod_eq_of_lt (be32_lt _ _ _ _), u32be_be32]
  · cases h

/-! ## Messages (R83, R180, R181) -/

/-- The Message's sequences fit the buffers (R83, R181). -/
def Message.Fits (p : Params) (m : Message) : Prop :=
  m.symbols.length ≤ p.tmax ∧ m.key.length ≤ p.kmax ∧ ∀ t, m.text = some t → t.length ≤ p.tmax

theorem takeText_textField {p : Params} {m : Option (List Byte)} (hb : p.tmax < 2 ^ 32)
    (hm : ∀ t, m = some t → t.length ≤ p.tmax) : takeText p (textField m) = some m := by
  rcases m with _ | t
  · rfl
  · have ht := hm t rfl
    have := takeField_field 0x04 t [] (by omega)
    rw [List.append_nil] at this
    have hne : field 0x04 t ≠ [] := by simp [field]
    rw [takeText, textField, if_neg hne, this]
    exact if_pos ht

theorem takeText_eq_some {p : Params} {bytes : List Byte} {m : Option (List Byte)} (h : takeText p bytes = some m) :
    bytes = textField m ∧ ∀ t, m = some t → t.length ≤ p.tmax := by
  unfold takeText at h
  split at h
  · next hb => injection h with h; subst h; exact ⟨hb, by simp⟩
  · rcases ht : takeField 0x04 bytes with _ | ⟨t, rest⟩
    · rw [ht] at h; cases h
    · rcases rest with _ | ⟨c, rest⟩
      · rw [ht] at h
        dsimp only at h
        split at h
        · next hle =>
          injection h with h; subst h
          obtain ⟨h1, -⟩ := takeField_eq_some ht
          exact ⟨by simpa [textField] using h1, fun u hu => by injection hu with hu; subst hu; exact hle⟩
        · cases h
      · rw [ht] at h; cases h

/-- `parse` undoes `serialize` on every Message that fits (R181). -/
theorem parse_serialize {p : Params} (hp : p.InBounds) {m : Message} (h : m.Fits p) :
    parse p (serialize m) = some m := by
  obtain ⟨hs, hk, ht⟩ := h
  obtain ⟨-, htb, -, hkb, -, -⟩ := hp
  have hsb : (m.symbols.flatMap symBytes).length < 2 ^ 32 := by rw [flatMap_symBytes_length]; omega
  have hkb : m.key.length < 2 ^ 32 := by omega
  have hob : (u32be m.olen.toNat).length < 2 ^ 32 := by simp
  have tail := takeText_textField (p := p) (m := m.text) (by omega) ht
  simp only [serialize, parse, List.append_assoc, takeField_field _ _ _ hsb, takeField_field _ _ _ hkb,
    takeField_field _ _ _ hob, Option.bind_eq_bind, Option.bind_some, takeSymbols_symBytes, takeOlen_u32be, tail]
  rw [if_pos ⟨hs, hk⟩]

/-- What `parse` accepts is the payload of the Message it gives, and the Message fits (R83, R181). -/
theorem parse_eq_some {p : Params} {bytes : List Byte} {m : Message} (h : parse p bytes = some m) :
    bytes = serialize m ∧ m.Fits p := by
  simp only [parse, Option.bind_eq_bind, Option.bind_eq_some_iff, Prod.exists] at h
  obtain ⟨symb, r1, h1, key, r2, h2, olenb, r3, h3, ws, hws, n, hn, t, ht, h⟩ := h
  split at h
  · next hc =>
    injection h with h; subst h
    obtain ⟨rfl, -⟩ := takeField_eq_some h1
    obtain ⟨rfl, -⟩ := takeField_eq_some h2
    obtain ⟨rfl, -⟩ := takeField_eq_some h3
    obtain ⟨rfl, ht2⟩ := takeText_eq_some ht
    rw [takeSymbols_eq_some hws, takeOlen_eq_some hn]
    exact ⟨by simp only [serialize, List.append_assoc], hc.1, hc.2, ht2⟩
  · cases h

theorem textField_length (m : Option (List Byte)) :
    (textField m).length = if m.isSome then 5 + (m.getD []).length else 0 := by
  rcases m with _ | t
  · rfl
  · simp [textField, field_length]

/-- The size of a payload (R82). -/
theorem serialize_length (m : Message) :
    (serialize m).length =
      19 + 2 * m.symbols.length + m.key.length + if m.text.isSome then 5 + (m.text.getD []).length else 0 := by
  simp only [serialize, List.length_append, field_length, flatMap_symBytes_length, u32be_length, textField_length]
  omega

end Sys2Proof.Machine
end

