-- ==== Sys2Proof/Laws/Exec.lean ====
section
/-! SUPPORT. What a command can do, said once: the relation `Effect` with one constructor per kind of outcome, and the
lemma that every outcome of `exec` is one of them. Statements about every command go by cases on it. -/

namespace Sys2Proof.Machine

/-- The outcomes of a command: `Effect i s t` when `i` may leave `t` from `s`. -/
inductive Effect : Instr → State → State → Prop
  /-- Refused in FAULTED mode (R206). -/
  | refused {i : Instr} {s : State} (hf : s.fault ≠ 0) (hi : i ≠ .nop ∧ i ≠ .sreset ∧ ∀ a, i ≠ .rdreg a) :
    Effect i s (respond 0x0F s.fault s)
  /-- A fatal fault in RUN mode (R204). -/
  | fatal {i : Instr} {s : State} (c : FatalCode) (info : Word) (hf : s.fault = 0)
    (hi : i ≠ .nop ∧ i ≠ .sreset ∧ i ≠ .ftOpen ∧ i ≠ .ftClose ∧ i ≠ .ftWrite ∧ i ≠ .ftRead ∧ i ≠ .msgUnpack) :
    Effect i s (raiseFatal c info s)
  /-- RDREG of a number that is no register, in FAULTED mode (R102, R206). -/
  | noRegister {a : Word} {s : State} (hf : s.fault ≠ 0) (ha : readReg s a = none) :
    Effect (.rdreg a) s (respond 0x06 0x01 s)
  /-- NOP (R101). -/
  | nop {s : State} : Effect .nop s (respondOk 0 s)
  /-- RDREG (R102). -/
  | rdreg {a v : Word} {s : State} (ha : readReg s a = some v) : Effect (.rdreg a) s (respondOk v s)
  /-- BREAD (R108). -/
  | bread {buf d : Nat} {b : Buf} {v : Word} {s : State} (hf : s.fault = 0) (hb : bufOfId buf = some b)
    (hv : readElem s b d = some v) : Effect (.bread buf d) s (respondOk v s)
  /-- LC.B2L (R156). -/
  | lcB2l {p : BitPair} {s : State} (hf : s.fault = 0) : Effect (.lcB2l p) s (respondOk ((levelOf p).setWidth 32) s)
  /-- LC.L2B (R157). -/
  | lcL2b {c : LevelCode} {p : BitPair} {s : State} (hf : s.fault = 0) (hc : bitpairOf c = some p) :
    Effect (.lcL2b c) s (respondOk (p.setWidth 32) s)
  /-- SRESET (R103). -/
  | sreset {s : State} : Effect .sreset s (respondOk 0 (resetState s))
  /-- SETSEED (R104). -/
  | setseed {a : Word} {s : State} (hf : s.fault = 0) : Effect (.setseed a) s (respondOk 0 { s with seed := a })
  /-- SETOLEN (R105). -/
  | setolen {a : Word} {s : State} (hf : s.fault = 0) : Effect (.setolen a) s (respondOk 0 { s with olen := a })
  /-- BPUSH (R106). -/
  | bpush {buf d : Nat} {b : Buf} {s : State} (hf : s.fault = 0) (hb : bufOfId buf = some b) (hd : d ≤ wmaxOf b)
    (hc : lenOf s b ≠ capOf s.params b) :
    Effect (.bpush buf d) s (respondOk (lenWord (lenOf s b + 1)) (pushElem b d s))
  /-- BCLR, BTRUNC and BTRUNCO (R107, R109, R110). -/
  | truncate {i : Instr} {b : Buf} {n : Nat} {v : Word} {s : State} (hf : s.fault = 0)
    (hi : (∃ buf, i = .bclr buf) ∨ (∃ buf d, i = .btrunc buf d) ∨ i = .btrunco) :
    Effect i s (respondOk v (truncBuf b n s))
  /-- A new BIT (R123, R135 to R138, R155). -/
  | newBit {i : Instr} {b : List Bool} {v : Word} {s : State} (hf : s.fault = 0)
    (hi : i = .bcEnc ∨ i = .scXor ∨ i = .scPerm ∨ i = .scUnperm ∨ i = .scEncrypt ∨ i = .lcDec)
    (hb : b.length = s.bit.length ∨ b.length = 8 * s.txt.length ∨ b.length = 8 * s.sym.length) :
    Effect i s (respondOk v { s with bit := b })
  /-- A new TXT (R124, R139). -/
  | newTxt {i : Instr} {t : List Byte} {v : Word} {s : State} (hf : s.fault = 0) (hi : i = .bcDec ∨ i = .scDecrypt)
    (ht : t.length = s.bit.length / 8) : Effect i s (respondOk v { s with txt := t })
  /-- A new SYM (R154). -/
  | lcEnc {ws : List SymWord} {v : Word} {s : State} (hf : s.fault = 0) (hw : ws.length = (s.bit.length + 7) / 8) :
    Effect .lcEnc s (respondOk v { s with sym := ws })
  /-- A transport-class error that changes TERR alone (R171, R173, R174, R183, R208). -/
  | transport {i : Instr} {s : State} (c : TransportCode) (hf : s.fault = 0)
    (hi : i = .ftOpen ∨ i = .ftWrite ∨ i = .ftRead ∨ i = .msgUnpack) : Effect i s (raiseTransport c s)
  /-- FT.OPEN's draw (R171). -/
  | ftOpen {ok : Bool} {s : State} (hf : s.fault = 0) (hl : s.status.linkup = false) :
    Effect .ftOpen s (openWith ok (passOpenDraw s))
  /-- FT.CLOSE (R172). -/
  | ftClose {s : State} (hf : s.fault = 0) :
    Effect .ftClose s (respondOk 0 (dropLink { s with status := { s.status with broken := false } }))
  /-- FT.WRITE's draw (R173). -/
  | ftWrite {k : Nat} {s : State} (hf : s.fault = 0) (hl : s.status.linkup = true) (hk : k ≤ 4 + s.pay.length) :
    Effect .ftWrite s (writeWith k (passWriteDraw s))
  /-- FT.READ of an oversize length (R174). -/
  | readOversize {n : Nat} {s : State} (hf : s.fault = 0) (hl : s.status.linkup = true)
    (hb : s.status.broken = false) (hn : frameLen s.rxfifo = some n) (hp : s.params.pmax < n) : Effect .ftRead s (readOversize n s)
  /-- FT.READ of a complete frame (R174). -/
  | readComplete {n : Nat} {s : State} (hf : s.fault = 0) (hl : s.status.linkup = true)
    (hb : s.status.broken = false) (hn : frameLen s.rxfifo = some n) (hp : n ≤ s.params.pmax)
    (hc : 4 + n ≤ s.rxfifo.length) :
    Effect .ftRead s (readComplete n s)
  /-- FT.READ of a closed stream (R174). -/
  | readClosed {n cnt : Nat} {torn : Bool} {s : State} (hf : s.fault = 0) (hl : s.status.linkup = true)
    (hb : s.status.broken = false) : Effect .ftRead s (readClosed n cnt torn s)
  /-- FT.READ holds (R174). -/
  | hold {s : State} (hf : s.fault = 0) (hl : s.status.linkup = true) (hr : readReady s = false) :
    Effect .ftRead s { s with held := true }
  /-- MSG.PACK (R182). -/
  | msgPack {f : Bool} {v : Word} {p : List Byte} {s : State} (hf : s.fault = 0) (hp : p.length ≤ s.params.pmax) :
    Effect (.msgPack f) s (respondOk v { s with pay := p })
  /-- MSG.UNPACK (R183). -/
  | msgUnpack {m : Message} {v : Word} {s : State} (hf : s.fault = 0) (hm : m.Fits s.params) :
    Effect .msgUnpack s (respondOk v (unpackTo m s))

/-- Every outcome of a command is one of `Effect`'s. -/
theorem exec_effect {i : Instr} {s t : State} (h : exec i s = .next t) : Effect i s t := by
  have run : ∀ body, (i ≠ .nop ∧ i ≠ .sreset ∧ ∀ a, i ≠ .rdreg a) → (s.fault = 0 → Effect i s body) →
      Effect i s (inRunMode s body) := by
    intro body hi hb
    obtain ⟨hf, e⟩ | ⟨hf, e⟩ := inRunMode_cases s body
    · rw [e]; exact hb hf
    · rw [e]; exact .refused hf hi
  cases i <;> injection h with h <;> subst h
  case nop => exact .nop
  case rdreg a =>
    split
    · next v hv => exact .rdreg hv
    · next hv =>
      split
      · next hf => exact .fatal _ _ hf (by simp)
      · next hf => exact .noRegister hf hv
  case sreset => exact .sreset
  all_goals refine run _ (by simp) fun hf => ?_
  case setseed a => exact .setseed hf
  case setolen a => exact .setolen hf
  case bclr buf =>
    split
    · exact .fatal _ _ hf (by simp)
    · exact .truncate hf (by simp)
  case bpush buf d =>
    split
    · exact .fatal _ _ hf (by simp)
    · next b hb =>
      unfold pushChecked
      split
      · exact .fatal _ _ hf (by simp)
      · split
        · exact .fatal _ _ hf (by simp)
        · split
          · exact .fatal _ _ hf (by simp)
          · next h2 h3 => exact .bpush hf hb (Nat.le_of_not_lt h2) h3
  case bread buf d =>
    split
    · exact .fatal _ _ hf (by simp)
    · next b hb =>
      split
      · exact .fatal _ _ hf (by simp)
      · next v hv => exact .bread hf hb hv
  case btrunc buf d =>
    split
    · exact .fatal _ _ hf (by simp)
    · exact .truncate hf (by simp)
  case btrunco => exact .truncate hf (by simp)
  case bcEnc => exact .newBit hf (by simp) (by simp)
  case bcDec =>
    split
    · exact .fatal _ _ hf (by simp)
    · next hb => exact .newTxt hf (by simp) (bcDecode_length _ (by omega))
  case scXor =>
    split
    · exact .fatal _ _ hf (by simp)
    · exact .newBit hf (by simp) (by simp)
  case scPerm =>
    split
    · exact .fatal _ _ hf (by simp)
    · exact .newBit hf (by simp) (by simp)
  case scUnperm =>
    split
    · exact .fatal _ _ hf (by simp)
    · exact .newBit hf (by simp) (by simp)
  case scEncrypt =>
    split
    · exact .fatal _ _ hf (by simp)
    · split
      · exact .fatal _ _ hf (by simp)
      · exact .newBit hf (by simp) (by simp)
  case scDecrypt =>
    split
    · exact .fatal _ _ hf (by simp)
    · split
      · exact .fatal _ _ hf (by simp)
      · split
        · exact .fatal _ _ hf (by simp)
        · next hb => exact .newTxt hf (by simp) ((bcDecode_length _ (by simp; omega)).trans (by simp))
  case lcEnc => exact .lcEnc hf (lcEncode_length _)
  case lcDec =>
    split
    · exact .fatal _ _ hf (by simp)
    · next hn =>
      exact .newBit hf (by simp) (.inr (.inr (lcDecode_length _ (firstInvalidFrom_eq_none.mp hn))))
  case lcB2l p => exact .lcB2l hf
  case lcL2b c =>
    split
    · exact .fatal _ _ hf (by simp)
    · next p hp => exact .lcL2b hf hp
  case ftOpen =>
    split
    · exact .transport _ hf (by simp)
    · next hl => exact .ftOpen hf (by simpa using hl)
  case ftClose => exact .ftClose hf
  case ftWrite =>
    split
    · exact .transport _ hf (by simp)
    · next hl =>
      split
      · exact .transport _ hf (by simp)
      · refine .ftWrite hf (by simpa using hl) ?_
        unfold drawnAccepts
        split <;> exact Nat.min_le_right _ _
  case ftRead =>
    split
    · exact .transport _ hf (by simp)
    · next hl =>
      have hl : s.status.linkup = true := by simpa using hl
      split
      · unfold readNow
        split
        · exact .transport _ hf (by simp)
        · next hb =>
          split
          · exact .readClosed hf hl (by simpa using hb)
          · next n hn =>
            split
            · next hp => exact .readOversize hf hl (by simpa using hb) hn hp
            · next hp =>
              split
              · next hc => exact .readComplete hf hl (by simpa using hb) hn (by omega) hc
              · exact .readClosed hf hl (by simpa using hb)
      · next hr => exact .hold hf hl (by simpa using hr)
  case msgPack f =>
    split
    · exact .fatal _ _ hf (by simp)
    · next hp =>
      refine .msgPack hf ?_
      rw [serialize_length]
      cases f <;> simpa [packedSize, messageOf] using hp
  case msgUnpack =>
    split
    · exact .transport _ hf (by simp)
    · next m hm => exact .msgUnpack hf (parse_eq_some hm).2

end Sys2Proof.Machine
end

