-- ==== Sys2Proof/Laws/Pipeline.lean ====
section
/-! SUPPORT. What a host that issues commands one after another gets: one lemma per shared operation of the pipelines. -/

namespace Sys2Proof.Machine

/-! ## Going on from an answer -/

@[simp] theorem andThen_next {α β : Type} (a : α) (f : α → Host.Outcome β Fault Refusal) :
    andThen (.next a) f = f a := rfl

@[simp] theorem whenOk_values (vs : List Word) (s : State) (f : List Word → State → Turn) :
    whenOk (.next (.values vs, s)) f = f vs s := rfl

@[simp] theorem whenOk_closed (s : State) (f : List Word → State → Turn) :
    whenOk (.next (.closed, s)) f = .next (.closed, s) := rfl

@[simp] theorem whenOk_reported (c : BitVec 8) (s : State) (f : List Word → State → Turn) :
    whenOk (.next (.reported c, s)) f = .next (.reported c, s) := rfl

@[simp] theorem whenOk_waiting (s : State) (f : List Word → State → Turn) :
    whenOk (.next (.waiting, s)) f = .next (.waiting, s) := rfl

/-- Commands in two parts: the second part runs on the state the first part leaves (R60). -/
theorem execAll_append {a : List Instr} (b : List Instr) {s t : State} (h : execAll a s = .next t) :
    execAll (a ++ b) s = execAll b t := by
  induction a generalizing s with
  | nil => cases h; rfl
  | cons i a ih =>
    obtain ⟨u, hu⟩ := exec_answers i s
    simp only [execAll, List.cons_append, hu, andThen_next] at h ⊢
    exact ih h

/-! ## What the host hears -/

/-- A completed command is heard by its response (R75). -/
@[simp] theorem heard_respond (c : BitVec 8) (v : Word) (s : State) :
    heard (respond c v s) = hearResponse { status := c, value := v } := by
  simp [heard, respond]

/-- A command that holds gives nothing to hear (R174). -/
theorem heard_held {s : State} (h : s.held = true) : heard s = .waiting := by simp [heard, h]

/-- A command that answers OK is heard by its value (R76). -/
theorem heard_ok (v : Word) (s : State) : heard (respond 0x00 v s) = .values [v] := by rw [heard_respond]; rfl

/-- A command that is heard by its value lets the host issue the next one. -/
theorem askAll_ok {i : Instr} {rest : List Instr} {s t u : State} {v : Word} {vs : List Word}
    (h : exec i s = .next t) (hv : heard t = .values [v]) (hr : askAll rest t = .next (.values vs, u)) :
    askAll (i :: rest) s = .next (.values (v :: vs), u) := by
  rw [askAll, ask, h, andThen_next, hv, whenOk_values, hr, whenOk_values]; rfl

/-! ## FT.READ of a frame that has arrived -/

/-- FT.READ of a frame at the front of RXFIFO delivers its payload and keeps what follows it (R170, R174). -/
theorem exec_ftRead_frame {s : State} {p rest : List Byte} (hf : s.fault = 0) (hp : s.params.InBounds)
    (hl : s.status.linkup = true) (hb : s.status.broken = false) (hr : s.rxfifo = frame p ++ rest)
    (hc : p.length ≤ s.params.pmax) :
    exec .ftRead s = .next (respond 0x00 (lenWord p.length)
      { s with pay := p, rxfifo := rest, rxlen := lenWord p.length, rxcnt := lenWord p.length }) := by
  have hpm : s.params.pmax ≤ 2 ^ 28 := hp.2.2.2.2.2
  have hn : frameLen s.rxfifo = some p.length := by
    rw [hr, frame, List.append_assoc, frameLen_u32be (by omega)]
  have hfl : 4 + p.length ≤ s.rxfifo.length := by rw [hr, List.length_append, frame_length]; omega
  have hpay : (s.rxfifo.drop 4).take p.length = p := by
    rw [hr, frame, List.append_assoc, List.drop_left' (by simp), List.take_left' rfl]
  have hrest : s.rxfifo.drop (4 + p.length) = rest := by rw [hr, List.drop_left' (frame_length p)]
  have hready : readReady s = true := by simp [readReady, hn, hfl]
  have hnow : readNow s = readComplete p.length s := by
    rw [readNow, hb, if_neg (by simp), hn]
    exact (if_neg (by omega)).trans (if_pos hfl)
  refine (next_inRunMode hf).trans ?_
  rw [hl, hready, hnow, readComplete, hpay, hrest]; rfl

/-! ## The receiver's turn -/

/-- An FT.READ that answers a status other than OK and ConnectionClosed ends the turn with a report (R187). -/
theorem receiveFrame_reported {s t : State} {c : BitVec 8} {v : Word} (h : exec .ftRead s = .next (respond c v t))
    (h0 : c ≠ 0x00) (h1 : c ≠ 0x20) : receiveFrame s = .next (.reported c, respond c v t) := by
  have e : hearResponse { status := c, value := v } = .reported c :=
    (if_neg (show c ≠ statusOk from h0)).trans (if_neg (show c ≠ statusClosed from h1))
  rw [receiveFrame, h, andThen_next, afterRead, heard_respond, e]; rfl

/-- An FT.READ that answers ConnectionClosed ends the turn cleanly (R187). -/
theorem receiveFrame_closed {s t : State} {v : Word} (h : exec .ftRead s = .next (respond 0x20 v t)) :
    receiveFrame s = .next (.closed, respond 0x20 v t) := by
  simp [receiveFrame, h, afterRead, hearResponse, statusOk, statusClosed]

/-- An FT.READ that holds leaves the host waiting (R174, R187). -/
theorem receiveFrame_waiting {s t : State} (h : exec .ftRead s = .next t) (hh : t.held = true) :
    receiveFrame s = .next (.waiting, t) := by
  simp [receiveFrame, h, afterRead, heard_held hh]

/-- An FT.READ that answers OK is followed by the commands that recover the text, and those by its reading (R187). -/
theorem receiveFrame_ok {s t u w : State} {v : Word} {vs text : List Word} (h : exec .ftRead s = .next t)
    (hv : heard t = .values [v]) (hr : askAll recoverCommands t = .next (.values vs, u))
    (ht : askAll (readTextCommands (vs.getLastD 0).toNat) u = .next (.values text, w)) :
    receiveFrame s = .next (.values text, w) := by
  rw [receiveFrame, h, andThen_next, afterRead, hv, whenOk_values, hr, whenOk_values, ht]

/-- A turn that delivers a text is followed by the next one (R187). -/
theorem receiveFrames_ok {s t u : State} {vs : List Word} {n : Nat} {texts : List (List Byte)} {e : Heard}
    (h : receiveFrame s = .next (.values vs, t)) (hr : receiveFrames n t = .next (texts, e, u)) :
    receiveFrames (n + 1) s = .next (vs.map (·.setWidth 8) :: texts, e, u) := by
  rw [receiveFrames, h, andThen_next]
  exact congrArg (andThen · _) hr

/-- Reading the `n` characters from index `d` on answers those characters and changes nothing but the responses (R108). -/
theorem askAll_bread (s : State) (hf : s.fault = 0) (d n : Nat) (h : d + n ≤ s.txt.length) :
    ∃ rs hd, askAll ((List.range' d n).map fun i => .bread (bufId .txt) i) s =
      .next (.values (((s.txt.drop d).take n).map fun x => BitVec.ofNat 32 x.toNat),
        { s with held := hd, responses := rs }) := by
  induction n generalizing d s with
  | zero => exact ⟨s.responses, s.held, by simp [askAll]⟩
  | succ n ih =>
    have hd : d < s.txt.length := by omega
    have e : exec (.bread (bufId .txt) d) s = .next (respond 0x00 (BitVec.ofNat 32 (s.txt[d]).toNat) s) := by
      refine (next_inRunMode hf).trans ?_
      simp [readElem, List.getElem?_eq_getElem hd]
    obtain ⟨rs, hh, ht⟩ := ih (respond 0x00 (BitVec.ofNat 32 (s.txt[d]).toNat) s) hf (d + 1) (by simp; omega)
    refine ⟨rs, hh, (askAll_ok e (heard_ok _ _) ht).trans ?_⟩
    rw [List.drop_eq_getElem_cons hd]; rfl

/-- Reading all of TXT (R187). -/
theorem askAll_readText (s : State) (hf : s.fault = 0) {n : Nat} (hn : n = s.txt.length) :
    ∃ rs hd, askAll (readTextCommands n) s =
      .next (.values (s.txt.map fun x => BitVec.ofNat 32 x.toNat), { s with held := hd, responses := rs }) := by
  subst hn
  simpa [readTextCommands, List.range_eq_range'] using askAll_bread s hf 0 s.txt.length (by omega)

end Sys2Proof.Machine
end

