-- ==== Sys2Proof/Tests/Slice0.lean ====
section
/-! SUPPORT. Tests, their expected values taken from the spec's encodings, examples and vectors; and for each statement with
hypotheses a witness that meets them, at the boundary values of each clause. -/

namespace Sys2Proof.Tests

open Sys2Proof.Machine Sys2Proof.Claims

/-! ## Helpers -/

/-- The state after one command (the state itself where the model would stop, which no command does). -/
def after (i : Instr) (s : State) : State :=
  match exec i s with
  | .next t => t
  | .fault _ => s
  | .refused _ => s

/-- The response word of one command, as R75 packs it. -/
def said (i : Instr) (s : State) : Option (BitVec 40) := (after i s).responses.getLast?.map Response.word

/-- The `n` bits of a numeral, the leftmost first (R10). -/
def bitsOf (n v : Nat) : List Bool := (List.range n).map fun i => v.testBit (n - 1 - i)

/-- Reset with a text, a key and a bit string. -/
def loaded (t k : List Byte) (b : List Bool) : State := { State.reset with txt := t, key := k, bit := b }

/-- Reset with the link up and these bytes received. -/
def linked (q : List Byte) (eof : Bool) : State :=
  { State.reset with status := { Status.clear with linkup := true }, rxfifo := q, rxeof := eof }

/-- Reset with the smallest capacities. -/
def tiny : State := { State.reset with params := { tmax := 1, kmax := 1, pmax := 19 } }

/-- A faulted block: MalformedInputError with BLEN = 7. -/
def broken : State := { State.reset with fault := 0x02, finfo := 7, bit := bitsOf 7 0b0100100 }

/-- "Hi" and the 16 bits of it (V-S1). -/
def hi : List Byte := [0x48, 0x69]

/-- The 22-byte payload of R182's example. -/
def pay22 : List Byte :=
  [0x01, 0x00, 0x00, 0x00, 0x02, 0x0D, 0x91, 0x02, 0x00, 0x00, 0x00, 0x01, 0x6B, 0x03, 0x00, 0x00, 0x00, 0x04] ++
    [0x00, 0x00, 0x00, 0x08]

/-- The state with these actions still to come. -/
def upcoming (es : List Input) (s : State) : State := { s with inputs := es }

/-! ## WellFormed (R72): each check refuses an ill-formed term -/

theorem test_wf_bclr_id : WellFormed (.bclr 16) = false := by decide
theorem test_wf_bpush_id : WellFormed (.bpush 16 0) = false := by decide
theorem test_wf_bpush_datum : WellFormed (.bpush 0 (2 ^ 28)) = false := by decide
theorem test_wf_bread_id : WellFormed (.bread 16 0) = false := by decide
theorem test_wf_bread_index : WellFormed (.bread 0 (2 ^ 28)) = false := by decide
theorem test_wf_btrunc_id : WellFormed (.btrunc 16 0) = false := by decide
theorem test_wf_btrunc_length : WellFormed (.btrunc 0 (2 ^ 28)) = false := by decide
theorem test_wf_largest : WellFormed (.bpush 15 (2 ^ 28 - 1)) = true := by decide

/-! ## Decode: one word per constructor, written out from R70, R72 and R84 -/

theorem test_decode_sys :
    decode 0x0000000000 = .ok .nop ∧ decode 0x0100000010 = .ok (.rdreg 0x10) ∧ decode 0x0200000000 = .ok .sreset ∧
      decode 0x0380000000 = .ok (.setseed 0x80000000) ∧ decode 0x0400000060 = .ok (.setolen 96) := by decide

theorem test_decode_buf :
    decode 0x1020000000 = .ok (.bclr 2) ∧ decode 0x1100000048 = .ok (.bpush 0 0x48) ∧
      decode 0x1220000005 = .ok (.bread 2 5) ∧ decode 0x1320000060 = .ok (.btrunc 2 96) ∧
      decode 0x1400000000 = .ok .btrunco ∧ decode 0x11FFFFFFFF = .ok (.bpush 15 0xFFFFFFF) := by decide

theorem test_decode_bc : decode 0x2000000000 = .ok .bcEnc ∧ decode 0x2100000000 = .ok .bcDec := by decide

theorem test_decode_sc :
    decode 0x3000000000 = .ok .scXor ∧ decode 0x3100000000 = .ok .scPerm ∧ decode 0x3200000000 = .ok .scUnperm ∧
      decode 0x3300000000 = .ok .scEncrypt ∧ decode 0x3400000000 = .ok .scDecrypt := by decide

theorem test_decode_lc :
    decode 0x4000000000 = .ok .lcEnc ∧ decode 0x4100000000 = .ok .lcDec ∧ decode 0x4200000002 = .ok (.lcB2l 0b10) ∧
      decode 0x4300000006 = .ok (.lcL2b 0b110) := by decide

theorem test_decode_ft :
    decode 0x5000000000 = .ok .ftOpen ∧ decode 0x5100000000 = .ok .ftClose ∧ decode 0x5200000000 = .ok .ftWrite ∧
      decode 0x5300000000 = .ok .ftRead := by decide

theorem test_decode_msg :
    decode 0x6000000000 = .ok (.msgPack false) ∧ decode 0x6000000001 = .ok (.msgPack true) ∧
      decode 0x6100000000 = .ok .msgUnpack := by decide

/-- R85: the first and the last word past each format. -/
theorem test_decode_rejects :
    decode 0x0000000001 = .error (.reservedBits 0x00) ∧ decode 0x1000000001 = .error (.reservedBits 0x10) ∧
      decode 0x4200000004 = .error (.reservedBits 0x42) ∧ decode 0x4300000008 = .error (.reservedBits 0x43) ∧
      decode 0x6000000002 = .error (.reservedBits 0x60) ∧ decode 0x0500000000 = .error (.undefinedOpcode 0x05) ∧
      decode 0xFF00000000 = .error (.undefinedOpcode 0xFF) := by decide

theorem test_encode_examples :
    encode (.setseed 0xFFFFFFFF) = 0x03FFFFFFFF ∧ encode (.bread 2 5) = 0x1220000005 ∧
      encode (.bpush 0 0x48) = 0x1100000048 ∧ encode (.lcL2b 0b111) = 0x4300000007 := by decide

theorem test_table_word :
    decodeTableWord 40 0x4200000002 = some (.lcB2l 0b10) ∧ decodeTableWord 40 0x4200000004 = none := by decide

theorem test_all_rows_distinct : (opcodeMap.map (·.pattern)).Nodup ∧ opcodeMap.length = 27 := by decide

/-! ## System commands -/

/-- R101. -/
theorem test_nop : said .nop broken = some 0x0000000000 := by decide

/-- V-SYS2 and V-SYS7. -/
theorem test_rdreg :
    said (.rdreg 0x0D) State.reset = some 0x0000000400 ∧ said (.rdreg 0x11) State.reset = some 0x0600000001 := by decide

/-- R102: in FAULTED mode a bad number leaves FAULT and FINFO. -/
theorem test_rdreg_faulted :
    said (.rdreg 0x11) broken = some 0x0600000001 ∧ (after (.rdreg 0x11) broken).fault = 0x02 := by decide

/-- V-SYS8. -/
theorem test_sreset :
    (after .sreset { linked [0x09] false with seed := 0x1234, txt := hi }).status = Status.clear ∧
      (after .sreset { linked [0x09] false with seed := 0x1234, txt := hi }).rxfifo = [] := by decide

/-- V-SYS10 and V-SYS11. -/
theorem test_setseed : (after (.setseed 0xFFFFFFFF) State.reset).seed = 0xFFFFFFFF := by decide
theorem test_setolen : (after (.setolen 0xFFFFFFFF) State.reset).olen = 0xFFFFFFFF := by decide

/-! ## Buffer commands -/

/-- R106's example, and its character 256. -/
theorem test_bpush :
    said (.bpush 0 0x48) State.reset = some 0x0000000001 ∧ (after (.bpush 0 0x48) State.reset).txt = [0x48] ∧
      said (.bpush 0 256) State.reset = some 0x0100000100 := by decide

/-- R106: a full buffer, and a datum too wide for BIT. -/
theorem test_bpush_rejects :
    said (.bpush 0 0x48) { tiny with txt := [0x41] } = some 0x0800000000 ∧
      said (.bpush 2 2) State.reset = some 0x0600000011 := by decide

/-- R107. -/
theorem test_bclr : (after (.bclr 2) broken).bit = broken.bit ∧ (after (.bclr 2) (loaded hi [] [true])).bit = [] := by
  decide

/-- R108's example, and the first index past the length. -/
theorem test_bread :
    said (.bread 0 0) (loaded hi [] []) = some 0x0000000048 ∧ said (.bread 0 2) (loaded hi [] []) = some 0x0700000002 := by
  decide

/-- R109: `d` above the length changes nothing. -/
theorem test_btrunc :
    said (.btrunc 2 3) (loaded [] [] (bitsOf 8 0b10110000)) = some 0x0000000003 ∧
      said (.btrunc 2 9) (loaded [] [] (bitsOf 8 0b10110000)) = some 0x0000000008 := by decide

/-- R110: OLEN = 4 keeps the first four bits. -/
theorem test_btrunco :
    (after .btrunco { loaded [] [] (bitsOf 8 0b10110000) with olen := 4 }).bit = bitsOf 4 0b1011 := by decide

/-! ## BitCodec -/

/-- R123's example. -/
theorem test_bc_enc : (after .bcEnc (loaded hi [] [])).bit = bitsOf 16 0b0100100001101001 := by decide

/-- R124's examples. -/
theorem test_bc_dec :
    (after .bcDec (loaded [] [] (bitsOf 16 0b0100100001101001))).txt = hi ∧
      said .bcDec (loaded [] [] (bitsOf 7 0b0100100)) = some 0x0200000007 := by decide

/-! ## StreamCipher -/

/-- R135's example. -/
theorem test_sc_xor :
    (after .scXor (loaded [] [0x6B] (bitsOf 16 0b0100100001101001))).bit = bitsOf 16 0b0010001100000010 := by decide

/-- V-S2, seeds 3 and -13. -/
theorem test_sc_perm :
    (after .scPerm { loaded [] [] (bitsOf 8 0b10110000) with seed := 3 }).bit = bitsOf 8 0b10000101 ∧
      (after .scPerm { loaded [] [] (bitsOf 8 0b10110000) with seed := 0xFFFFFFF3 }).bit = bitsOf 8 0b10000101 := by
  decide

/-- V-S2, seeds 3 and 2147483647. -/
theorem test_sc_unperm :
    (after .scUnperm { loaded [] [] (bitsOf 8 0b10000101) with seed := 3 }).bit = bitsOf 8 0b10110000 ∧
      (after .scUnperm { loaded [] [] (bitsOf 8 0b01011000) with seed := 0x7FFFFFFF }).bit = bitsOf 8 0b10110000 := by
  decide

/-- R138's example and V-S3, a key longer than the data. -/
theorem test_sc_encrypt :
    (after .scEncrypt (loaded hi [0x6B] [])).bit = bitsOf 16 0b0100011000000100 ∧
      (after .scEncrypt (loaded [0x41] [0x41, 0x42] [])).bit = bitsOf 8 0b00000000 := by decide

/-- R139's example, and its order of checks. -/
theorem test_sc_decrypt :
    (after .scDecrypt (loaded [] [0x6B] (bitsOf 16 0b0100011000000100))).txt = hi ∧
      said .scDecrypt (loaded [] [] []) = some 0x0300000000 := by decide

/-! ## LineCoder -/

/-- R154's example and V-S4, nine bits. -/
theorem test_lc_enc :
    (after .lcEnc (loaded [] [] (bitsOf 8 0b00001101))).sym = [0xD91] ∧
      (after .lcEnc (loaded [] [] (bitsOf 9 0b110110111))).sym = [0x47A, 0xFB6] := by decide

/-- R155's examples. -/
theorem test_lc_dec :
    (after .lcDec { State.reset with sym := [0xD91] }).bit = bitsOf 8 0b00001101 ∧
      said .lcDec { State.reset with sym := [0xD91, 0xD81] } = some 0x0400000030 := by decide

/-- R156's and R157's examples. -/
theorem test_lc_b2l : said (.lcB2l 0b10) State.reset = some 0x0000000007 := by decide
theorem test_lc_l2b :
    said (.lcL2b 0b111) State.reset = some 0x0000000002 ∧ said (.lcL2b 0) State.reset = some 0x04FFFFFFF8 := by decide

/-! ## FrameTransport -/

/-- R171's example, and LinkBusy. -/
theorem test_ft_open :
    (after .ftOpen { State.reset with openDraws := [true] }).status.word = 0x00000001 ∧
      said .ftOpen (linked [] false) = some 0x1400000000 := by decide

/-- R172's example. -/
theorem test_ft_close :
    (after .ftClose { State.reset with status := { Status.clear with linkup := true, broken := true } }).status.word =
      0 := by decide

/-- R173's example, and a strict prefix of the frame. -/
theorem test_ft_write :
    (after .ftWrite { linked [] false with pay := [0xAA, 0xBB], writeDraws := [6] }).txout =
        [0x00, 0x00, 0x00, 0x02, 0xAA, 0xBB] ∧
      said .ftWrite { linked [] false with pay := [0xAA, 0xBB], writeDraws := [5] } = some 0x1200000000 := by decide

/-- R174's example: the frame, then the closure after one header byte. -/
theorem test_ft_read :
    (after .ftRead (linked [0x00, 0x00, 0x00, 0x02, 0xAA, 0xBB, 0x00] false)).pay = [0xAA, 0xBB] ∧
      (after .ftRead (linked [0x00, 0x00, 0x00, 0x02, 0xAA, 0xBB, 0x00] false)).rxfifo = [0x00] ∧
      (after .ftRead (linked [0x00] true)).rxcnt = 1 ∧ said .ftRead (linked [0x00] true) = some 0x2000000000 := by decide

/-- R174: a hold gives no response; an oversize length destroys the connection. -/
theorem test_ft_read_hold :
    (after .ftRead (linked [0x00, 0x00, 0x00, 0x02, 0xAA] false)).held = true ∧
      (after .ftRead (linked [0xFF, 0xFF, 0xFF, 0xFF] false)).status.linkup = false := by decide

/-! ## Message -/

/-- R182's example, and CapacityError. -/
theorem test_msg_pack :
    (after (.msgPack false) { State.reset with sym := [0xD91], key := [0x6B], olen := 8 }).pay = pay22 ∧
      said (.msgPack true) tiny = some 0x0800000018 := by decide

/-- R183's example. -/
theorem test_msg_unpack :
    (after .msgUnpack { State.reset with pay := pay22 }).sym = [0xD91] ∧
      said .msgUnpack { State.reset with pay := pay22 } = some 0x0000000001 ∧
      said .msgUnpack { State.reset with pay := pay22 ++ [0x00] } = some 0x1300000000 := by decide

/-! ## Witnesses of the statements' hypotheses -/

theorem reset_in_bounds : State.reset.params.InBounds := by unfold Params.InBounds; decide

theorem tiny_in_bounds : tiny.params.InBounds := by unfold Params.InBounds; decide

theorem reset_powerOn : PowerOn State.reset := ⟨reset_in_bounds, rfl⟩

theorem tiny_powerOn : PowerOn (upcoming [.hardReset] tiny) := ⟨tiny_in_bounds, rfl⟩

theorem reset_inv : StateInv State.reset := by
  constructor
  case params => exact reset_in_bounds
  all_goals decide

/-- An invariant state with an FT.READ that holds, and one that is faulted: StepKeepsInvariant speaks of both. -/
theorem held_inv : StateInv { linked [0x00] false with held := true } := by
  constructor
  case params => exact reset_in_bounds
  all_goals decide

theorem broken_inv : StateInv broken := by
  constructor
  case params => exact reset_in_bounds
  all_goals decide

theorem wit_OpcodeRowsNeverOverlap :
    (⟨"BCLR", 0x1000000000, 0xFF0FFFFFFF⟩ : OpRow) ∈ opcodeMap ∧
      (0x10F0000000 : CmdWord) &&& 0xFF0FFFFFFF = 0x1000000000 := by decide

theorem wit_DecodeAcceptsExactlyLegalWords :
    decode 0x10F0000000 = .ok (.bclr 15) ∧
      (⟨"LC.L2B", 0x4300000000, 0xFFFFFFFFF8⟩ : OpRow) ∈ opcodeMap ∧
      (0x4300000007 : CmdWord) &&& 0xFFFFFFFFF8 = 0x4300000000 := by decide

theorem wit_DecodeOfEncode : WellFormed (.bpush 15 (2 ^ 28 - 1)) = true ∧ WellFormed (.bclr 0) = true := by decide

theorem wit_EncodeOfDecode : decode 0x11FFFFFFFF = .ok (.bpush 15 0xFFFFFFF) := by decide

/-- The first and last opcode of each reserved range, and the least argument of each other clause. -/
theorem wit_ReservedWordsAreIllegal :
    (∀ op ∈ [0x05, 0x0F, 0x15, 0x1F, 0x22, 0x2F, 0x35, 0x3F, 0x44, 0x4F, 0x54, 0x5F, 0x62, 0x6F, 0x70, 0xFF],
      (0x05 ≤ op ∧ op ≤ 0x0F) ∨ (0x15 ≤ op ∧ op ≤ 0x1F) ∨ (0x22 ≤ op ∧ op ≤ 0x2F) ∨ (0x35 ≤ op ∧ op ≤ 0x3F) ∨
        (0x44 ≤ op ∧ op ≤ 0x4F) ∨ (0x54 ≤ op ∧ op ≤ 0x5F) ∨ (0x62 ≤ op ∧ op ≤ 0x6F) ∨ 0x70 ≤ op) ∧
      ((1 : Word) ≠ 0 ∧ (1 : Word).toNat % 2 ^ 28 ≠ 0 ∧ 4 ≤ (4 : Word).toNat ∧ 8 ≤ (8 : Word).toNat ∧
        2 ≤ (2 : Word).toNat) ∧
      (upcoming [.command (0x10#8 ++ 1#32)] State.reset).held = false ∧
      (upcoming [.command (0x10#8 ++ 1#32)] State.reset).fault = 0 ∧ broken.fault ≠ 0 := by decide

theorem wit_StepRunsDecodedCommand :
    (upcoming [.command 0x0200000000] broken).held = false ∧ decode 0x0200000000 = .ok .sreset ∧
      0xFFFFFFFFFF < 2 ^ 40 ∧ decode (BitVec.ofNat 40 0x04FFFFFFFF) = .ok (.setolen 0xFFFFFFFF) ∧
      readReady { linked [] true with held := true } = true ∧ State.reset.inputs = [] := by decide

/-- Between commands, and while an FT.READ holds with a command word waiting before the link step. -/
theorem wit_LinkStepsAsEnabled :
    (linked [] false).held = false ∧ (linked [] false).status.linkup = true ∧ (linked [] false).rxeof = false ∧
      (linked [] true).rxeof = true ∧ State.reset.status.linkup = false ∧
      { linked [0x00] false with held := true }.held = true ∧
      readReady { linked [0x00] false with held := true } = false ∧
      (upcoming [.command 0x5100000000, .link (.deliver 0xAA)] (linked [0x00] false)).inputs =
        [0x5100000000].map Input.command ++ [.link (.deliver 0xAA)] := by decide

/-- Between commands; during a hold; an FT.WRITE abandoned at the last strict prefix; another command abandoned. -/
theorem wit_HardwareResetEffect :
    State.reset.held = false ∧ readReady { linked [] false with held := true } = false ∧
      (linked [] false).fault = 0 ∧ (linked [] false).status.linkup = true ∧ (linked [] false).status.broken = false ∧
      3 < 4 + (linked [] false).pay.length ∧ (0x5000000000 : CmdWord) ≠ 0x5200000000 := by decide

theorem wit_StepKeepsInvariant : ∃ t, step (upcoming [.command 0x0100000011] State.reset) = .next t := ⟨_, rfl⟩

theorem wit_ConstantsNeverChange : ∃ t, step (upcoming [.hardReset] tiny) = .next t := ⟨_, rfl⟩

/-- A command that takes a fault, and an illegal word that does. -/
theorem wit_FatalFaultsArePrecise :
    (State.reset.fault = 0 ∧ ∃ t, exec .scPerm State.reset = .next t ∧ t.fault ≠ 0) ∧
      ∃ t, issue 0xFF00000000 State.reset = .next t ∧ t.fault ≠ 0 :=
  ⟨⟨rfl, _, rfl, by decide⟩, _, rfl, by decide⟩

/-- A refused command, an illegal word, and the registers on both sides of the last one. -/
theorem wit_FaultedModeRefuses :
    broken.fault ≠ 0 ∧ broken.held = false ∧ decode 0x2000000000 = .ok .bcEnc ∧
      decode 0x0000000001 = .error (.reservedBits 0x00) ∧ (0x10 : Word).toNat ≤ 0x10 ∧ 0x10 < (0x11 : Word).toNat := by
  decide

theorem wit_FaultedLeftByResetOnly :
    broken.fault ≠ 0 ∧ ∃ t, step (upcoming [.command 0x0200000000] broken) = .next t ∧ t.fault ≠ broken.fault :=
  ⟨by decide, _, rfl, by decide⟩

theorem wit_TransportErrorsAreNotFatal :
    (∃ t, exec .ftWrite State.reset = .next t ∧ t.responses = State.reset.responses ++ [⟨0x11, 0⟩]) ∧
      ∃ t, exec .ftOpen (linked [] false) = .next t ∧ t.responses = (linked [] false).responses ++ [⟨0x14, 0⟩] :=
  ⟨⟨_, rfl, rfl⟩, _, rfl, rfl⟩

theorem wit_ReadsHaveNoSideEffects :
    (∃ t, exec (.bread 0 0) (loaded hi [] []) = .next t ∧ t.responses = [⟨0x00, 0x48⟩]) ∧
      (∃ t, exec (.rdreg 0x02) broken = .next t ∧ t.responses = [⟨0x00, 0⟩]) ∧
      (∃ t, exec (.lcB2l 3) State.reset = .next t ∧ t.responses = [⟨0x00, 2⟩]) ∧
      ∃ t, exec (.lcL2b 6) State.reset = .next t ∧ t.responses = [⟨0x00, 0⟩] :=
  ⟨⟨_, rfl, rfl⟩, ⟨_, rfl, rfl⟩, ⟨_, rfl, rfl⟩, _, rfl, rfl⟩

/-- FT.OPEN with the link up, RDREG of a register that is not STATUS, and RDREG of STATUS. -/
theorem wit_LinkStepsCommuteWithCommands :
    (linked [] false).status.linkup = true ∧ (∃ t, exec .ftOpen (linked [] false) = .next t) ∧
      Instr.rdreg 0x02 ≠ .rdreg 0x03 ∧ (∃ t, exec (.rdreg 0x02) (linked [] false) = .next t) ∧
      ∃ t, exec (.rdreg 0x03) (linked [] false) = .next t :=
  ⟨by decide, ⟨_, rfl⟩, by decide, ⟨_, rfl⟩, _, rfl⟩

theorem wit_TxoutIsAppendOnly :
    ∃ t, step (upcoming [.command 0x5000000000] { State.reset with openDraws := [true], txout := [0xAA] }) = .next t ∧
      t.txout = [] := ⟨_, rfl, rfl⟩

theorem wit_NopSetseedSetolen : State.reset.fault = 0 ∧ (0xFFFFFFFF : Word) ≠ 0 := by decide

theorem wit_RdregReadsEveryRegister : 0x10 < (0x11 : Word).toNat ∧ State.reset.fault = 0 ∧ broken.fault ≠ 0 := by decide

theorem wit_SresetResets : broken.fault ≠ 0 ∧ ∃ t, exec .sreset broken = .next t ∧ t.fault = 0 :=
  ⟨by decide, _, rfl, rfl⟩

/-- Each clause at its boundary: ids 4 and 5; data 255 and 256, 1 and 2, 0xFFF and 0x1000; a buffer full and not. -/
theorem wit_BpushAppendsOrRejects :
    4 < 5 ∧ (0, Buf.txt, 255, 1024) ∈ bufRows State.reset ∧ (1, Buf.key, 255, 256) ∈ bufRows State.reset ∧
      (2, Buf.bit, 1, 8192) ∈ bufRows State.reset ∧ (3, Buf.sym, 0xFFF, 1024) ∈ bufRows State.reset ∧
      (4, Buf.pay, 255, 65536) ∈ bufRows State.reset ∧ lenOf State.reset .pay ≠ 65536 ∧
      (0, Buf.txt, 255, 1) ∈ bufRows { tiny with txt := [0x41] } ∧ lenOf { tiny with txt := [0x41] } .txt = 1 := by
  decide

theorem wit_BreadReadsOrRejects :
    (loaded hi [0x6B] [true]).fault = 0 ∧ (loaded hi [0x6B] [true]).txt[1]? = some 0x69 ∧
      (loaded hi [0x6B] [true]).key[0]? = some 0x6B ∧ (loaded hi [0x6B] [true]).bit[0]? = some true ∧
      { State.reset with sym := [0xD91] }.sym[0]? = some 0xD91 ∧ { State.reset with pay := [0xAA] }.pay[0]? = some 0xAA ∧
      lenOf (loaded hi [0x6B] [true]) .txt ≤ 2 ∧ (0, Buf.txt, 255, 1024) ∈ bufRows (loaded hi [0x6B] [true]) ∧
      broken.fault ≠ 0 := by decide

theorem wit_TruncationsKeepAPrefix :
    15 < 2 ^ 4 ∧ State.reset.fault = 0 ∧ (4, Buf.pay, 255, 65536) ∈ bufRows State.reset ∧
      (2, Buf.bit, 1, 8192) ∈ bufRows State.reset := by decide

theorem wit_BcEncExpandsText : (loaded hi [] []).fault = 0 ∧ 15 < 8 * (loaded hi [] []).txt.length := by decide

theorem wit_BcDecPacksBits :
    (loaded [] [] (bitsOf 7 0)).bit.length % 8 ≠ 0 ∧ (loaded [] [] (bitsOf 8 0)).bit.length % 8 = 0 := by decide

theorem wit_BitCodecRoundTrips : (loaded hi [] (bitsOf 16 5)).fault = 0 ∧ (bitsOf 16 5).length % 8 = 0 := by decide

theorem wit_ScXor :
    State.reset.key = [] ∧ (loaded [] [0x6B] [true]).key ≠ [] ∧ (loaded [] [0x6B] [true]).fault = 0 ∧
      (loaded [] [0x6B] [true]).bit[0]? = some true := by decide

/-- SC.PERM, SC.UNPERM and RotationsAreInverse: the empty string and a string of length 1. -/
theorem wit_Rotations : State.reset.bit = [] ∧ (loaded [] [] [true]).bit ≠ [] ∧ (loaded [] [] [true]).fault = 0 := by
  decide

/-- SC.ENCRYPT and DecryptAfterEncrypt. -/
theorem wit_ScEncryptText :
    State.reset.key = [] ∧ (loaded [] [0x6B] []).key ≠ [] ∧ (loaded [] [0x6B] []).txt = [] ∧
      (loaded hi [0x6B] []).key ≠ [] ∧ (loaded hi [0x6B] []).txt ≠ [] ∧ (loaded hi [0x6B] []).fault = 0 := by decide

theorem wit_ScDecryptBits :
    State.reset.bit = [] ∧ (loaded [] [] [true]).bit ≠ [] ∧ (loaded [] [] [true]).key = [] ∧
      (loaded [] [0x6B] [true]).key ≠ [] ∧ (loaded [] [0x6B] [true]).bit.length % 8 ≠ 0 ∧
      (loaded [] [0x6B] (bitsOf 8 1)).bit.length % 8 = 0 ∧ (loaded [] [0x6B] (bitsOf 8 1)).bit[7]? = some true := by
  decide

theorem wit_LcEncMapsPairs : (loaded [] [] [true]).fault = 0 ∧ 0 < (lcEncode [true]).length := by decide

/-- A sequence whose lanes are all valid: also the witness of LineCoderRoundTrips. -/
theorem wit_LcDecMapsLanes :
    { State.reset with sym := [0xD91] }.fault = 0 ∧
      ∀ j k, j < [(0xD91 : SymWord)].length → k < 4 → CodeDefined (laneNumber ([(0xD91 : SymWord)].getD j 0) k) := by
  refine ⟨rfl, fun j k hj hk => ?_⟩
  obtain rfl : j = 0 := by simpa using hj
  obtain rfl | rfl | rfl | rfl : k = 0 ∨ k = 1 ∨ k = 2 ∨ k = 3 := by omega
  all_goals decide

/-- The first bad lane is the last lane of the word, every lane before it valid. -/
theorem wit_LcDecFaults :
    ¬ CodeDefined (laneNumber ([(0xD90 : SymWord)].getD 0 0) 3) ∧
      ∀ j' k', k' < 4 → 4 * j' + k' < 4 * 0 + 3 → CodeDefined (laneNumber ([(0xD90 : SymWord)].getD j' 0) k') := by
  refine ⟨by decide, fun j k hk h => ?_⟩
  obtain rfl : j = 0 := by omega
  obtain rfl | rfl | rfl : k = 0 ∨ k = 1 ∨ k = 2 := by omega
  all_goals decide

theorem wit_LevelLookUps :
    State.reset.fault = 0 ∧ (3, 2) ∈ [((0 : BitPair), (6 : Word)), (1, 1), (2, 7), (3, 2)] ∧
      (5 : LevelCode) ∈ [(0 : LevelCode), 3, 4, 5] := by decide

theorem wit_LevelTableIsBijective : CodeDefined (0b110 : LevelCode).toNat ∧ ¬ CodeDefined (0b000 : LevelCode).toNat := by
  decide

/-- An empty frame, a frame of one byte, and the first byte of a third. -/
theorem wit_FrameStreamSplitsOneWay :
    (∀ p ∈ [([] : List Byte), [0xAA]], p.length < 2 ^ 32 ∧ p.length ≤ State.reset.params.pmax) ∧
      [([] : List Byte), [0xAA]].flatMap frame ++ [0x01] =
        (linked [0x00, 0x00, 0x00, 0x00, 0x00, 0x00, 0x00, 0x01, 0xAA, 0x01] false).rxfifo ∧
      (linked [] false).fault = 0 ∧ (linked [] false).params.InBounds :=
  ⟨by decide, by decide, by decide, reset_in_bounds⟩

theorem wit_FtOpenAttaches :
    (linked [] false).status.linkup = true ∧ State.reset.status.linkup = false ∧ State.reset.fault = 0 ∧
      { State.reset with openDraws := [false] }.openDraws = [false] := by decide

theorem wit_FtCloseDetaches : (linked [0x01] true).fault = 0 := by decide

/-- A whole frame accepted, and one byte less. -/
theorem wit_FtWriteSendsFrame :
    State.reset.status.linkup = false ∧ (linked [] false).status.linkup = true ∧
      (linked [] false).status.broken = false ∧
      { linked [] false with status := { Status.clear with linkup := true, broken := true } }.status.broken = true ∧
      min 4 (4 + (linked [] false).pay.length) = 4 + (linked [] false).pay.length ∧
      min 3 (4 + (linked [] false).pay.length) < 4 + (linked [] false).pay.length := by decide

/-- The length prefix complete or one byte short, the payload complete, one byte short or absent, and the first oversize
length. -/
theorem wit_FtReadOutcomes :
    (linked [] false).params.InBounds ∧ (linked [] false).fault = 0 ∧ (linked [] false).status.linkup = true ∧
      (linked [] false).status.broken = false ∧
      [0x00, 0x00, 0x00, 0x00] = bytesBE ([] : List Byte).length ++ [] ++ ([] : List Byte) ∧
      [0x00, 0x01, 0x00, 0x01] = bytesBE 65537 ++ ([] : List Byte) ∧ 65537 < 2 ^ 32 ∧
      (linked [] false).params.pmax < 65537 ∧ (linked [0x00, 0x00, 0x00] true).rxfifo.length < 4 ∧
      (linked [0x00, 0x00, 0x00] true).rxeof = true ∧
      [0x00, 0x00, 0x00, 0x01] = bytesBE 1 ++ ([] : List Byte) ∧ ([] : List Byte).length < 1 :=
  ⟨reset_in_bounds, by decide⟩

/-- An FT.READ that holds with two bytes of a frame, and the two link steps that bring the rest. -/
theorem wit_HeldReadCompletesWhenFrameArrives :
    { linked [0x00, 0x00] false with held := true }.held = true ∧ (linked [0x00, 0x00] false).params.InBounds ∧
      (linked [0x00, 0x00] false).rxfifo ++ [0x00, 0x01, 0xAA] = bytesBE [(0xAA : Byte)].length ++ [0xAA] ∧
      [(0xAA : Byte)].length ≤ (linked [0x00, 0x00] false).params.pmax :=
  ⟨by decide, reset_in_bounds, by decide, by decide⟩

theorem wit_HeldReadBlocksCommands :
    { linked [] false with held := true }.held = true ∧ readReady { linked [] false with held := true } = false ∧
      ∃ t, step (upcoming [.command 0, .hardReset] { linked [] false with held := true }) = .next t :=
  ⟨by decide, by decide, _, rfl⟩

/-- The largest payload that fits the smallest PAY, and the smallest that does not. -/
theorem wit_MsgPackSerializes :
    19 = 19 + 2 * tiny.sym.length + tiny.key.length + (if false = true then 5 + tiny.txt.length else 0) ∧
      19 ≤ tiny.params.pmax ∧
      tiny.params.pmax < 19 + 2 * tiny.sym.length + tiny.key.length + (if true = true then 5 + tiny.txt.length else 0) := by
  decide

/-- A payload that fits; and one whose symbols do not, the words of a Message with two symbols where one fits. -/
theorem wit_MsgUnpackParses :
    pay22 = payloadBytes [0xD91] [0x6B] 8 none ∧ MessageFits State.reset.params [0xD91] [0x6B] none ∧
      MessageFits tiny.params [0xD91] [0x6B] none ∧ ¬ MessageFits tiny.params [0xD91, 0xD91] [0x6B] none := by decide

/-- A PAY that is no payload of any Message: it is empty. -/
theorem wit_MsgUnpackRejects :
    ∀ ws k n m, State.reset.pay = payloadBytes ws k n m → ¬ MessageFits State.reset.params ws k m := by
  intro ws k n m h
  simp [State.reset, payloadBytes, fieldBytes] at h

/-- The payload of V-S8's second Message, text "Hi" and key "k" without originalMessage: SYM = [0x38F, 0xD8E], OLEN = 16. -/
def payHi : List Byte :=
  [0x01, 0x00, 0x00, 0x00, 0x04, 0x03, 0x8F, 0x0D, 0x8E, 0x02, 0x00, 0x00, 0x00, 0x01, 0x6B] ++
    [0x03, 0x00, 0x00, 0x00, 0x04, 0x00, 0x00, 0x00, 0x10]

/-- Its frame, 4 + 24 bytes. -/
def frameHi : List Byte := [0x00, 0x00, 0x00, 0x18] ++ payHi

/-- R186 on V-S8's second Message: the sender's commands put its frame on TXOUT. -/
theorem test_sender :
    ∃ t, execAll (senderCommands hi [0x6B] false) { linked [] false with writeDraws := [28] } = .next t ∧
      t.fault = 0 ∧ t.txout = frameHi := ⟨_, rfl, by decide, by decide⟩

/-- R187 on it: the receiver delivers "Hi", and its next turn is the clean exit of status 0x20. -/
theorem test_receiver :
    ∃ t, receiveFrames 2 (linked frameHi true) = .next ([hi], .closed, t) ∧ t.txt = hi := ⟨_, rfl, by decide⟩

/-- R187: the receiver stops at an oversize frame (0x13), waits where FT.READ holds, and has unpacked nothing. -/
theorem test_receiver_stops :
    (∃ t, receiveFrames 1 { linked [0xFF, 0xFF, 0xFF, 0xFF] false with pay := payHi } =
      .next ([], .reported 0x13, t) ∧ t.sym = []) ∧
      ∃ t, receiveFrames 1 (linked [0x00] false) = .next ([], .waiting, t) ∧ t.held = true :=
  ⟨⟨_, rfl, by decide⟩, _, rfl, by decide⟩

theorem linked_inv (q : List Byte) (draws : List Nat) : StateInv { linked q false with writeDraws := draws } := by
  constructor
  case params => exact reset_in_bounds
  case downEmpty => intro h; cases h
  all_goals simp [linked, State.reset, Status.clear, Params.default]

/-- The sender of "Hi" with key "k", and a receiver with the bytes it sends at the front of RXFIFO, more behind them. -/
theorem wit_ReceiverRecoversSentText :
    StateInv { linked [] false with writeDraws := [28] } ∧ (linked [] false).fault = 0 ∧
      (linked [] false).status.linkup = true ∧ (linked [] false).status.broken = false ∧
      hi.length ≤ State.reset.params.tmax ∧ 4 + (19 + 2 * hi.length + [(0x6B : Byte)].length) ≤ 28 ∧
      StateInv { linked (frameHi ++ [0x00]) false with writeDraws := [] } ∧
      (linked (frameHi ++ [0x00]) false).rxfifo = frameHi ++ [0x00] ∧
      ∃ t, receiveFrame (linked (frameHi ++ [0x00]) false) = .next (.values [0x48, 0x69], t) ∧ t.rxfifo = [0x00] :=
  ⟨linked_inv _ _, by decide, by decide, by decide, by decide, by decide, linked_inv _ _, rfl, _, rfl, by decide⟩

/-- A closed stream, an oversize length, a link that has failed, a hold; and a hold that completes. -/
theorem wit_ReceiverStopsWhereReadStops :
    (∃ t v, Answers .ftRead (linked [] true) t 0x20 v) ∧
      (∃ t, Answers .ftRead (linked [0xFF, 0xFF, 0xFF, 0xFF] false) t 0x13 0) ∧
      (∃ t, Answers .ftRead
        { linked [] false with status := { Status.clear with linkup := true, broken := true } } t 0x12 0) ∧
      readReady (linked [] false) = false ∧
      readReady { linked frameHi false with held := true } = true ∧
      ∃ t, step { linked frameHi false with held := true } = .next t :=
  ⟨⟨_, _, rfl⟩, ⟨_, rfl⟩, ⟨_, rfl⟩, by decide, by decide, _, rfl⟩

end Sys2Proof.Tests
end

section
/-! PROOFS. R30: the parameters outlive every shared update, every command and every step, and the four constant
registers read them in both modes. -/

namespace Sys2Proof.Machine

/-! ## The parameters after the updates the commands and the link agents make -/

@[simp] theorem pushElem_params (b : Buf) (d : Nat) (s : State) : (pushElem b d s).params = s.params := by
  rw [pushElem_frame]

@[simp] theorem truncBuf_params (b : Buf) (n : Nat) (s : State) : (truncBuf b n s).params = s.params := by
  rw [truncBuf_frame]

@[simp] theorem openWith_params (ok : Bool) (s : State) : (openWith ok s).params = s.params := by
  cases ok <;> rfl

@[simp] theorem writeWith_params (k : Nat) (s : State) : (writeWith k s).params = s.params := by
  unfold writeWith; split <;> simp

@[simp] theorem readOversize_params (n : Nat) (s : State) : (readOversize n s).params = s.params := rfl

@[simp] theorem readComplete_params (n : Nat) (s : State) : (readComplete n s).params = s.params := rfl

@[simp] theorem readClosed_params (n cnt : Nat) (torn : Bool) (s : State) :
    (readClosed n cnt torn s).params = s.params := rfl

@[simp] theorem unpackTo_params (m : Message) (s : State) : (unpackTo m s).params = s.params := rfl

@[simp] theorem illegalWord_params (op : BitVec 8) (s : State) : (illegalWord op s).params = s.params := by
  obtain ⟨-, e⟩ | ⟨-, e⟩ := inRunMode_cases s (raiseFatal .illegalCommand (op.setWidth 32) s) <;>
    simp [illegalWord, e]

@[simp] theorem linkStep_params (e : LinkStep) (s : State) : (linkStep e s).params = s.params := by
  cases e <;> simp only [linkStep] <;> split <;> rfl

@[simp] theorem abandon_params (w : CmdWord) (k : Nat) (s : State) : (abandon w k s).params = s.params := rfl

/-! ## The parameters after a command and after a step -/

theorem exec_params {i : Instr} {s t : State} (h : exec i s = .next t) : t.params = s.params := by
  cases exec_effect h <;> simp

/-- R30, resets included. -/
theorem step_params {s t : State} (h : step s = .next t) : t.params = s.params := by
  obtain ⟨-, hr⟩ | ⟨-, -, rfl⟩ | ⟨-, rest, hacts⟩ := step_cases h
  · exact exec_params hr
  · rfl
  · obtain ⟨w, i, -, -, hx⟩ | ⟨w, e, -, -, rfl⟩ | ⟨e, -, rfl⟩ | ⟨-, rfl⟩ | ⟨w, k, -, rfl⟩ := hacts
    · exact (exec_params hx :)
    · exact illegalWord_params _ _
    · exact linkStep_params _ _
    · exact resetState_params _
    · exact abandon_params _ _ _

/-! ## Reading a register -/

/-- RDREG of a register answers what it reads, in both modes (R102). -/
theorem exec_rdreg_of_readReg {s : State} {a v : Word} (h : readReg s a = some v) :
    exec (.rdreg a) s = .next (respond 0x00 v s) := by
  simp [exec, execRdreg, h]

end Sys2Proof.Machine

namespace Sys2Proof.Proofs

open Sys2Proof.Machine Sys2Proof.Claims

/-- The four constant registers and what they read under the parameters `p` (R30, R36). -/
def constantRegisters (p : Params) : List (Word × Word) :=
  [(0x0D, BitVec.ofNat 32 p.tmax), (0x0E, BitVec.ofNat 32 p.kmax), (0x0F, BitVec.ofNat 32 p.pmax), (0x10, 0x00000001)]

theorem readReg_of_mem_constantRegisters {s : State} {a v : Word} (h : (a, v) ∈ constantRegisters s.params) :
    readReg s a = some v := by
  simp only [constantRegisters, List.mem_cons, Prod.mk.injEq, List.not_mem_nil, or_false] at h
  obtain ⟨rfl, rfl⟩ | ⟨rfl, rfl⟩ | ⟨rfl, rfl⟩ | ⟨rfl, rfl⟩ := h <;> rfl

theorem answers_of_mem_constantRegisters {s : State} {a v : Word} (h : (a, v) ∈ constantRegisters s.params) :
    Answers (.rdreg a) s s 0x00 v :=
  exec_rdreg_of_readReg (readReg_of_mem_constantRegisters h)

/-- Settles O14: no step writes the parameters, and RDREG reads the constants from them alone. -/
theorem constantsNeverChange : Obligations.ConstantsNeverChange := by
  intro s t h
  have hp : t.params = s.params := step_params h
  refine ⟨hp, fun a v hav => ⟨answers_of_mem_constantRegisters hav, answers_of_mem_constantRegisters ?_⟩⟩
  rw [hp]
  exact hav

end Sys2Proof.Proofs
end

section
/-! PROOFS. R85: the words the decoder rejects, by undefined opcode and by reserved argument bits, and the step that
answers such a word. -/

namespace Sys2Proof

/-! ## The rejections of the decoder (R74, R85) -/

/-- The opcodes of format Z, whose argument is reserved whole (R72, R84). -/
def formatZOpcodes : List Nat :=
  [0x00, 0x02, 0x14, 0x20, 0x21, 0x30, 0x31, 0x32, 0x33, 0x34, 0x40, 0x41, 0x50, 0x51, 0x52, 0x53, 0x61]

/-- The opcodes some row of the opcode map has (R84). -/
def definedOpcodes : List Nat := opcodeMap.map fun r => (opOf r.pattern).toNat

theorem definedOpcodes_eq : definedOpcodes =
    [0x00, 0x01, 0x02, 0x03, 0x04, 0x10, 0x11, 0x12, 0x13, 0x14, 0x20, 0x21, 0x30, 0x31, 0x32, 0x33, 0x34,
      0x40, 0x41, 0x42, 0x43, 0x50, 0x51, 0x52, 0x53, 0x60, 0x61] := by decide

theorem datumOf_eq_mod (arg : Word) : datumOf arg = arg.toNat % 2 ^ 28 := by
  simp [datumOf, BitVec.extractLsb'_toNat]

theorem whenReservedZero_of_not {op : BitVec 8} {p : Prop} [Decidable p] (i : Instr) (h : ¬ p) :
    whenReservedZero op (decide p) i = .error (.reservedBits op) := by
  simp [whenReservedZero, h]

theorem decodeFields_of_undefined {op : BitVec 8} (arg : Word) (h : op.toNat ∉ definedOpcodes) :
    decodeFields op arg = .error (.undefinedOpcode op) := by
  unfold decodeFields
  split
  case h_28 => rfl
  all_goals
    next hop => exact absurd (by rw [hop]; decide) h

theorem decodeFields_formatZ {op : BitVec 8} (arg : Word) (h : op.toNat ∈ formatZOpcodes) :
    ∃ i, decodeFields op arg = whenReservedZero op (decide (arg = 0)) i := by
  simp only [formatZOpcodes, List.mem_cons, List.not_mem_nil, or_false] at h
  rcases h with h | h | h | h | h | h | h | h | h | h | h | h | h | h | h | h | h <;>
    exact ⟨_, by rw [decodeFields, h]; rfl⟩

theorem decodeFields_bclr {op : BitVec 8} (arg : Word) (h : op.toNat = 0x10) :
    decodeFields op arg = whenReservedZero op (decide (datumOf arg = 0)) (.bclr (bufOf arg)) := by
  rw [decodeFields, h]; rfl

theorem decodeFields_lcB2l {op : BitVec 8} (arg : Word) (h : op.toNat = 0x42) :
    decodeFields op arg = whenReservedZero op (decide (arg.toNat < 4)) (.lcB2l (arg.setWidth 2)) := by
  rw [decodeFields, h]; rfl

theorem decodeFields_lcL2b {op : BitVec 8} (arg : Word) (h : op.toNat = 0x43) :
    decodeFields op arg = whenReservedZero op (decide (arg.toNat < 8)) (.lcL2b (arg.setWidth 3)) := by
  rw [decodeFields, h]; rfl

theorem decodeFields_msgPack {op : BitVec 8} (arg : Word) (h : op.toNat = 0x60) :
    decodeFields op arg = whenReservedZero op (decide (arg.toNat < 2)) (.msgPack (arg.getLsbD 0)) := by
  rw [decodeFields, h]; rfl

end Sys2Proof

namespace Sys2Proof.Machine

/-! ## The step on a word the decoder rejects (R74, R100) -/

theorem illegalWord_run {s : State} (op : BitVec 8) (h : s.fault = 0) :
    illegalWord op s = raiseFatal .illegalCommand (op.setWidth 32) s := inRunMode_run h

theorem illegalWord_faulted {s : State} (op : BitVec 8) (h : s.fault ≠ 0) :
    illegalWord op s = respond 0x0F s.fault s := inRunMode_faulted h

theorem step_of_decode_error {s : State} {w : CmdWord} {rest : List Input} {e : DecodeError} (hheld : s.held = false)
    (hin : s.inputs = .command w :: rest) (hdec : decode w = .error e) :
    step s = .next (illegalWord (opOf w) { s with inputs := rest }) := by
  simp [step, readCompletes, nextInput, accept, issue, hheld, hin, hdec]

end Sys2Proof.Machine

namespace Sys2Proof.Proofs

open Sys2Proof.Machine Sys2Proof.Claims

/-- An opcode between two rows of the opcode map, or above the last one (R85). -/
def InOpcodeGap (n : Nat) : Prop :=
  (0x05 ≤ n ∧ n ≤ 0x0F) ∨ (0x15 ≤ n ∧ n ≤ 0x1F) ∨ (0x22 ≤ n ∧ n ≤ 0x2F) ∨ (0x35 ≤ n ∧ n ≤ 0x3F) ∨
    (0x44 ≤ n ∧ n ≤ 0x4F) ∨ (0x54 ≤ n ∧ n ≤ 0x5F) ∨ (0x62 ≤ n ∧ n ≤ 0x6F) ∨ 0x70 ≤ n

theorem not_mem_definedOpcodes {n : Nat} (h : InOpcodeGap n) : n ∉ definedOpcodes := by
  simp only [InOpcodeGap] at h
  simp only [definedOpcodes_eq, List.mem_cons, List.not_mem_nil, or_false]
  omega

/-- The argument has a bit set that the format of its opcode reserves (R72, R85). -/
def ReservedBitsSet (op : BitVec 8) (arg : Word) : Prop :=
  (op.toNat ∈ formatZOpcodes ∧ arg ≠ 0) ∨ (op.toNat = 0x10 ∧ arg.toNat % 2 ^ 28 ≠ 0) ∨
    (op.toNat = 0x42 ∧ 4 ≤ arg.toNat) ∨ (op.toNat = 0x43 ∧ 8 ≤ arg.toNat) ∨ (op.toNat = 0x60 ∧ 2 ≤ arg.toNat)

theorem decodeFields_of_reservedBitsSet {op : BitVec 8} {arg : Word} (h : ReservedBitsSet op arg) :
    decodeFields op arg = .error (.reservedBits op) := by
  rcases h with ⟨hop, harg⟩ | ⟨hop, harg⟩ | ⟨hop, harg⟩ | ⟨hop, harg⟩ | ⟨hop, harg⟩
  · obtain ⟨i, hi⟩ := decodeFields_formatZ arg hop
    rw [hi, whenReservedZero_of_not i harg]
  · rw [decodeFields_bclr arg hop, datumOf_eq_mod, whenReservedZero_of_not _ harg]
  · rw [decodeFields_lcB2l arg hop, whenReservedZero_of_not _ (Nat.not_lt.mpr harg)]
  · rw [decodeFields_lcL2b arg hop, whenReservedZero_of_not _ (Nat.not_lt.mpr harg)]
  · rw [decodeFields_msgPack arg hop, whenReservedZero_of_not _ (Nat.not_lt.mpr harg)]

/-- Settles O6: a reserved word has an undefined opcode or a reserved bit set, so the decoder rejects it, and the step
answers every rejected word alike. -/
theorem reservedWordsAreIllegal : Obligations.ReservedWordsAreIllegal := by
  intro s op arg rest hheld hin hres
  have hcases : InOpcodeGap op.toNat ∨ ReservedBitsSet op arg := by
    simpa only [InOpcodeGap, ReservedBitsSet, formatZOpcodes, or_assoc] using hres
  have hdec : ∃ e, decode (op ++ arg) = .error e := by
    rw [decode_append]
    rcases hcases with hgap | hbits
    · exact ⟨_, decodeFields_of_undefined arg (not_mem_definedOpcodes hgap)⟩
    · exact ⟨_, decodeFields_of_reservedBitsSet hbits⟩
  obtain ⟨e, he⟩ := hdec
  have hstep := step_of_decode_error hheld hin he
  rw [opOf_append] at hstep
  constructor
  · intro hrun
    exact hstep.trans (congrArg Host.Outcome.next (illegalWord_run op hrun))
  · intro hfaulted
    exact hstep.trans (congrArg Host.Outcome.next (illegalWord_faulted op hfaulted))

end Sys2Proof.Proofs
end

section
/-! PROOFS. R106 to R110: the words of the buffer commands, what each of them does on a buffer that exists and on a
reserved id, and from these the statements about pushing, reading and truncating. -/

namespace Sys2Proof.Machine

/-! ## The words of formats B and BZ (R70, R72) -/

theorem encode_toNat (i : Instr) : (encode i).toNat = (opcode i).toNat * 2 ^ 32 + (argument i).toNat :=
  toNat_append _ _

theorem bufArg_toNat {buf d : Nat} (hbuf : buf < 2 ^ 4) (hd : d < 2 ^ 28) :
    (bufArg buf d).toNat = buf * 2 ^ 28 + d := by
  rw [bufArg, toNat_append, BitVec.toNat_ofNat, BitVec.toNat_ofNat, Nat.mod_eq_of_lt hbuf, Nat.mod_eq_of_lt hd]

/-- A command whose argument is a buffer id and a datum (R72). -/
theorem encode_toNat_of_bufArg {i : Instr} {buf d : Nat} (harg : argument i = bufArg buf d) (hbuf : buf < 2 ^ 4)
    (hd : d < 2 ^ 28) : (encode i).toNat = (opcode i).toNat * 2 ^ 32 + buf * 2 ^ 28 + d := by
  rw [encode_toNat, harg, bufArg_toNat hbuf hd, Nat.add_assoc]

/-! ## Elements and text buffers -/

/-- The text buffers are those with ids 0 and 1 (R21, R106). -/
theorem isText_iff (b : Buf) : isText b = true ↔ bufId b ≤ 1 := by
  cases b <;> decide

theorem wmaxOf_of_isText {b : Buf} : isText b = true → wmaxOf b = 255 := by
  cases b <;> decide

/-- An element at its width, read into a register word (R108). -/
theorem map_setWidth_of_getElem? {w d : Nat} {l : List (BitVec w)} {x : BitVec w} (h : l[d]? = some x) :
    l[d]?.map (·.setWidth 32) = some (BitVec.ofNat 32 x.toNat) := by
  rw [h, Option.map_some, BitVec.ofNat_toNat]

theorem bitWord_eq_ofNat (x : Bool) : bitWord x = BitVec.ofNat 32 x.toNat := by
  cases x <;> rfl

/-! ## BPUSH's checks on a buffer that exists, in their order (R106) -/

theorem pushChecked_of_wide_text {b : Buf} {d : Nat} {s : State} (htext : bufId b ≤ 1) (hd : wmaxOf b < d) :
    pushChecked b d s = raiseFatal .encoding (lenWord d) s := by
  have hb : isText b = true := (isText_iff b).mpr htext
  rw [wmaxOf_of_isText hb] at hd
  exact if_pos (by simp [hb, hd])

theorem pushChecked_of_wide {b : Buf} {d : Nat} {s : State} (hnot : 2 ≤ bufId b) (hd : wmaxOf b < d) :
    pushChecked b d s = raiseFatal .illegalCommand 0x11 s := by
  have htext : ¬ isText b = true := by rw [isText_iff]; omega
  exact (if_neg (by simp [htext])).trans (if_pos hd)

/-- A datum of the buffer's width passes the checks on the datum: what is left is the capacity. -/
theorem pushChecked_of_fits {b : Buf} {d : Nat} {s : State} (hd : d ≤ wmaxOf b) :
    pushChecked b d s =
      if lenOf s b = capOf s.params b then raiseFatal .capacity (lenWord (bufId b)) s
      else respond 0x00 (lenWord (lenOf s b + 1)) (pushElem b d s) := by
  have htext : ¬ (isText b && decide (255 < d)) = true := by
    intro h
    obtain ⟨hb, hwide⟩ : isText b = true ∧ 255 < d := by simpa using h
    rw [wmaxOf_of_isText hb] at hd
    omega
  exact (if_neg htext).trans (if_neg (Nat.not_lt.mpr hd))

/-! ## What each command does in RUN mode -/

section
variable {s : State} (hf : s.fault = 0)
include hf

theorem exec_bpush_reserved {buf : Nat} (d : Nat) (h : 4 < buf) :
    exec (.bpush buf d) s = .next (raiseFatal .illegalCommand 0x11 s) :=
  (next_inRunMode hf).trans (by rw [bufOfId_reserved h])

theorem exec_bread_reserved {buf : Nat} (d : Nat) (h : 4 < buf) :
    exec (.bread buf d) s = .next (raiseFatal .illegalCommand 0x12 s) :=
  (next_inRunMode hf).trans (by rw [bufOfId_reserved h])

theorem exec_bclr_reserved {buf : Nat} (h : 4 < buf) :
    exec (.bclr buf) s = .next (raiseFatal .illegalCommand 0x10 s) :=
  (next_inRunMode hf).trans (by rw [bufOfId_reserved h])

theorem exec_btrunc_reserved {buf : Nat} (d : Nat) (h : 4 < buf) :
    exec (.btrunc buf d) s = .next (raiseFatal .illegalCommand 0x13 s) :=
  (next_inRunMode hf).trans (by rw [bufOfId_reserved h])

theorem exec_bpush_bufId (b : Buf) (d : Nat) : exec (.bpush (bufId b) d) s = .next (pushChecked b d s) :=
  (next_inRunMode hf).trans (by rw [bufOfId_bufId])

theorem exec_bread_of_readElem {b : Buf} {d : Nat} {v : Word} (h : readElem s b d = some v) :
    exec (.bread (bufId b) d) s = .next (respond 0x00 v s) :=
  (next_inRunMode hf).trans (by rw [bufOfId_bufId]; simp only [h]; rfl)

theorem exec_bread_bounds {b : Buf} {d : Nat} (h : lenOf s b ≤ d) :
    exec (.bread (bufId b) d) s = .next (raiseFatal .bounds (lenWord d) s) :=
  (next_inRunMode hf).trans (by rw [bufOfId_bufId]; simp only [readElem_eq_none h])

/-- BCLR is the truncation to length 0 (R107). -/
theorem exec_bclr_bufId (b : Buf) :
    exec (.bclr (bufId b)) s = .next (respond 0x00 (lenWord (min (lenOf s b) 0)) (truncBuf b 0 s)) :=
  (next_inRunMode hf).trans (by rw [bufOfId_bufId, Nat.min_zero]; rfl)

theorem exec_btrunc_bufId (b : Buf) (n : Nat) :
    exec (.btrunc (bufId b) n) s = .next (respond 0x00 (lenWord (min (lenOf s b) n)) (truncBuf b n s)) :=
  (next_inRunMode hf).trans (by rw [bufOfId_bufId]; rfl)

/-- BTRUNCO is the truncation of BIT to OLEN (R110). -/
theorem exec_btrunco :
    exec .btrunco s =
      .next (respond 0x00 (lenWord (min (lenOf s .bit) s.olen.toNat)) (truncBuf .bit s.olen.toNat s)) :=
  next_inRunMode hf

end

end Sys2Proof.Machine

namespace Sys2Proof.Proofs

open Sys2Proof.Machine Sys2Proof.Claims

/-- The rows of R21 and R79 as the statements list them are the model's own tables. -/
theorem eq_of_mem_bufRows {s : State} {buf wm cap : Nat} {b : Buf} (h : (buf, b, wm, cap) ∈ bufRows s) :
    buf = bufId b ∧ wm = wmaxOf b ∧ cap = capOf s.params b := by
  simp only [List.mem_cons, Prod.mk.injEq, List.not_mem_nil, or_false] at h
  obtain ⟨rfl, rfl, rfl, rfl⟩ | ⟨rfl, rfl, rfl, rfl⟩ | ⟨rfl, rfl, rfl, rfl⟩ | ⟨rfl, rfl, rfl, rfl⟩ |
    ⟨rfl, rfl, rfl, rfl⟩ := h <;> exact ⟨rfl, rfl, rfl⟩

/-- Settles O26: on a buffer that exists BPUSH is `pushChecked`, whose checks are taken in order, and the push is read
back element by element. -/
theorem bpushAppendsOrRejects : Obligations.BpushAppendsOrRejects := by
  refine ⟨fun buf d => encode_toNat_of_bufArg rfl, fun s buf d hf => ⟨exec_bpush_reserved hf d, ?_⟩⟩
  intro b wm cap hrow
  obtain ⟨rfl, rfl, rfl⟩ := eq_of_mem_bufRows hrow
  have hexec : exec (.bpush (bufId b) d) s = .next (pushChecked b d s) := exec_bpush_bufId hf b d
  refine ⟨fun htext hd => ?_, fun hnot hd => ?_, fun hd hfull => ?_, fun hd hroom => ?_⟩
  · rw [RaisesFatal, Answers, hexec, pushChecked_of_wide_text htext hd]; rfl
  · rw [RaisesFatal, Answers, hexec, pushChecked_of_wide hnot hd]; rfl
  · rw [RaisesFatal, Answers, hexec, pushChecked_of_fits hd, if_pos hfull]; rfl
  · have hread : ∀ b' i, readElem (pushElem b d s) b' i =
        if b' = b ∧ i = lenOf s b then some (BitVec.ofNat 32 d) else readElem s b' i :=
      fun b' i => readElem_pushElem b b' d i s hd
    refine ⟨pushElem b d s, ?_, ?_, ?_, fun b' i hne => ?_, fun b' hne => ?_, pushElem_frame b d s⟩
    · rw [Answers, hexec, pushChecked_of_fits hd, if_neg hroom]; rfl
    · rw [hread, if_pos ⟨rfl, rfl⟩]
    · rw [lenOf_pushElem, if_pos rfl]
    · rw [hread, if_neg (fun h => hne (Prod.ext h.1 h.2))]
    · rw [lenOf_pushElem, if_neg hne]

/-- Settles O27: BREAD is `readElem`, which has an element exactly below the length. -/
theorem breadReadsOrRejects : Obligations.BreadReadsOrRejects := by
  refine ⟨fun buf d => encode_toNat_of_bufArg rfl,
    fun s buf d hfaulted => congrArg Host.Outcome.next (inRunMode_faulted hfaulted), fun s d hf => ?_⟩
  have hread : ∀ {b : Buf} {v : Word}, readElem s b d = some v → Answers (.bread (bufId b) d) s s 0x00 v :=
    exec_bread_of_readElem hf
  refine ⟨fun x hx => hread (b := .txt) (map_setWidth_of_getElem? hx),
    fun x hx => hread (b := .key) (map_setWidth_of_getElem? hx), fun x hx => hread (b := .bit) ?_,
    fun x hx => hread (b := .sym) (map_setWidth_of_getElem? hx),
    fun x hx => hread (b := .pay) (map_setWidth_of_getElem? hx), fun buf b wm cap hrow hlen => ?_,
    fun buf => exec_bread_reserved hf d⟩
  · rw [readElem, hx, Option.map_some, bitWord_eq_ofNat]
  · obtain ⟨rfl, -, -⟩ := eq_of_mem_bufRows hrow
    exact exec_bread_bounds hf hlen

/-- Settles O28: the three commands are one operation, keeping the first `n` elements of one buffer. -/
theorem truncationsKeepAPrefix : Obligations.TruncationsKeepAPrefix := by
  refine ⟨fun buf hbuf => (encode_toNat_of_bufArg (d := 0) rfl hbuf (Nat.two_pow_pos 28)).trans (Nat.add_zero _),
    fun buf d => encode_toNat_of_bufArg rfl, rfl, fun s hf =>
      ⟨fun buf d h => ⟨exec_bclr_reserved hf h, exec_btrunc_reserved hf d h⟩, fun i b n hi => ?_⟩⟩
  have hlen : ∀ b', lenOf (truncBuf b n s) b' = if b' = b then min (lenOf s b) n else lenOf s b' :=
    fun b' => lenOf_truncBuf b b' n s
  have hlenb : lenOf (truncBuf b n s) b = min (lenOf s b) n := by rw [hlen, if_pos rfl]
  have hexec : exec i s = .next (respond 0x00 (lenWord (lenOf (truncBuf b n s) b)) (truncBuf b n s)) := by
    rw [hlenb]
    obtain ⟨buf, wm, cap, hrow, hop⟩ | ⟨rfl, rfl, rfl⟩ := hi
    · obtain ⟨rfl, -, -⟩ := eq_of_mem_bufRows hrow
      obtain ⟨rfl, rfl⟩ | rfl := hop
      · exact exec_bclr_bufId hf b
      · exact exec_btrunc_bufId hf b n
    · exact exec_btrunco hf
  refine ⟨truncBuf b n s, hexec, hlenb, fun j hj => ?_, fun b' j hne => ?_, fun b' hne => ?_, truncBuf_frame b n s⟩
  · have hjn : j < n := by omega
    rw [readElem_truncBuf, if_neg (by omega)]
  · rw [readElem_truncBuf, if_neg (fun h => hne h.1)]
  · rw [hlen, if_neg hne]

end Sys2Proof.Proofs
end

section
/-! PROOFS. R101 to R105: what RDREG reads at each register number, STATUS bit by bit, and which command can clear
FAULT. -/

namespace Sys2Proof.Machine

/-! ## STATUS as a word (R28) -/

theorem getLsbD_flagAt (b : Bool) {n : Nat} (hn : n < 32) (k : Nat) :
    (flagAt b n).getLsbD k = (b && decide (k = n)) := by
  cases b
  · simp [flagAt]
  · have htwo : flagAt true n = BitVec.twoPow 32 n := BitVec.twoPow_eq 32 n |>.symm
    rw [htwo, BitVec.getLsbD_twoPow]
    simp [hn, eq_comm]

/-- Bit `k` of STATUS is the flag at `k`, and no bit above 4 is set (R28). -/
theorem Status.getLsbD_word (st : Status) (k : Nat) :
    st.word.getLsbD k = (st.linkup && decide (k = 0) || st.rxclosed && decide (k = 1) || st.torn && decide (k = 2) ||
      st.broken && decide (k = 3) || st.omp && decide (k = 4)) := by
  simp [Status.word, getLsbD_flagAt]

/-! ## Numbers that are no register (R36, R102) -/

theorem readReg_eq_none {s : State} {a : Word} (h : 0x10 < a.toNat) : readReg s a = none := by
  unfold readReg
  split
  case h_18 => rfl
  all_goals omega

theorem exec_rdreg_noRegister_run {s : State} {a : Word} (ha : readReg s a = none) (hf : s.fault = 0) :
    exec (.rdreg a) s = .next (raiseFatal .illegalCommand 0x01 s) := by
  simp only [exec, execRdreg, ha, if_pos hf]

theorem exec_rdreg_noRegister_faulted {s : State} {a : Word} (ha : readReg s a = none) (hf : s.fault ≠ 0) :
    exec (.rdreg a) s = .next (respond 0x06 0x01 s) := by
  simp only [exec, execRdreg, ha, if_neg hf]
  rfl

/-! ## Leaving FAULTED mode (R103, R207) -/

theorem Effect.sreset_or_fault_eq {i : Instr} {s t : State} (h : Effect i s t) (hs : s.fault ≠ 0) :
    i = .sreset ∨ t.fault = s.fault := by
  cases h
  case sreset => exact .inl rfl
  case refused | noRegister | nop | rdreg => exact .inr rfl
  all_goals exact absurd ‹s.fault = 0› hs

end Sys2Proof.Machine

namespace Sys2Proof.Proofs

open Sys2Proof.Machine Sys2Proof.Claims

/-- Settles O23: NOP has no mode check and its argument is reserved; SETSEED and SETOLEN are one register write each. -/
theorem nopSetseedSetolen : Obligations.NopSetseedSetolen := by
  refine ⟨rfl, fun s => rfl, fun a ha => ?_, fun a => ⟨rfl, rfl, fun s hf => ⟨?_, ?_⟩⟩⟩
  · rw [decode_append]
    exact decodeFields_of_reservedBitsSet (.inl ⟨by decide, ha⟩)
  · exact next_inRunMode hf
  · exact next_inRunMode hf

/-- The registers other than STATUS and what they read (R22 to R30, R36). -/
def plainRegisters (s : State) : List (Word × Word) :=
  [(0x00, s.fault), (0x01, s.finfo), (0x02, s.terr), (0x04, lenWord s.txt.length), (0x05, lenWord s.key.length),
    (0x06, lenWord s.bit.length), (0x07, lenWord s.sym.length), (0x08, lenWord s.pay.length), (0x09, s.seed),
    (0x0A, s.olen), (0x0B, s.rxlen), (0x0C, s.rxcnt)] ++ constantRegisters s.params

theorem readReg_of_mem_plainRegisters {s : State} {a v : Word} (h : (a, v) ∈ plainRegisters s) :
    readReg s a = some v := by
  obtain h | h := List.mem_append.mp h
  · simp only [List.mem_cons, Prod.mk.injEq, List.not_mem_nil, or_false] at h
    obtain ⟨rfl, rfl⟩ | ⟨rfl, rfl⟩ | ⟨rfl, rfl⟩ | ⟨rfl, rfl⟩ | ⟨rfl, rfl⟩ | ⟨rfl, rfl⟩ | ⟨rfl, rfl⟩ | ⟨rfl, rfl⟩ |
      ⟨rfl, rfl⟩ | ⟨rfl, rfl⟩ | ⟨rfl, rfl⟩ | ⟨rfl, rfl⟩ := h <;> rfl
  · exact readReg_of_mem_constantRegisters h

/-- Settles O24: RDREG answers `readReg`, which reads every register number up to 0x10 and no other. -/
theorem rdregReadsEveryRegister : Obligations.RdregReadsEveryRegister := by
  refine ⟨fun a => rfl, fun s => ⟨fun a v hav => exec_rdreg_of_readReg (readReg_of_mem_plainRegisters hav), ?_,
    fun a ha => ⟨exec_rdreg_noRegister_run (readReg_eq_none ha), exec_rdreg_noRegister_faulted (readReg_eq_none ha)⟩⟩⟩
  refine ⟨s.status.word, exec_rdreg_of_readReg rfl, ?_⟩
  simp only [Status.getLsbD_word]
  refine ⟨by simp, by simp, by simp, by simp, by simp, fun n hn => ?_⟩
  simp [show n ≠ 0 by omega, show n ≠ 1 by omega, show n ≠ 2 by omega, show n ≠ 3 by omega, show n ≠ 4 by omega]

/-- Settles O25: SRESET has no mode check, and every other command leaves the FAULT of a faulted block. -/
theorem sresetResets : Obligations.SresetResets := by
  refine ⟨rfl, fun s => rfl, fun i s t hs hexec ht => ?_⟩
  obtain hi | hfault := (exec_effect hexec).sreset_or_fault_eq hs
  · exact hi
  · exact absurd (hfault.symm.trans ht) hs

end Sys2Proof.Proofs
end

section
/-! PROOFS. R120 to R124: a decoded character as the sum of its bits, what BC.ENC and BC.DEC do in RUN mode, and from
these the statements about the two commands and their round trips. -/

namespace Sys2Proof.Machine

/-! ## A character as the sum of its bits (R13, R121) -/

theorem toNat_eq_sum_bits (v : Byte) :
    v.toNat = ((List.range 8).map fun k => (v.getLsbD (7 - k)).toNat * 2 ^ (7 - k)).sum := by
  revert v; decide

/-- Bit `8j + k` of a bit string is bit `7 - k` of character `j` of its decoding: the string is the encoding of that. -/
theorem getD_eq_getLsbD_bcDecode {b : List Bool} (h : b.length % 8 = 0) {j k : Nat} (hj : j < (bcDecode b).length)
    (hk : k < 8) : b.getD (8 * j + k) false = ((bcDecode b).getD j 0).getLsbD (7 - k) := by
  have hbit := bcEncode_getElem? (bcDecode b) (p := 8 * j + k) (by omega)
  rw [bcEncode_bcDecode b h, show (8 * j + k) / 8 = j by omega, show (8 * j + k) % 8 = k by omega] at hbit
  rw [List.getD_eq_getElem?_getD, hbit, Option.getD_some]

/-- Sum form of `BCdec` (R121). -/
theorem bcDecode_toNat_eq_sum {b : List Bool} (h : b.length % 8 = 0) {j : Nat} (hj : j < (bcDecode b).length) :
    ((bcDecode b).getD j 0).toNat =
      ((List.range 8).map fun k => (b.getD (8 * j + k) false).toNat * 2 ^ (7 - k)).sum := by
  rw [toNat_eq_sum_bits]
  refine congrArg List.sum (List.map_congr_left fun k hk => ?_)
  rw [getD_eq_getLsbD_bcDecode h hj (List.mem_range.mp hk)]

/-! ## What each command does in RUN mode (R123, R124) -/

section
variable {s : State} (hf : s.fault = 0)
include hf

theorem exec_bcEnc :
    exec .bcEnc s =
      .next (respond 0x00 (lenWord (bcEncode s.txt).length) { s with bit := bcEncode s.txt }) :=
  next_inRunMode hf

theorem exec_bcDec_malformed (h : s.bit.length % 8 ≠ 0) :
    exec .bcDec s = .next (raiseFatal .malformedInput (lenWord s.bit.length) s) :=
  (next_inRunMode hf).trans (by rw [if_pos h])

theorem exec_bcDec (h : s.bit.length % 8 = 0) :
    exec .bcDec s =
      .next (respond 0x00 (lenWord (bcDecode s.bit).length) { s with txt := bcDecode s.bit }) :=
  (next_inRunMode hf).trans (by rw [if_neg (not_not.mpr h)]; rfl)

end

end Sys2Proof.Machine

namespace Sys2Proof.Proofs

open Sys2Proof.Machine Sys2Proof.Claims

/-- A command that answers OK in RUN mode and leaves `t`'s FAULT at 0 runs (R75, R76). -/
theorem runsOk_of_exec {i : Instr} {s t : State} {v : Word} (h : exec i s = .next (respond 0x00 v t))
    (hfault : t.fault = 0) (hresp : t.responses = s.responses) : RunsOk i s (respond 0x00 v t) :=
  ⟨h, rfl, hfault, v, by rw [← hresp]; rfl⟩

/-- Settles O29: BC.ENC stores `bcEncode` of the text, whose index form is R120. -/
theorem bcEncExpandsText : Obligations.BcEncExpandsText := by
  refine ⟨rfl, fun s hf => ⟨bcEncode s.txt, ?_, bcEncode_length s.txt, fun p => bcEncode_getElem? s.txt⟩⟩
  exact exec_bcEnc hf

/-- Settles O30: BC.DEC stores `bcDecode` of the bits, whose characters are the sums of R121. -/
theorem bcDecPacksBits : Obligations.BcDecPacksBits := by
  refine ⟨rfl, fun s hf => ⟨exec_bcDec_malformed hf, fun hlen => ?_⟩⟩
  exact ⟨bcDecode s.bit, exec_bcDec hf hlen, bcDecode_length s.bit hlen, fun j => bcDecode_toNat_eq_sum hlen⟩

/-- Settles O31: each command runs on what the other one left, and `bcEncode` and `bcDecode` undo each other. -/
theorem bitCodecRoundTrips : Obligations.BitCodecRoundTrips := by
  refine fun s hf => ⟨⟨_, runsOk_of_exec (exec_bcEnc hf) hf rfl, bcEncode_length s.txt, fun x => ?_⟩,
    fun hlen => ⟨_, runsOk_of_exec (exec_bcDec hf hlen) hf rfl, fun b => ?_⟩⟩
  · have hbits : (bcEncode s.txt).length % 8 = 0 := by rw [bcEncode_length]; omega
    exact ⟨_, runsOk_of_exec (exec_bcDec hf hbits) hf rfl, bcDecode_bcEncode s.txt⟩
  · exact ⟨_, runsOk_of_exec (exec_bcEnc hf) hf rfl, bcEncode_bcDecode s.bit hlen⟩

end Sys2Proof.Proofs
end

section
/-! PROOFS. R130 to R140: the cipher's functions with a text as key, bit by bit, what each SC command does in RUN mode,
and from these the statements about the five commands and the recovery of an encrypted text. -/

namespace Sys2Proof.Machine

open Sys2Proof.Claims

/-! ## Signed seeds and the bits of a text (R13, R120, R121) -/

theorem sint32_eq_toInt (w : Word) : sint32 w = w.toInt := by
  rw [sint32, BitVec.toInt_eq_toNat_cond]
  split <;> split <;> omega

/-- The bits of a decoded text are the bits it was decoded from (R122). -/
theorem textBit_bcDecode {b : List Bool} (hlen : b.length % 8 = 0) {p : Nat} {x : Bool} (h : b[p]? = some x) :
    textBit (bcDecode b) p = x := by
  have hp : p < b.length := (List.getElem?_eq_some_iff.mp h).1
  have hbit := bcEncode_getElem? (bcDecode b) (p := p) (by rw [bcDecode_length b hlen]; omega)
  rw [bcEncode_bcDecode b hlen, h] at hbit
  exact (Option.some.inj hbit).symm

/-! ## Masking with a key and rotating (R131 to R133) -/

theorem xorBits_bcEncode_getElem? {b : List Bool} {k : List Byte} (hk : k ≠ []) {p : Nat} {x : Bool}
    (h : b[p]? = some x) : (xorBits b (bcEncode k))[p]? = some (x ^^ textBit k (p % (8 * k.length))) := by
  have hpos : 0 < 8 * k.length := by have := List.length_pos_iff.mpr hk; omega
  rw [xorBits_getElem? b _ h, bcEncode_length, List.getD_eq_getElem?_getD,
    bcEncode_getElem? k (Nat.mod_lt p hpos), Option.getD_some]

/-- Index form of `UNPERM` (R133): the string is the rotation forth of its rotation back. -/
theorem unpermBits_getElem? (b : List Bool) (seed : Int) {p : Nat} (h : p < b.length) :
    (unpermBits b seed)[(p + shiftOf seed b.length) % b.length]? = b[p]? := by
  have hperm := permBits_getElem? (unpermBits b seed) seed (p := p) (by rwa [unpermBits_length])
  rw [permBits_unpermBits, unpermBits_length] at hperm
  exact hperm.symm

theorem permBits_natCast_getElem? (b : List Bool) (k : Nat) {p : Nat} (h : p < b.length) :
    (permBits b k)[p]? = b[(p + k) % b.length]? := by
  rw [permBits_getElem? b k h, shiftOf_natCast, Nat.add_mod_mod]

theorem unpermBits_natCast_getElem? (b : List Bool) (k : Nat) {p : Nat} (h : p < b.length) :
    (unpermBits b k)[(p + k) % b.length]? = b[p]? := by
  rw [← unpermBits_getElem? b k h, shiftOf_natCast, Nat.add_mod_mod]

/-! ## Encrypting and decrypting a text (R138 to R140) -/

/-- `PERM(XOR(BCenc(TXT), KB), KLEN)` (R138). -/
def encryptText (t k : List Byte) : List Bool := permBits (xorBits (bcEncode t) (bcEncode k)) k.length

/-- `BCdec(XOR(UNPERM(BIT, KLEN), KB))` (R139). -/
def decryptBits (b : List Bool) (k : List Byte) : List Byte := bcDecode (xorBits (unpermBits b k.length) (bcEncode k))

@[simp] theorem encryptText_length (t k : List Byte) : (encryptText t k).length = 8 * t.length := by
  simp [encryptText]

theorem decryptBits_length {b : List Bool} (k : List Byte) (hlen : b.length % 8 = 0) :
    (decryptBits b k).length = b.length / 8 := by
  rw [decryptBits, bcDecode_length _ (by simpa using hlen), xorBits_length, unpermBits_length]

theorem encryptText_getElem? {t k : List Byte} (hk : k ≠ []) {p q : Nat} (hp : p < 8 * t.length)
    (hq : q = (p + k.length) % (8 * t.length)) :
    (encryptText t k)[p]? = some (textBit t q ^^ textBit k (q % (8 * k.length))) := by
  have htext := bcEncode_getElem? t (p := q) (by rw [hq]; exact Nat.mod_lt _ (by omega))
  rw [encryptText, permBits_natCast_getElem? _ _ (by simpa using hp), xorBits_length, bcEncode_length, ← hq]
  exact xorBits_bcEncode_getElem? hk htext

theorem textBit_decryptBits {b : List Bool} {k : List Byte} (hk : k ≠ []) (hlen : b.length % 8 = 0) {p q : Nat}
    {x : Bool} (h : b[p]? = some x) (hq : q = (p + k.length) % b.length) :
    textBit (decryptBits b k) q = (x ^^ textBit k (q % (8 * k.length))) := by
  have hrot := unpermBits_natCast_getElem? b k.length (List.getElem?_eq_some_iff.mp h).1
  rw [← hq, h] at hrot
  exact textBit_bcDecode (by simpa using hlen) (xorBits_bcEncode_getElem? hk hrot)

/-- R140, for the functions. -/
@[simp] theorem decryptBits_encryptText (t k : List Byte) : decryptBits (encryptText t k) k = t := by
  rw [decryptBits, encryptText, unpermBits_permBits, xorBits_xorBits, bcDecode_bcEncode]

/-! ## What each command does in RUN mode (R135 to R139) -/

section
variable {s : State} (hf : s.fault = 0)
include hf

theorem exec_scXor_emptyKey (hk : s.key = []) : exec .scXor s = .next (raiseFatal .emptyKey 0 s) :=
  (next_inRunMode hf).trans (by rw [if_pos (List.length_eq_zero_iff.mpr hk)])

theorem exec_scXor (hk : s.key ≠ []) :
    exec .scXor s =
      .next (respond 0x00 (lenWord s.bit.length) { s with bit := xorBits s.bit (bcEncode s.key) }) :=
  (next_inRunMode hf).trans (by rw [if_neg (mt List.length_eq_zero_iff.mp hk)]; rfl)

theorem exec_scPerm_emptyBit (hb : s.bit = []) : exec .scPerm s = .next (raiseFatal .invalidSeed 0 s) :=
  (next_inRunMode hf).trans (by rw [if_pos (List.length_eq_zero_iff.mpr hb)])

theorem exec_scPerm (hb : s.bit ≠ []) :
    exec .scPerm s =
      .next (respond 0x00 (lenWord (shiftOf s.seed.toInt s.bit.length))
        { s with bit := permBits s.bit s.seed.toInt }) :=
  (next_inRunMode hf).trans (by rw [if_neg (mt List.length_eq_zero_iff.mp hb), sint32_eq_toInt]; rfl)

theorem exec_scUnperm_emptyBit (hb : s.bit = []) : exec .scUnperm s = .next (raiseFatal .invalidSeed 0 s) :=
  (next_inRunMode hf).trans (by rw [if_pos (List.length_eq_zero_iff.mpr hb)])

theorem exec_scUnperm (hb : s.bit ≠ []) :
    exec .scUnperm s =
      .next (respond 0x00 (lenWord (shiftOf s.seed.toInt s.bit.length))
        { s with bit := unpermBits s.bit s.seed.toInt }) :=
  (next_inRunMode hf).trans (by rw [if_neg (mt List.length_eq_zero_iff.mp hb), sint32_eq_toInt]; rfl)

theorem exec_scEncrypt_emptyKey (hk : s.key = []) : exec .scEncrypt s = .next (raiseFatal .emptyKey 0 s) :=
  (next_inRunMode hf).trans (by rw [if_pos (List.length_eq_zero_iff.mpr hk)])

theorem exec_scEncrypt_emptyText (hk : s.key ≠ []) (ht : s.txt = []) :
    exec .scEncrypt s = .next (raiseFatal .invalidSeed 0 s) :=
  (next_inRunMode hf).trans (by
    rw [if_neg (mt List.length_eq_zero_iff.mp hk), if_pos (List.length_eq_zero_iff.mpr ht)])

theorem exec_scEncrypt (hk : s.key ≠ []) (ht : s.txt ≠ []) :
    exec .scEncrypt s =
      .next (respond 0x00 (lenWord (encryptText s.txt s.key).length) { s with bit := encryptText s.txt s.key }) :=
  (next_inRunMode hf).trans (by
    rw [if_neg (mt List.length_eq_zero_iff.mp hk), if_neg (mt List.length_eq_zero_iff.mp ht)]; rfl)

theorem exec_scDecrypt_emptyBit (hb : s.bit = []) : exec .scDecrypt s = .next (raiseFatal .invalidSeed 0 s) :=
  (next_inRunMode hf).trans (by rw [if_pos (List.length_eq_zero_iff.mpr hb)])

theorem exec_scDecrypt_emptyKey (hb : s.bit ≠ []) (hk : s.key = []) :
    exec .scDecrypt s = .next (raiseFatal .emptyKey 0 s) :=
  (next_inRunMode hf).trans (by
    rw [if_neg (mt List.length_eq_zero_iff.mp hb), if_pos (List.length_eq_zero_iff.mpr hk)])

theorem exec_scDecrypt_malformed (hb : s.bit ≠ []) (hk : s.key ≠ []) (hlen : s.bit.length % 8 ≠ 0) :
    exec .scDecrypt s = .next (raiseFatal .malformedInput (lenWord s.bit.length) s) :=
  (next_inRunMode hf).trans (by
    rw [if_neg (mt List.length_eq_zero_iff.mp hb), if_neg (mt List.length_eq_zero_iff.mp hk), if_pos hlen])

theorem exec_scDecrypt (hb : s.bit ≠ []) (hk : s.key ≠ []) (hlen : s.bit.length % 8 = 0) :
    exec .scDecrypt s =
      .next (respond 0x00 (lenWord (decryptBits s.bit s.key).length) { s with txt := decryptBits s.bit s.key }) :=
  (next_inRunMode hf).trans (by
    rw [if_neg (mt List.length_eq_zero_iff.mp hb), if_neg (mt List.length_eq_zero_iff.mp hk),
      if_neg (not_not.mpr hlen)]
    rfl)

end

end Sys2Proof.Machine

namespace Sys2Proof.Proofs

open Sys2Proof.Machine Sys2Proof.Claims

/-- Settles O32: SC.XOR stores `xorBits` of BIT and the encoded KEY, whose index form is R131. -/
theorem scXorMasksBits : Obligations.ScXorMasksBits := by
  refine ⟨rfl, fun s hf => ⟨exec_scXor_emptyKey hf, fun hk => ?_⟩⟩
  exact ⟨_, exec_scXor hf hk, xorBits_length _ _, fun p x => xorBits_bcEncode_getElem? hk⟩

/-- Settles O34: SC.PERM stores `permBits` and answers `shiftOf`, the floor modulus. -/
theorem scPermRotatesLeft : Obligations.ScPermRotatesLeft := by
  refine ⟨rfl, fun s hf => ⟨exec_scPerm_emptyBit hf, fun hb => ?_⟩⟩
  have hpos := List.length_pos_iff.mpr hb
  exact ⟨_, _, exec_scPerm hf hb, shiftOf_lt _ hpos, dvd_sub_shiftOf _ hpos, permBits_length _ _,
    fun p => permBits_getElem? s.bit _⟩

/-- Settles O35: SC.UNPERM stores `unpermBits` and answers the same shift. -/
theorem scUnpermRotatesRight : Obligations.ScUnpermRotatesRight := by
  refine ⟨rfl, fun s hf => ⟨exec_scUnperm_emptyBit hf, fun hb => ?_⟩⟩
  have hpos := List.length_pos_iff.mpr hb
  exact ⟨_, _, exec_scUnperm hf hb, shiftOf_lt _ hpos, dvd_sub_shiftOf _ hpos, unpermBits_length _ _,
    fun p => unpermBits_getElem? s.bit _⟩

/-- Settles O37: SC.ENCRYPT checks KEY, then TXT, and stores `encryptText`. -/
theorem scEncryptText : Obligations.ScEncryptText := by
  refine ⟨rfl, fun s hf => ⟨exec_scEncrypt_emptyKey hf, exec_scEncrypt_emptyText hf, fun hk ht => ?_⟩⟩
  exact ⟨_, exec_scEncrypt hf hk ht, encryptText_length _ _, fun p q => encryptText_getElem? hk⟩

/-- Settles O38: SC.DECRYPT checks BIT, then KEY, then the length of BIT, and stores `decryptBits`. -/
theorem scDecryptBits : Obligations.ScDecryptBits := by
  refine ⟨rfl, fun s hf => ⟨exec_scDecrypt_emptyBit hf, exec_scDecrypt_emptyKey hf, exec_scDecrypt_malformed hf,
    fun hb hk hlen => ?_⟩⟩
  exact ⟨_, exec_scDecrypt hf hb hk hlen, decryptBits_length _ hlen, fun p x h q => textBit_decryptBits hk hlen h⟩

/-- Settles O39: SC.ENCRYPT leaves a non-empty BIT of whole characters, so SC.DECRYPT runs on it, and `decryptBits`
undoes `encryptText`. -/
theorem decryptAfterEncrypt : Obligations.DecryptAfterEncrypt := by
  intro s hf ht hk
  have hbit : encryptText s.txt s.key ≠ [] := by
    have := List.length_pos_iff.mpr ht
    exact List.length_pos_iff.mp (by rw [encryptText_length]; omega)
  have hlen : (encryptText s.txt s.key).length % 8 = 0 := by rw [encryptText_length]; omega
  refine ⟨_, runsOk_of_exec (exec_scEncrypt hf hk ht) hf rfl, rfl, fun x => ?_⟩
  exact ⟨_, runsOk_of_exec (exec_scDecrypt hf hbit hk hlen) hf rfl, decryptBits_encryptText s.txt s.key⟩

end Sys2Proof.Proofs
end

section
/-! PROOFS. R150 to R159: levels and lanes in the numbers of the level table, the line coder's functions lane by lane,
what each LC command does in RUN mode, and from these the statements about the commands, their round trips and the
table. -/

namespace Sys2Proof.Machine

open Sys2Proof.Claims

/-! ## Levels and lanes as numbers (R31, R77, R78) -/

theorem validLevel_iff_codeDefined (c : LevelCode) : validLevel c = true ↔ CodeDefined c.toNat := by
  revert c; decide

theorem bitpairOf_eq_none_iff (c : LevelCode) : bitpairOf c = none ↔ ¬ CodeDefined c.toNat := by
  rw [← validLevel_iff_codeDefined, validLevel_eq, Option.not_isSome_iff_eq_none]

theorem exists_bitpairOf_of_codeDefined {c : LevelCode} (h : CodeDefined c.toNat) :
    ∃ p, bitpairOf c = some p ∧ levelOf p = c := by
  obtain ⟨p, hp⟩ := Option.ne_none_iff_exists'.mp (mt (bitpairOf_eq_none_iff c).mp (not_not.mpr h))
  exact ⟨p, hp, levelOf_of_bitpairOf hp⟩

theorem laneNumber_eq (w : SymWord) (k : Nat) : laneNumber w k = (lane w k).toNat := (lane_toNat w k).symm

theorem validLevel_lane_iff (w : SymWord) (k : Nat) :
    validLevel (lane w k) = true ↔ CodeDefined (laneNumber w k) := by
  rw [laneNumber_eq, validLevel_iff_codeDefined]

theorem pairHasCode_levelOf (f t : Bool) : PairHasCode f t (levelOf (pairOf f t)).toNat := by
  revert f t; decide

theorem levelInfo_eq_ofNat (pos : Nat) (c : LevelCode) : levelInfo pos c = BitVec.ofNat 32 (pos * 8 + c.toNat) := by
  have hc := c.isLt
  have hor : ∀ n : Nat, n * 8 ||| c.toNat = n * 8 + c.toNat := fun n => by
    rw [Nat.mul_comm n 8]; exact (Nat.two_pow_add_eq_or_of_lt (i := 3) hc n).symm
  apply BitVec.eq_of_toNat_eq
  have hshift : pos % 2 ^ 32 * 8 % 2 ^ 32 = pos % 2 ^ 29 * 8 := by omega
  simp only [levelInfo, BitVec.toNat_or, BitVec.toNat_shiftLeft, BitVec.toNat_ofNat, BitVec.toNat_setWidth,
    Nat.shiftLeft_eq, show 2 ^ 3 = 8 from rfl, hshift, Nat.mod_eq_of_lt (show c.toNat < 2 ^ 32 by omega), hor]
  omega

/-- Every lane of the scan is a lane of some word (R155). -/
theorem exists_lane_of_allLanes_getElem? {ws : List SymWord} {i : Nat} {c : LevelCode}
    (h : (allLanes ws)[i]? = some c) : ∃ j k, j < ws.length ∧ k < 4 ∧ i = 4 * j + k ∧ c = lane (ws.getD j 0) k := by
  have hi : i < 4 * ws.length := by simpa using (List.getElem?_eq_some_iff.mp h).1
  have hlane := allLanes_getElem? ws (j := i / 4) (k := i % 4) (by omega) (by omega)
  rw [Nat.div_add_mod, h] at hlane
  exact ⟨i / 4, i % 4, by omega, by omega, (Nat.div_add_mod i 4).symm, Option.some.inj hlane⟩

/-- The lanes of the scan are valid exactly when each word's four lanes have defined codes (R155). -/
theorem allLanes_valid_iff {ws : List SymWord} :
    (∀ c ∈ allLanes ws, validLevel c = true) ↔
      ∀ j k, j < ws.length → k < 4 → CodeDefined (laneNumber (ws.getD j 0) k) := by
  constructor
  · intro h j k hj hk
    exact (validLevel_lane_iff _ k).mp (h _ (List.mem_of_getElem? (allLanes_getElem? ws hj hk)))
  · intro h c hc
    obtain ⟨i, hi⟩ := List.mem_iff_getElem?.mp hc
    obtain ⟨j, k, hj, hk, -, rfl⟩ := exists_lane_of_allLanes_getElem? hi
    exact (validLevel_lane_iff _ k).mpr (h j k hj hk)

/-- The scan of LC.DEC stops at the first lane, in scan order, whose code is not defined (R155). -/
theorem firstInvalidFrom_allLanes {ws : List SymWord} {j k : Nat} (hj : j < ws.length) (hk : k < 4)
    (hbad : ¬ CodeDefined (laneNumber (ws.getD j 0) k))
    (hbefore : ∀ j' k', k' < 4 → 4 * j' + k' < 4 * j + k → CodeDefined (laneNumber (ws.getD j' 0) k')) :
    firstInvalidFrom 0 (allLanes ws) = some (4 * j + k, lane (ws.getD j 0) k) := by
  rw [firstInvalidFrom_eq_some (allLanes_getElem? ws hj hk), Nat.zero_add]
  · rwa [← validLevel_lane_iff, Bool.not_eq_true] at hbad
  · intro i hi c hc
    obtain ⟨j', k', -, hk', rfl, rfl⟩ := exists_lane_of_allLanes_getElem? hc
    exact (validLevel_lane_iff _ k').mpr (hbefore j' k' hk' hi)

/-! ## The line coder's functions lane by lane (R151, R152) -/

/-- The zero bits that pad a string are what lies beyond its end (R151). -/
theorem paddedBit_append_zeros (b : List Bool) (n p : Nat) :
    paddedBit (b ++ List.replicate n false) p = paddedBit b p := by
  obtain hp | hp := Nat.lt_or_ge p b.length
  · exact List.getD_append _ _ _ _ hp
  · rw [paddedBit, List.getD_append_right _ _ _ _ hp, List.getD_eq_getElem?_getD,
      List.getElem?_getD_replicate_default_eq, paddedBit, List.getD_eq_default _ _ hp]

theorem lane_lcEncode (b : List Bool) {j k : Nat} (hj : j < (lcEncode b).length) (hk : k < 4) :
    lane ((lcEncode b).getD j 0) k =
      levelOf (pairOf (paddedBit b (8 * j + 2 * k)) (paddedBit b (8 * j + 2 * k + 1))) := by
  have hpad := padCount_spec b.length
  rw [lcEncode_length] at hj
  have hlane := allLanes_symbolBlocks (b ++ List.replicate (padCount b.length) false) (p := 4 * j + k)
    (by simpa using hpad.1) (by simp only [List.length_append, List.length_replicate]; omega)
  rw [← lcEncode, allLanes_getElem? _ (by rwa [lcEncode_length]) hk, Option.some.injEq] at hlane
  rw [hlane, show 2 * (4 * j + k) = 8 * j + 2 * k by omega]
  congr 2 <;> exact paddedBit_append_zeros b _ _

theorem lcEncode_pairHasCode (b : List Bool) {j k : Nat} (hj : j < (lcEncode b).length) (hk : k < 4) :
    PairHasCode (paddedBit b (8 * j + 2 * k)) (paddedBit b (8 * j + 2 * k + 1))
      (laneNumber ((lcEncode b).getD j 0) k) := by
  rw [laneNumber_eq, lane_lcEncode b hj hk]
  exact pairHasCode_levelOf _ _

/-- The bits that LC.DEC delivers encode to the words they come from, so their pairs have the lanes' codes (R153). -/
theorem lcDecode_pairHasCode {ws : List SymWord} (h : ∀ c ∈ allLanes ws, validLevel c = true) {j k : Nat}
    (hj : j < ws.length) (hk : k < 4) :
    PairHasCode (paddedBit (lcDecode ws) (8 * j + 2 * k)) (paddedBit (lcDecode ws) (8 * j + 2 * k + 1))
      (laneNumber (ws.getD j 0) k) := by
  have hpair := lcEncode_pairHasCode (lcDecode ws) (j := j) (k := k)
  rw [lcEncode_lcDecode ws h] at hpair
  exact hpair hj hk

/-! ## What each command does in RUN mode (R154 to R157) -/

section
variable {s : State} (hf : s.fault = 0)
include hf

theorem exec_lcEnc :
    exec .lcEnc s =
      .next (respond 0x00 (lenWord (lcEncode s.bit).length) { s with sym := lcEncode s.bit }) :=
  next_inRunMode hf

theorem exec_lcDec (h : ∀ c ∈ allLanes s.sym, validLevel c = true) :
    exec .lcDec s =
      .next (respond 0x00 (lenWord (lcDecode s.sym).length) { s with bit := lcDecode s.sym }) :=
  (next_inRunMode hf).trans (by rw [firstInvalidFrom_eq_none.mpr h]; rfl)

theorem exec_lcDec_invalid {pos : Nat} {c : LevelCode} (h : firstInvalidFrom 0 (allLanes s.sym) = some (pos, c)) :
    exec .lcDec s = .next (raiseFatal .invalidLevel (levelInfo pos c) s) :=
  (next_inRunMode hf).trans (by rw [h])

theorem exec_lcB2l (p : BitPair) : exec (.lcB2l p) s = .next (respond 0x00 ((levelOf p).setWidth 32) s) :=
  next_inRunMode hf

theorem exec_lcL2b {c : LevelCode} {p : BitPair} (h : bitpairOf c = some p) :
    exec (.lcL2b c) s = .next (respond 0x00 (p.setWidth 32) s) :=
  (next_inRunMode hf).trans (by rw [h]; rfl)

theorem exec_lcL2b_invalid {c : LevelCode} (h : bitpairOf c = none) :
    exec (.lcL2b c) s = .next (raiseFatal .invalidLevel (levelInfo 0x1FFFFFFF c) s) :=
  (next_inRunMode hf).trans (by rw [h])

end

end Sys2Proof.Machine

namespace Sys2Proof.Proofs

open Sys2Proof.Machine Sys2Proof.Claims

/-- Settles O44: `bitpairOf` is defined exactly on the four codes, and LVLROM has one row per pair and per such code. -/
theorem levelTableIsBijective : Obligations.LevelTableIsBijective :=
  ⟨bitpairOf_levelOf, fun _ => exists_bitpairOf_of_codeDefined, fun c => (bitpairOf_eq_none_iff c).mpr,
    by decide, rfl⟩

/-- The look-ups of R156 as the statement lists them are those of LVLROM. -/
theorem levelOf_of_mem_lookUps {p : BitPair} {v : Word}
    (h : (p, v) ∈ [((0 : BitPair), (6 : Word)), (1, 1), (2, 7), (3, 2)]) : (levelOf p).setWidth 32 = v := by
  simp only [List.mem_cons, Prod.mk.injEq, List.not_mem_nil, or_false] at h
  obtain ⟨rfl, rfl⟩ | ⟨rfl, rfl⟩ | ⟨rfl, rfl⟩ | ⟨rfl, rfl⟩ := h <;> rfl

/-- The look-ups of R157 as the statement lists them are those of LVLROM. -/
theorem bitpairOf_of_mem_lookUps {c : LevelCode} {v : Word}
    (h : (c, v) ∈ [((6 : LevelCode), (0 : Word)), (7, 2), (1, 1), (2, 3)]) :
    ∃ p, bitpairOf c = some p ∧ p.setWidth 32 = v := by
  simp only [List.mem_cons, Prod.mk.injEq, List.not_mem_nil, or_false] at h
  obtain ⟨rfl, rfl⟩ | ⟨rfl, rfl⟩ | ⟨rfl, rfl⟩ | ⟨rfl, rfl⟩ := h <;> exact ⟨_, rfl, rfl⟩

/-- Settles O43: both commands look up LVLROM, which has no row for the codes 0, 3, 4 and 5. -/
theorem levelLookUps : Obligations.LevelLookUps := by
  refine ⟨fun p => ?_, fun c => ?_, fun s hf => ⟨fun p v hv => ?_, fun c v hv => ?_, fun c hc => ?_⟩⟩
  · rw [encode_toNat, argument, BitVec.toNat_setWidth_of_le (by decide)]; rfl
  · rw [encode_toNat, argument, BitVec.toNat_setWidth_of_le (by decide)]; rfl
  · rw [← levelOf_of_mem_lookUps hv]
    exact exec_lcB2l hf p
  · obtain ⟨p, hp, rfl⟩ := bitpairOf_of_mem_lookUps hv
    exact exec_lcL2b hf hp
  · have hnone : bitpairOf c = none := by revert c; decide
    rw [← levelInfo_eq_ofNat]
    exact exec_lcL2b_invalid hf hnone

/-- Settles O40: LC.ENC stores `lcEncode` of the bits, whose lanes are the levels of the padded pairs. -/
theorem lcEncMapsPairs : Obligations.LcEncMapsPairs := by
  refine ⟨rfl, fun s hf => ⟨lcEncode s.bit, ?_, lcEncode_length s.bit, fun j k => lcEncode_pairHasCode s.bit⟩⟩
  exact exec_lcEnc hf

/-- Settles O41: LC.DEC stores `lcDecode` of words whose lanes are valid, and faults where its scan stops. -/
theorem lcDecMapsLanesOrFaults : Obligations.LcDecMapsLanesOrFaults := by
  refine ⟨rfl, fun s hf => ⟨fun hdefined => ?_, fun j k hj hk hbad hbefore => ?_⟩⟩
  · have hvalid := allLanes_valid_iff.mpr hdefined
    exact ⟨_, exec_lcDec hf hvalid, lcDecode_length _ hvalid, fun j k => lcDecode_pairHasCode hvalid⟩
  · rw [laneNumber_eq, ← levelInfo_eq_ofNat]
    exact exec_lcDec_invalid hf (firstInvalidFrom_allLanes hj hk hbad hbefore)

/-- Settles O42: each command runs on what the other one left, and `lcEncode` and `lcDecode` undo each other up to the
padding. -/
theorem lineCoderRoundTrips : Obligations.LineCoderRoundTrips := by
  refine fun s hf => ⟨⟨_, runsOk_of_exec (exec_lcEnc hf) hf rfl, fun b => ?_⟩, fun hdefined => ?_⟩
  · exact ⟨_, runsOk_of_exec (exec_lcDec hf (lcEncode_valid s.bit)) hf rfl, lcDecode_lcEncode s.bit⟩
  · have hvalid := allLanes_valid_iff.mpr hdefined
    refine ⟨_, runsOk_of_exec (exec_lcDec hf hvalid) hf rfl, fun ws => ?_⟩
    exact ⟨_, runsOk_of_exec (exec_lcEnc hf) hf rfl, lcEncode_lcDecode s.sym hvalid⟩

end Sys2Proof.Proofs
end

section
/-! PROOFS. R172 and R174: the four length bytes as the statements write them, what FT.CLOSE does and every
outcome of FT.READ in RUN mode, and from these the statements about the two commands. -/

namespace Sys2Proof.Machine

open Sys2Proof.Claims

/-! ## The four length bytes of a frame (R13, R174) -/

theorem bytesBE_eq_u32be (n : Nat) : bytesBE n = u32be n := by
  simp [bytesBE, u32be, List.range_succ]

/-- Four length bytes in a FIFO read as their number, whatever has arrived behind them. -/
theorem frameLen_of_eq_bytesBE {q p : List Byte} {n : Nat} (hq : q = bytesBE n ++ p) (hn : n < 2 ^ 32) :
    frameLen q = some n := by
  rw [hq, bytesBE_eq_u32be, frameLen_u32be hn]

theorem length_of_eq_bytesBE {q p : List Byte} {n : Nat} (hq : q = bytesBE n ++ p) : q.length = 4 + p.length := by
  rw [hq, bytesBE_eq_u32be, List.length_append, u32be_length]

/-! ## When FT.READ is ready (R174) -/

theorem readReady_of_broken {s : State} (h : s.status.broken = true) : readReady s = true := by
  simp [readReady, h]

theorem readReady_of_rxeof {s : State} (h : s.rxeof = true) : readReady s = true := by
  simp [readReady, h]

theorem readReady_of_oversize {s : State} {n : Nat} (hn : frameLen s.rxfifo = some n) (hbig : s.params.pmax < n) :
    readReady s = true := by
  simp [readReady, hn, hbig]

theorem readReady_eq_false_of_header {s : State} (hb : s.status.broken = false) (he : s.rxeof = false)
    (hlen : s.rxfifo.length < 4) : readReady s = false := by
  simp [readReady, hb, he, frameLen_eq_none.mpr hlen]

theorem readReady_eq_false_of_payload {s : State} {n : Nat} (hb : s.status.broken = false) (he : s.rxeof = false)
    (hn : frameLen s.rxfifo = some n) (hfit : n ≤ s.params.pmax) (hlen : s.rxfifo.length < 4 + n) :
    readReady s = false := by
  simp [readReady, hb, he, hn, hfit, hlen]

/-! ## The outcome of a ready FT.READ, by the first test of R174 that applies -/

theorem readNow_broken {s : State} (hb : s.status.broken = true) : readNow s = raiseTransport .transport s :=
  if_pos hb

theorem readNow_header {s : State} (hb : s.status.broken = false) (hlen : s.rxfifo.length < 4) :
    readNow s = readClosed 0 s.rxfifo.length false s := by
  simp [readNow, hb, frameLen_eq_none.mpr hlen]

theorem readNow_oversize {s : State} {n : Nat} (hb : s.status.broken = false) (hn : frameLen s.rxfifo = some n)
    (hbig : s.params.pmax < n) : readNow s = readOversize n s := by
  simp [readNow, hb, hn, hbig]

theorem readNow_payload {s : State} {n : Nat} (hb : s.status.broken = false) (hn : frameLen s.rxfifo = some n)
    (hfit : n ≤ s.params.pmax) (hlen : s.rxfifo.length < 4 + n) :
    readNow s = readClosed n (s.rxfifo.length - 4) true s := by
  simp [readNow, hb, hn, Nat.not_lt.mpr hfit, Nat.not_le.mpr hlen]

/-! ## What the two commands do in RUN mode (R172, R174) -/

section
variable {s : State} (hf : s.fault = 0)
include hf

theorem exec_ftClose :
    exec .ftClose s =
      .next (respond 0x00 0 (dropLink { s with status := { s.status with broken := false } })) :=
  next_inRunMode hf

theorem exec_ftRead_notConnected (hl : s.status.linkup = false) :
    exec .ftRead s = .next (raiseTransport .notConnected s) :=
  (next_inRunMode hf).trans (by rw [hl]; rfl)

theorem exec_ftRead_ready (hl : s.status.linkup = true) (hready : readReady s = true) :
    exec .ftRead s = .next (readNow s) :=
  (next_inRunMode hf).trans (by rw [hl, hready]; rfl)

theorem exec_ftRead_holds (hl : s.status.linkup = true) (hready : readReady s = false) :
    exec .ftRead s = .next { s with held := true } :=
  (next_inRunMode hf).trans (by rw [hl, hready]; rfl)

end

end Sys2Proof.Machine

namespace Sys2Proof.Proofs

open Sys2Proof.Machine Sys2Proof.Claims

/-- Settles O47: FT.CLOSE has no test besides the mode check, and clears BROKEN and drops the link. -/
theorem ftCloseDetaches : Obligations.FtCloseDetaches :=
  ⟨rfl, fun _ hf => exec_ftClose hf⟩

/-- Settles O49: with the link up FT.READ is `readNow` where its hold condition is true and a hold where it is not; how
much of a frame has arrived says which, and which test of `readNow` applies. -/
theorem ftReadOutcomes : Obligations.FtReadOutcomes := by
  refine ⟨rfl, fun s hf hparams => ⟨exec_ftRead_notConnected hf, fun hl hb => ?_, fun hl hb => ?_⟩⟩
  · exact (exec_ftRead_ready hf hl (readReady_of_broken hb)).trans (by rw [readNow_broken hb]; rfl)
  have ⟨_, _, _, _, _, hpmax⟩ := hparams
  refine ⟨fun p rest hq hfit => ?_, fun n rest hq hn hbig => ?_, fun hlen heof => ?_,
    fun n p hq hfit hlen heof => ?_, fun hlen heof => ?_, fun n p hq hfit hlen heof => ?_⟩
  · rw [bytesBE_eq_u32be] at hq
    exact exec_ftRead_frame hf hparams hl hb hq hfit
  · have hL := frameLen_of_eq_bytesBE hq hn
    exact (exec_ftRead_ready hf hl (readReady_of_oversize hL hbig)).trans (by rw [readNow_oversize hb hL hbig]; rfl)
  · exact (exec_ftRead_ready hf hl (readReady_of_rxeof heof)).trans (by rw [readNow_header hb hlen]; rfl)
  · have hL := frameLen_of_eq_bytesBE hq (by omega)
    have harrived := length_of_eq_bytesBE hq
    have hcnt : s.rxfifo.length - 4 = p.length := by omega
    exact (exec_ftRead_ready hf hl (readReady_of_rxeof heof)).trans
      (by rw [readNow_payload hb hL hfit (by omega), hcnt]; rfl)
  · exact exec_ftRead_holds hf hl (readReady_eq_false_of_header hb heof hlen)
  · have hL := frameLen_of_eq_bytesBE hq (by omega)
    have harrived := length_of_eq_bytesBE hq
    exact exec_ftRead_holds hf hl (readReady_eq_false_of_payload hb heof hL hfit (by omega))

end Sys2Proof.Proofs
end

section
/-! PROOFS. R180 to R183: the payload and the capacities as the statements write them are the model's `serialize` and
`Message.Fits`, what the two MSG commands do in RUN mode, and from these the statements about them. -/

namespace Sys2Proof.Machine

open Sys2Proof.Claims

/-! ## Payloads and capacities (R82, R83, R180, R181) -/

theorem fieldBytes_eq_field (tag : Byte) (v : List Byte) : fieldBytes tag v = field tag v := by
  rw [fieldBytes, bytesBE_eq_u32be]; rfl

theorem payloadBytes_eq_serialize (ws : List SymWord) (k : List Byte) (n : Word) (m : Option (List Byte)) :
    payloadBytes ws k n m = serialize { symbols := ws, key := k, olen := n, text := m } := by
  have hsym : (ws.flatMap fun w => [BitVec.ofNat 8 (w.toNat / 256), BitVec.ofNat 8 (w.toNat % 256)]) =
      ws.flatMap symBytes := congrArg ws.flatMap (funext fun w => (symBytes_eq w).symm)
  cases m <;> simp only [payloadBytes, hsym, fieldBytes_eq_field, bytesBE_eq_u32be, serialize, textField]

theorem messageFits_iff_fits (p : Params) (ws : List SymWord) (k : List Byte) (n : Word) (m : Option (List Byte)) :
    MessageFits p ws k m ↔ Message.Fits p { symbols := ws, key := k, olen := n, text := m } := by
  cases m <;> simp [MessageFits, Message.Fits]

theorem serialize_messageOf_length (f : Bool) (s : State) : (serialize (messageOf f s)).length = packedSize f s := by
  rw [serialize_length]
  cases f <;> rfl

/-! ## What each command does in RUN mode (R182, R183) -/

section
variable {s : State} (hf : s.fault = 0)
include hf

theorem exec_msgPack_capacity {f : Bool} (h : s.params.pmax < packedSize f s) :
    exec (.msgPack f) s = .next (raiseFatal .capacity (lenWord (packedSize f s)) s) :=
  (next_inRunMode hf).trans (by rw [if_pos h])

theorem exec_msgPack {f : Bool} (h : packedSize f s ≤ s.params.pmax) :
    exec (.msgPack f) s =
      .next (respond 0x00 (lenWord (packedSize f s)) { s with pay := serialize (messageOf f s) }) :=
  (next_inRunMode hf).trans (by rw [if_neg (Nat.not_lt.mpr h)]; rfl)

theorem exec_msgUnpack {m : Message} (h : parse s.params s.pay = some m) :
    exec .msgUnpack s = .next (respond 0x00 (lenWord m.symbols.length) (unpackTo m s)) :=
  (next_inRunMode hf).trans (by rw [h]; rfl)

theorem exec_msgUnpack_protocol (h : parse s.params s.pay = none) :
    exec .msgUnpack s = .next (raiseTransport .protocol s) :=
  (next_inRunMode hf).trans (by rw [h])

end

end Sys2Proof.Machine

namespace Sys2Proof.Proofs

open Sys2Proof.Machine Sys2Proof.Claims

/-- Settles O52: MSG.PACK compares `packedSize`, the length of `serialize` of the buffers' Message, with PMAX. -/
theorem msgPackSerializes : Obligations.MsgPackSerializes := by
  refine ⟨fun f => by cases f <;> rfl, fun s f n hf hn => ?_⟩
  obtain rfl : n = packedSize f s := hn
  refine ⟨exec_msgPack_capacity hf, fun hfit => ⟨serialize (messageOf f s), ?_, ?_, ?_⟩⟩
  · rw [payloadBytes_eq_serialize]; rfl
  · exact serialize_messageOf_length f s
  · exact exec_msgPack hf hfit

/-- Settles O53: `parse` undoes `serialize` on the Messages that fit, and what it accepts is the payload of one. -/
theorem msgUnpackParses : Obligations.MsgUnpackParses := by
  refine ⟨rfl, fun s hf hparams => ⟨fun ws k n m hpay hfits => ?_, fun hnone => exec_msgUnpack_protocol hf ?_⟩⟩
  · rw [payloadBytes_eq_serialize] at hpay
    have hparse := parse_serialize hparams ((messageFits_iff_fits _ _ _ n _).mp hfits)
    rw [← hpay] at hparse
    exact exec_msgUnpack hf hparse
  · rw [Option.eq_none_iff_forall_ne_some]
    intro m hm
    obtain ⟨hpay, hfits⟩ := parse_eq_some hm
    refine hnone m.symbols m.key m.olen m.text ?_ ((messageFits_iff_fits _ _ _ m.olen _).mpr hfits)
    rw [hpay, payloadBytes_eq_serialize]

end Sys2Proof.Proofs
end

section
/-! PROOFS. R204, R206 and R207: how a command and a word end in each of the two modes, what leaves FAULT and FINFO
alone, and from these the statements about taking a fault, refusing in FAULTED mode and leaving it. -/

namespace Sys2Proof

/-! ## The word of SRESET (R74, R84) -/

theorem whenReservedZero_eq_ok {op : BitVec 8} {z : Bool} {i j : Instr} :
    whenReservedZero op z i = .ok j ↔ z = true ∧ i = j := by
  cases z <;> simp [whenReservedZero]

/-- The arms of the decoder that can answer SRESET are those of its own opcode. -/
theorem decodeFields_eq_ok_sreset {op : BitVec 8} {arg : Word} (h : decodeFields op arg = .ok .sreset) :
    op = 0x02 ∧ arg = 0 := by
  unfold decodeFields at h
  split at h
  case h_3 hop =>
    obtain ⟨harg, -⟩ := whenReservedZero_eq_ok.mp h
    exact ⟨BitVec.eq_of_toNat_eq hop, eq_of_beq harg⟩
  all_goals simp [whenReservedZero_eq_ok] at h

theorem decode_eq_ok_sreset {w : CmdWord} (h : decode w = .ok .sreset) : w = 0x0200000000 := by
  obtain ⟨hop, harg⟩ := decodeFields_eq_ok_sreset h
  rw [← opOf_append_argOf w, hop, harg]
  rfl

end Sys2Proof

namespace Sys2Proof.Machine

/-! ## A word at the port (R74, R100) -/

theorem issue_cases {w : CmdWord} {s t : State} (h : issue w s = .next t) :
    (∃ i, exec i s = .next t) ∨ t = illegalWord (opOf w) s := by
  unfold issue at h
  split at h
  · exact .inl ⟨_, h⟩
  · injection h with h
    exact .inr h.symm

theorem step_of_decode_ok {s : State} {w : CmdWord} {rest : List Input} {i : Instr} (hheld : s.held = false)
    (hin : s.inputs = .command w :: rest) (hdec : decode w = .ok i) : step s = exec i { s with inputs := rest } := by
  simp [step, readCompletes, nextInput, accept, issue, hheld, hin, hdec]

/-! ## How a command ends in RUN mode (R204) -/

theorem FatalCode.code_bounds (c : FatalCode) : 0x01 ≤ c.code.toNat ∧ c.code.toNat ≤ 0x08 := by
  cases c <;> decide

@[simp] theorem pushElem_fault (b : Buf) (d : Nat) (s : State) : (pushElem b d s).fault = s.fault := by
  rw [pushElem_frame]

@[simp] theorem truncBuf_fault (b : Buf) (n : Nat) (s : State) : (truncBuf b n s).fault = s.fault := by
  rw [truncBuf_frame]

@[simp] theorem openWith_fault (ok : Bool) (s : State) : (openWith ok s).fault = s.fault := by
  cases ok <;> rfl

@[simp] theorem writeWith_fault (k : Nat) (s : State) : (writeWith k s).fault = s.fault := by
  unfold writeWith; split <;> simp

/-- A command that RUN mode accepts takes a fatal fault or stays in RUN mode. -/
theorem Effect.fatal_or_run {i : Instr} {s t : State} (h : Effect i s t) (hs : s.fault = 0) :
    (∃ c info, t = raiseFatal c info s) ∨ t.fault = 0 := by
  cases h
  case fatal c info _ _ => exact .inl ⟨c, info, rfl⟩
  case refused | noRegister => exact absurd hs ‹s.fault ≠ 0›
  case sreset => exact .inr rfl
  case bpush | truncate | ftOpen | ftWrite => exact .inr (by simpa using hs)
  all_goals exact .inr hs

/-! ## How a command ends in FAULTED mode (R206, R207) -/

theorem Effect.refused_of_faulted {i : Instr} {s t : State} (h : Effect i s t) (hs : s.fault ≠ 0)
    (hi : i ≠ .nop ∧ i ≠ .sreset ∧ ∀ a, i ≠ .rdreg a) : t = respond 0x0F s.fault s := by
  obtain ⟨hnop, hsreset, hrdreg⟩ := hi
  cases h
  case refused => rfl
  case nop => exact absurd rfl hnop
  case sreset => exact absurd rfl hsreset
  case noRegister a _ _ => exact absurd rfl (hrdreg a)
  case rdreg a _ _ => exact absurd rfl (hrdreg a)
  all_goals exact absurd ‹s.fault = 0› hs

theorem exec_refused {i : Instr} {s : State} (hs : s.fault ≠ 0) (hi : i ≠ .nop ∧ i ≠ .sreset ∧ ∀ a, i ≠ .rdreg a) :
    exec i s = .next (respond 0x0F s.fault s) := by
  obtain ⟨t, ht⟩ := exec_answers i s
  rw [ht, (exec_effect ht).refused_of_faulted hs hi]

/-- In FAULTED mode a command resets the block or only answers. -/
theorem Effect.reset_or_answer {i : Instr} {s t : State} (h : Effect i s t) (hs : s.fault ≠ 0) :
    (i = .sreset ∧ t = respond 0x00 0 (resetState s)) ∨ ∃ status value, t = respond status value s := by
  cases h
  case sreset => exact .inl ⟨rfl, rfl⟩
  case refused | noRegister | nop | rdreg => exact .inr ⟨_, _, rfl⟩
  all_goals exact absurd ‹s.fault = 0› hs

theorem readReg_isSome {a : Word} (s : State) (h : a.toNat ≤ 0x10) : ∃ v, readReg s a = some v := by
  unfold readReg
  generalize a.toNat = n at h
  interval_cases n <;> exact ⟨_, rfl⟩

/-! ## What the agents outside the block leave of FAULT and FINFO (R175, R231) -/

@[simp] theorem linkStep_fault (e : LinkStep) (s : State) : (linkStep e s).fault = s.fault := by
  cases e <;> simp only [linkStep] <;> split <;> rfl

@[simp] theorem linkStep_finfo (e : LinkStep) (s : State) : (linkStep e s).finfo = s.finfo := by
  cases e <;> simp only [linkStep] <;> split <;> rfl

/-- In FAULTED mode no FT.WRITE is sending, so an abandoned command leaves no byte (R206, R231). -/
theorem abandon_faulted {s : State} (w : CmdWord) (k : Nat) (hs : s.fault ≠ 0) : abandon w k s = resetState s := by
  have hnone : abandonedBytes w k s = [] := by
    unfold abandonedBytes
    split
    · exact if_neg fun h => hs h.1
    · rfl
  rw [abandon, hnone, List.append_nil]
  rfl

end Sys2Proof.Machine

namespace Sys2Proof.Proofs

open Sys2Proof.Machine Sys2Proof.Claims

/-- Settles O16: a command's outcomes that leave RUN mode are `raiseFatal`, and so is the answer to an illegal word. -/
theorem fatalFaultsArePrecise : Obligations.FatalFaultsArePrecise := by
  intro s t hs ht htaken
  have hfatal : ∃ c info, t = raiseFatal c info s := by
    have hcases : (∃ i, exec i s = .next t) ∨ ∃ op, t = illegalWord op s := by
      obtain hexec | ⟨w, hw⟩ := htaken
      · exact .inl hexec
      · exact (issue_cases hw).imp_right fun h => ⟨_, h⟩
    obtain ⟨i, hexec⟩ | ⟨op, rfl⟩ := hcases
    · exact ((exec_effect hexec).fatal_or_run hs).resolve_right ht
    · exact ⟨_, _, illegalWord_run op hs⟩
  obtain ⟨c, info, rfl⟩ := hfatal
  obtain ⟨hlow, hhigh⟩ := c.code_bounds
  exact ⟨c.code, info, hlow, hhigh, rfl⟩

/-- Settles O17: the commands with a mode check and the illegal words get the one refusal; NOP, SRESET and RDREG have no
mode check, and RDREG goes by whether its number is a register's. -/
theorem faultedModeRefuses : Obligations.FaultedModeRefuses := by
  intro s rest hs hheld
  refine ⟨fun w hin hother => ?_, fun hin => step_of_decode_ok hheld hin rfl,
    fun hin => step_of_decode_ok hheld hin rfl, fun a hin => ?_, fun e hin => ?_⟩
  · cases hdec : decode w with
    | error e =>
      rw [step_of_decode_error hheld hin hdec]
      exact congrArg Host.Outcome.next (illegalWord_faulted _ hs)
    | ok i =>
      rw [step_of_decode_ok hheld hin hdec]
      exact exec_refused hs (hother i hdec)
  · have hdec : decode (0x01#8 ++ a) = .ok (.rdreg a) := decode_append _ _
    rw [step_of_decode_ok hheld hin hdec]
    constructor
    · intro ha
      exact exec_rdreg_noRegister_faulted (readReg_eq_none ha) hs
    · intro ha
      obtain ⟨v, hv⟩ := readReg_isSome { s with inputs := rest } ha
      exact ⟨v, exec_rdreg_of_readReg hv⟩
  · simp [step, readCompletes, nextInput, accept, hheld, hin]

/-- Settles O18: of what a step can do from a faulted state, the resets alone do not leave FAULT and FINFO as they are,
and SRESET has one word. -/
theorem faultedLeftByResetOnly : Obligations.FaultedLeftByResetOnly := by
  intro s t hs hstep hchanged
  have not_kept : ¬ (t.fault = s.fault ∧ t.finfo = s.finfo) := by tauto
  obtain ⟨-, hread⟩ | ⟨-, -, rfl⟩ | ⟨-, rest, hacts⟩ := step_cases hstep
  · obtain ⟨hi, -⟩ | ⟨_, _, rfl⟩ := (exec_effect hread).reset_or_answer hs
    · cases hi
    · exact absurd ⟨rfl, rfl⟩ not_kept
  · exact absurd ⟨rfl, rfl⟩ not_kept
  · refine ⟨rest, ?_⟩
    obtain ⟨w, i, hnext, hdec, hexec⟩ | ⟨w, e, -, -, rfl⟩ | ⟨e, -, rfl⟩ | ⟨hnext, rfl⟩ | ⟨w, k, hnext, rfl⟩ := hacts
    · obtain ⟨rfl, rfl⟩ | ⟨_, _, rfl⟩ := (exec_effect hexec).reset_or_answer hs
      · rw [decode_eq_ok_sreset hdec] at hnext
        exact .inr ⟨hnext, rfl⟩
      · exact absurd ⟨rfl, rfl⟩ not_kept
    · have hrefused := illegalWord_faulted (s := { s with inputs := rest }) (opOf w) hs
      rw [hrefused] at not_kept
      exact absurd ⟨rfl, rfl⟩ not_kept
    · exact absurd ⟨linkStep_fault _ _, linkStep_finfo _ _⟩ not_kept
    · exact .inl ⟨.inl hnext, rfl⟩
    · exact .inl ⟨.inr ⟨w, k, hnext⟩, abandon_faulted w k hs⟩

end Sys2Proof.Proofs
end

section
/-! PROOFS. R70 to R74 and R84: encoding and decoding undo each other, and every row of the opcode map covers exactly
the words of one constructor's commands. -/

namespace Sys2Proof

/-! ## Decoding an encoded command (R70, R72) -/

/-- Decoding works on the opcode and the argument that the encoder put together. -/
theorem decode_encode_eq_decodeFields (i : Instr) : decode (encode i) = decodeFields (opcode i) (argument i) :=
  decode_append _ _

theorem fits_of_wellFormed {buf d : Nat} (h : (fitsBufId buf && fitsDatum d) = true) : buf < 2 ^ 4 ∧ d < 2 ^ 28 := by
  simpa [fitsBufId, fitsDatum] using h

theorem decode_encode {i : Instr} (h : WellFormed i = true) : decode (encode i) = .ok i := by
  rw [decode_encode_eq_decodeFields]
  cases i
  case bclr buf =>
    have hbuf : buf < 2 ^ 4 := by simpa [WellFormed, fitsBufId] using h
    rw [decodeFields_bclr _ rfl]
    simp only [argument, datumOf_bufArg (Nat.two_pow_pos 28), bufOf_bufArg hbuf]
    rfl
  case bpush buf d =>
    obtain ⟨hbuf, hd⟩ := fits_of_wellFormed h
    exact congrArg Except.ok (congrArg₂ Instr.bpush (bufOf_bufArg hbuf) (datumOf_bufArg hd))
  case bread buf d =>
    obtain ⟨hbuf, hd⟩ := fits_of_wellFormed h
    exact congrArg Except.ok (congrArg₂ Instr.bread (bufOf_bufArg hbuf) (datumOf_bufArg hd))
  case btrunc buf d =>
    obtain ⟨hbuf, hd⟩ := fits_of_wellFormed h
    exact congrArg Except.ok (congrArg₂ Instr.btrunc (bufOf_bufArg hbuf) (datumOf_bufArg hd))
  case lcB2l p => clear h; revert p; decide
  case lcL2b c => clear h; revert c; decide
  case msgPack f => cases f <;> rfl
  all_goals rfl

/-! ## Encoding a decoded word (R72, R74) -/

theorem bufOf_lt (arg : Word) : bufOf arg < 2 ^ 4 := (arg.extractLsb' 28 4).isLt

theorem datumOf_lt (arg : Word) : datumOf arg < 2 ^ 28 := (arg.extractLsb' 0 28).isLt

theorem fitsBufId_bufOf (arg : Word) : fitsBufId (bufOf arg) = true := decide_eq_true (bufOf_lt arg)

theorem fitsDatum_datumOf (arg : Word) : fitsDatum (datumOf arg) = true := decide_eq_true (datumOf_lt arg)

/-- An argument below `2 ^ n` is its low `n` bits. -/
theorem setWidth_setWidth_of_lt {arg : Word} {n : Nat} (h : arg.toNat < 2 ^ n) :
    (arg.setWidth n).setWidth 32 = arg := by
  apply BitVec.eq_of_toNat_eq
  rw [BitVec.toNat_setWidth, BitVec.toNat_setWidth, Nat.mod_eq_of_lt h, Nat.mod_eq_of_lt arg.isLt]

/-- The argument of MSG.PACK is its one flag bit (R72). -/
theorem argument_msgPack_getLsbD {arg : Word} (h : arg.toNat < 2) : argument (.msgPack (arg.getLsbD 0)) = arg := by
  obtain h0 | h1 : arg.toNat = 0 ∨ arg.toNat = 1 := by omega
  · obtain rfl : arg = 0 := BitVec.eq_of_toNat_eq h0
    rfl
  · obtain rfl : arg = 1 := BitVec.eq_of_toNat_eq h1
    rfl

/-- What the decoder accepts carries the word's opcode and its whole argument, in operands that fit. -/
theorem fields_of_decodeFields {op : BitVec 8} {arg : Word} {i : Instr} (h : decodeFields op arg = .ok i) :
    opcode i = op ∧ argument i = arg ∧ WellFormed i = true := by
  unfold decodeFields at h
  split at h
  case h_28 => cases h
  case h_2 hop | h_4 hop | h_5 hop =>
    cases h
    exact ⟨(BitVec.eq_of_toNat_eq hop).symm, rfl, rfl⟩
  case h_7 hop | h_8 hop | h_9 hop =>
    cases h
    exact ⟨(BitVec.eq_of_toNat_eq hop).symm, bufArg_fields arg,
      Bool.and_eq_true_iff.mpr ⟨fitsBufId_bufOf arg, fitsDatum_datumOf arg⟩⟩
  case h_6 hop =>
    obtain ⟨hz, rfl⟩ := whenReservedZero_eq_ok.mp h
    have hd : datumOf arg = 0 := eq_of_beq hz
    exact ⟨(BitVec.eq_of_toNat_eq hop).symm, by rw [argument, ← hd, bufArg_fields], fitsBufId_bufOf arg⟩
  case h_20 hop =>
    obtain ⟨hz, rfl⟩ := whenReservedZero_eq_ok.mp h
    exact ⟨(BitVec.eq_of_toNat_eq hop).symm, setWidth_setWidth_of_lt (n := 2) (of_decide_eq_true hz), rfl⟩
  case h_21 hop =>
    obtain ⟨hz, rfl⟩ := whenReservedZero_eq_ok.mp h
    exact ⟨(BitVec.eq_of_toNat_eq hop).symm, setWidth_setWidth_of_lt (n := 3) (of_decide_eq_true hz), rfl⟩
  case h_26 hop =>
    obtain ⟨hz, rfl⟩ := whenReservedZero_eq_ok.mp h
    exact ⟨(BitVec.eq_of_toNat_eq hop).symm, argument_msgPack_getLsbD (of_decide_eq_true hz), rfl⟩
  all_goals
    next hop =>
      obtain ⟨hz, rfl⟩ := whenReservedZero_eq_ok.mp h
      exact ⟨(BitVec.eq_of_toNat_eq hop).symm, (eq_of_beq hz).symm, rfl⟩

theorem encode_decode {w : CmdWord} {i : Instr} (h : decode w = .ok i) : encode i = w ∧ WellFormed i = true := by
  obtain ⟨hop, harg, hwf⟩ := fields_of_decodeFields h
  exact ⟨by rw [encode, hop, harg, opOf_append_argOf], hwf⟩

/-! ## The row of a command (R72, R74, R84) -/

/-- The argument bits that the format of a command reserves (R72). -/
def reservedBits : Instr → Word
  | .rdreg _ | .setseed _ | .setolen _ | .bpush _ _ | .bread _ _ | .btrunc _ _ => 0
  | .bclr _ => 0x0FFFFFFF
  | .lcB2l _ => 0xFFFFFFFC
  | .lcL2b _ => 0xFFFFFFF8
  | .msgPack _ => 0xFFFFFFFE
  | _ => 0xFFFFFFFF

/-- The row is that of the command: its mnemonic, its opcode, and a mask of the argument bits its format reserves. -/
def OpRow.IsRowOf (r : OpRow) (i : Instr) : Prop :=
  r.mnemonic = Machine.mnemonic i ∧ opOf r.pattern = opcode i ∧ argOf r.mask = reservedBits i

/-- The rows stand in the order of the constructors. -/
theorem exists_isRowOf_getElem? : ∀ i : Instr, ∃ (n : Nat) (r : OpRow), opcodeMap[n]? = some r ∧ r.IsRowOf i
  | .nop => ⟨0, _, rfl, rfl, rfl, rfl⟩ | .rdreg _ => ⟨1, _, rfl, rfl, rfl, rfl⟩
  | .sreset => ⟨2, _, rfl, rfl, rfl, rfl⟩ | .setseed _ => ⟨3, _, rfl, rfl, rfl, rfl⟩
  | .setolen _ => ⟨4, _, rfl, rfl, rfl, rfl⟩ | .bclr _ => ⟨5, _, rfl, rfl, rfl, rfl⟩
  | .bpush _ _ => ⟨6, _, rfl, rfl, rfl, rfl⟩ | .bread _ _ => ⟨7, _, rfl, rfl, rfl, rfl⟩
  | .btrunc _ _ => ⟨8, _, rfl, rfl, rfl, rfl⟩ | .btrunco => ⟨9, _, rfl, rfl, rfl, rfl⟩
  | .bcEnc => ⟨10, _, rfl, rfl, rfl, rfl⟩ | .bcDec => ⟨11, _, rfl, rfl, rfl, rfl⟩
  | .scXor => ⟨12, _, rfl, rfl, rfl, rfl⟩ | .scPerm => ⟨13, _, rfl, rfl, rfl, rfl⟩
  | .scUnperm => ⟨14, _, rfl, rfl, rfl, rfl⟩ | .scEncrypt => ⟨15, _, rfl, rfl, rfl, rfl⟩
  | .scDecrypt => ⟨16, _, rfl, rfl, rfl, rfl⟩ | .lcEnc => ⟨17, _, rfl, rfl, rfl, rfl⟩
  | .lcDec => ⟨18, _, rfl, rfl, rfl, rfl⟩ | .lcB2l _ => ⟨19, _, rfl, rfl, rfl, rfl⟩
  | .lcL2b _ => ⟨20, _, rfl, rfl, rfl, rfl⟩ | .ftOpen => ⟨21, _, rfl, rfl, rfl, rfl⟩
  | .ftClose => ⟨22, _, rfl, rfl, rfl, rfl⟩ | .ftWrite => ⟨23, _, rfl, rfl, rfl, rfl⟩
  | .ftRead => ⟨24, _, rfl, rfl, rfl, rfl⟩ | .msgPack _ => ⟨25, _, rfl, rfl, rfl, rfl⟩
  | .msgUnpack => ⟨26, _, rfl, rfl, rfl, rfl⟩

theorem exists_isRowOf (i : Instr) : ∃ r ∈ opcodeMap, r.IsRowOf i := by
  obtain ⟨n, r, hn, hrow⟩ := exists_isRowOf_getElem? i
  exact ⟨r, List.mem_of_getElem? hn, hrow⟩

theorem argument_and_reservedBits (i : Instr) : argument i &&& reservedBits i = 0 := by
  cases i
  case rdreg | setseed | setolen | bpush | bread | btrunc => exact BitVec.and_zero
  case bclr buf =>
    apply BitVec.eq_of_toNat_eq
    have hd : datumOf (bufArg buf 0) = 0 := datumOf_bufArg (Nat.two_pow_pos 28)
    rw [datumOf_eq_mod] at hd
    exact (Nat.and_two_pow_sub_one_eq_mod _ 28).trans hd
  case lcB2l p => revert p; decide
  case lcL2b c => revert c; decide
  case msgPack f => cases f <;> rfl
  all_goals rfl

theorem encode_and_mask {i : Instr} {r : OpRow} (hr : r ∈ opcodeMap) (hrow : r.IsRowOf i) :
    encode i &&& r.mask = r.pattern := by
  obtain ⟨-, hop, hmask⟩ := hrow
  rw [row_covers hr, encode, opOf_append, argOf_append, hmask]
  exact ⟨hop.symm, argument_and_reservedBits i⟩

/-- The word of a decoded command is covered by the command's row. -/
theorem exists_row_of_decode {w : CmdWord} {i : Instr} (h : decode w = .ok i) :
    ∃ r ∈ opcodeMap, w &&& r.mask = r.pattern ∧ r.mnemonic = Machine.mnemonic i := by
  obtain ⟨r, hr, hrow⟩ := exists_isRowOf i
  obtain ⟨rfl, -⟩ := encode_decode h
  exact ⟨r, hr, encode_and_mask hr hrow, hrow.1⟩

/-! ## Words that a row covers (R74) -/

theorem row_eq_of_opcode_eq {r r' : OpRow} (hr : r ∈ opcodeMap) (hr' : r' ∈ opcodeMap)
    (h : opOf r.pattern = opOf r'.pattern) : r = r' :=
  have distinct : definedOpcodes.Nodup := by rw [definedOpcodes_eq]; decide
  List.inj_on_of_nodup_map distinct hr hr' (congrArg BitVec.toNat h)

/-- An argument with no bit from position `n` on is below `2 ^ n`. -/
theorem toNat_lt_of_and_shiftLeft {arg : Word} (n : Nat) (h : arg &&& (BitVec.allOnes 32 <<< n) = 0) :
    arg.toNat < 2 ^ n := by
  refine Nat.lt_pow_two_of_testBit _ fun k hk => ?_
  have hbit := congrArg (fun v : Word => v.getLsbD k) h
  simp only [BitVec.getLsbD_and, BitVec.getLsbD_shiftLeft, BitVec.getLsbD_allOnes, BitVec.ofNat_eq_ofNat,
    BitVec.getLsbD_zero] at hbit
  rw [BitVec.testBit_toNat]
  by_cases hk32 : k < 32
  · simpa [hk32, Nat.not_lt.mpr hk, show k - n < 32 by omega] using hbit
  · exact BitVec.getLsbD_of_ge _ _ (by omega)

theorem datumOf_eq_zero_of_and {arg : Word} (h : arg &&& 0x0FFFFFFF = 0) : datumOf arg = 0 := by
  rw [datumOf_eq_mod, ← Nat.and_two_pow_sub_one_eq_mod]
  exact congrArg BitVec.toNat h

/-- The rows by the format of their words: Z, BZ, P2, P3, F1, and the formats A and B, which reserve no bit (R72). -/
theorem rows_formats : ∀ r ∈ opcodeMap,
    ((opOf r.pattern).toNat ∈ formatZOpcodes ∧ argOf r.mask = BitVec.allOnes 32 <<< 0) ∨
      ((opOf r.pattern).toNat = 0x10 ∧ argOf r.mask = 0x0FFFFFFF) ∨
      ((opOf r.pattern).toNat = 0x42 ∧ argOf r.mask = BitVec.allOnes 32 <<< 2) ∨
      ((opOf r.pattern).toNat = 0x43 ∧ argOf r.mask = BitVec.allOnes 32 <<< 3) ∨
      ((opOf r.pattern).toNat = 0x60 ∧ argOf r.mask = BitVec.allOnes 32 <<< 1) ∨
      opOf r.pattern ∈ [0x01, 0x03, 0x04, 0x11, 0x12, 0x13] := by decide

/-- A word with the opcode of a row and none of the bits that its format reserves is accepted. -/
theorem exists_decodeFields_of_row {r : OpRow} (hr : r ∈ opcodeMap) {arg : Word} (harg : arg &&& argOf r.mask = 0) :
    ∃ i, decodeFields (opOf r.pattern) arg = .ok i := by
  have accepted : ∀ {p : Prop} [Decidable p] (i : Instr), p →
      whenReservedZero (opOf r.pattern) (decide p) i = .ok i := fun i hp =>
    whenReservedZero_eq_ok.mpr ⟨decide_eq_true hp, rfl⟩
  rcases rows_formats r hr with ⟨hop, hm⟩ | ⟨hop, hm⟩ | ⟨hop, hm⟩ | ⟨hop, hm⟩ | ⟨hop, hm⟩ | hop
  · obtain ⟨i, hi⟩ := decodeFields_formatZ arg hop
    have hlt := toNat_lt_of_and_shiftLeft 0 (hm ▸ harg)
    exact ⟨i, hi.trans (accepted i (BitVec.eq_of_toNat_eq (Nat.lt_one_iff.mp hlt)))⟩
  · exact ⟨_, (decodeFields_bclr arg hop).trans (accepted _ (datumOf_eq_zero_of_and (hm ▸ harg)))⟩
  · exact ⟨_, (decodeFields_lcB2l arg hop).trans (accepted _ (toNat_lt_of_and_shiftLeft 2 (hm ▸ harg)))⟩
  · exact ⟨_, (decodeFields_lcL2b arg hop).trans (accepted _ (toNat_lt_of_and_shiftLeft 3 (hm ▸ harg)))⟩
  · exact ⟨_, (decodeFields_msgPack arg hop).trans (accepted _ (toNat_lt_of_and_shiftLeft 1 (hm ▸ harg)))⟩
  · simp only [List.mem_cons, List.not_mem_nil, or_false] at hop
    rcases hop with hop | hop | hop | hop | hop | hop <;> rw [hop] <;> exact ⟨_, rfl⟩

end Sys2Proof

namespace Sys2Proof.Proofs

open Sys2Proof.Machine Sys2Proof.Claims

/-- Settles O3: the decoder reads from the two fields of a word the operands that the encoder put there. -/
theorem decodeOfEncode : Obligations.DecodeOfEncode := fun _ => decode_encode

/-- Settles O4: every arm of the decoder keeps the opcode and the whole argument. -/
theorem encodeOfDecode : Obligations.EncodeOfDecode := fun _ _ => encode_decode

/-- Settles O1: a row covers the words with its opcode only, and no two rows have the same opcode. -/
theorem opcodeRowsNeverOverlap : Obligations.OpcodeRowsNeverOverlap := by
  intro w r r' hr hr' h h'
  obtain ⟨hop, -⟩ := (row_covers hr).mp h
  obtain ⟨hop', -⟩ := (row_covers hr').mp h'
  exact row_eq_of_opcode_eq hr hr' (hop.symm.trans hop')

/-- Settles O2: a decoded word is the encoding of its command, whose row covers it; a covered word is accepted, and the
row of the command it decodes to is the row that covers it, as rows do not overlap. -/
theorem decodeAcceptsExactlyLegalWords : Obligations.DecodeAcceptsExactlyLegalWords := by
  intro w
  refine ⟨fun i => exists_row_of_decode, fun r hr hcover => ?_⟩
  obtain ⟨hop, harg⟩ := (row_covers hr).mp hcover
  obtain ⟨i, hi⟩ := exists_decodeFields_of_row hr harg
  rw [← hop] at hi
  obtain ⟨r', hr', hcover', hname⟩ := exists_row_of_decode hi
  obtain rfl : r = r' := opcodeRowsNeverOverlap w r r' hr hr' hcover hcover'
  exact ⟨i, hi, hname.symm⟩

/-- Settles O5: each word is the encoding of its command, and the two rejected words have a reserved bit and an opcode
of no row. -/
theorem writtenWordsDecode : Obligations.WrittenWordsDecode :=
  ⟨rfl, rfl, rfl, rfl, rfl, rfl, rfl, rfl, rfl, rfl, rfl, rfl, rfl⟩

end Sys2Proof.Proofs
end

section
/-! PROOFS. R39: the invariant holds at power-on, every shared update and every outcome of a command keeps it, and from
these that every step does and that no run stops. -/

namespace Sys2Proof.Machine

/-! ## The updates that keep the invariant (R39) -/

theorem StateInv.withInputs {s : State} (h : StateInv s) (rest : List Input) : StateInv { s with inputs := rest } :=
  { h with }

theorem StateInv.lenOf_le {s : State} (h : StateInv s) (b : Buf) : lenOf s b ≤ capOf s.params b := by
  cases b
  case txt => exact h.tlen
  case key => exact h.klen
  case bit => exact h.blen
  case sym => exact h.slen
  case pay => exact h.plen

theorem StateInv.respond {s : State} (h : StateInv s) (status : BitVec 8) (value : Word) :
    StateInv (respond status value s) :=
  { h with heldUp := nofun }

/-- New buffers within their capacities keep the invariant (R39 item 1). -/
theorem StateInv.withBuffers {s : State} (h : StateInv s) {txt key : List Byte} {bit : List Bool} {sym : List SymWord}
    {pay : List Byte} (hlen : ∀ b, lenOf { s with txt, key, bit, sym, pay } b ≤ capOf s.params b) :
    StateInv { s with txt, key, bit, sym, pay } :=
  { h with tlen := hlen .txt, klen := hlen .key, blen := hlen .bit, slen := hlen .sym, plen := hlen .pay }

theorem StateInv.pushElem {s : State} (h : StateInv s) {b : Buf} (d : Nat) (hroom : lenOf s b ≠ capOf s.params b) :
    StateInv (pushElem b d s) := by
  have hle := h.lenOf_le
  rw [pushElem_frame]
  refine h.withBuffers fun b' => ?_
  rw [← pushElem_frame, lenOf_pushElem]
  split
  · next hb => subst hb; exact Nat.lt_of_le_of_ne (hle b') hroom
  · exact hle b'

theorem StateInv.truncBuf {s : State} (h : StateInv s) (b : Buf) (n : Nat) : StateInv (truncBuf b n s) := by
  have hle := h.lenOf_le
  rw [truncBuf_frame]
  refine h.withBuffers fun b' => ?_
  rw [← truncBuf_frame, lenOf_truncBuf]
  split
  · next hb => subst hb; exact (Nat.min_le_left _ _).trans (hle b')
  · exact hle b'

theorem StateInv.raiseFatal {s : State} (h : StateInv s) (c : FatalCode) (info : Word) :
    StateInv (raiseFatal c info s) :=
  { h with
    fault := by
      obtain ⟨hlow, hhigh⟩ := c.code_bounds
      refine .inr ?_
      rw [raiseFatal_fault, BitVec.toNat_setWidth_of_le (by decide)]
      exact ⟨hlow, hhigh⟩
    heldUp := nofun }

theorem TransportCode.code_bounds (c : TransportCode) : 0x10 ≤ c.code.toNat ∧ c.code.toNat ≤ 0x14 := by
  cases c <;> decide

theorem StateInv.raiseTransport {s : State} (h : StateInv s) (c : TransportCode) : StateInv (raiseTransport c s) :=
  { h with
    terr := by
      obtain ⟨hlow, hhigh⟩ := c.code_bounds
      refine .inr ?_
      rw [raiseTransport_terr, BitVec.toNat_setWidth_of_le (by decide)]
      exact ⟨hlow, hhigh⟩
    heldUp := nofun }

/-- Whatever state a reset finds, it leaves one that meets the invariant (R37). -/
theorem StateInv.resetState {s : State} (hp : s.params.InBounds) : StateInv (resetState s) where
  params := hp
  tlen := Nat.zero_le _
  klen := Nat.zero_le _
  blen := Nat.zero_le _
  slen := Nat.zero_le _
  plen := Nat.zero_le _
  fault := .inl rfl
  terr := .inl rfl
  brokenUp := nofun
  closedDown := nofun
  tornClosed := nofun
  downEmpty := fun _ => ⟨rfl, rfl⟩
  heldUp := nofun

theorem StateInv.illegalWord {s : State} (h : StateInv s) (op : BitVec 8) : StateInv (illegalWord op s) := by
  obtain ⟨-, e⟩ | ⟨-, e⟩ := inRunMode_cases s (Machine.raiseFatal .illegalCommand (op.setWidth 32) s)
  · rw [Machine.illegalWord, e]; exact h.raiseFatal _ _
  · rw [Machine.illegalWord, e]; exact h.respond _ _

/-! ## The link's commands and steps (R39 item 5) -/

theorem StateInv.openWith {s : State} (h : StateInv s) (ok : Bool) : StateInv (openWith ok s) := by
  cases ok
  case false => exact h.raiseTransport .connection
  case true =>
    exact { h with
      brokenUp := nofun, closedDown := nofun, tornClosed := nofun, downEmpty := nofun, heldUp := nofun }

theorem StateInv.ftClose {s : State} (h : StateInv s) :
    StateInv (respondOk 0 (dropLink { s with status := { s.status with broken := false } })) :=
  { h with brokenUp := nofun, closedDown := fun _ => rfl, downEmpty := fun _ => ⟨rfl, rfl⟩, heldUp := nofun }

theorem StateInv.writeWith {s : State} (h : StateInv s) (k : Nat) (hl : s.status.linkup = true) :
    StateInv (writeWith k s) := by
  unfold Machine.writeWith
  split
  · refine StateInv.raiseTransport ?_ _
    exact { h with brokenUp := fun _ => hl }
  · exact { h with heldUp := nofun }

theorem StateInv.readOversize {s : State} (h : StateInv s) (n : Nat) (hb : s.status.broken = false) :
    StateInv (readOversize n s) := by
  refine StateInv.raiseTransport (s := dropLink { s with rxlen := lenWord n, rxcnt := 0, held := false }) ?_ _
  exact { h with
    brokenUp := fun hbroken => absurd (hb.symm.trans hbroken) (by decide)
    closedDown := fun _ => rfl, downEmpty := fun _ => ⟨rfl, rfl⟩, heldUp := nofun }

theorem StateInv.readClosed {s : State} (h : StateInv s) (n cnt : Nat) (torn : Bool) (hb : s.status.broken = false) :
    StateInv (readClosed n cnt torn s) :=
  { h with
    brokenUp := fun hbroken => absurd (hb.symm.trans hbroken) (by decide)
    closedDown := fun _ => rfl, tornClosed := fun _ => rfl, downEmpty := fun _ => ⟨rfl, rfl⟩, heldUp := nofun }

theorem StateInv.readComplete {s : State} (h : StateInv s) {n : Nat} (hl : s.status.linkup = true)
    (hn : n ≤ s.params.pmax) : StateInv (readComplete n s) :=
  { h with
    plen := (List.length_take_le _ _).trans hn
    downEmpty := fun hdown => absurd (hl.symm.trans hdown) (by decide)
    heldUp := nofun }

theorem StateInv.unpackTo {s : State} (h : StateInv s) {m : Message} (hm : m.Fits s.params) :
    StateInv (unpackTo m s) := by
  obtain ⟨hsym, hkey, htext⟩ := hm
  refine { h with slen := hsym, klen := hkey, tlen := ?_ }
  cases ht : m.text
  case none => simp [Machine.unpackTo, ht]
  case some t => simpa [Machine.unpackTo, ht] using htext t ht

theorem StateInv.linkStep {s : State} (h : StateInv s) (e : LinkStep) : StateInv (linkStep e s) := by
  cases e
  all_goals
    unfold Machine.linkStep
    dsimp only
    split
  case deliver.isTrue b hc =>
    have hl : s.status.linkup = true := (Bool.and_eq_true_iff.mp hc).1
    exact { h with downEmpty := fun hdown => absurd (hl.symm.trans hdown) (by decide) }
  case close.isTrue hc =>
    have hl : s.status.linkup = true := (Bool.and_eq_true_iff.mp hc).1
    exact { h with downEmpty := fun hdown => absurd (hl.symm.trans hdown) (by decide) }
  case fail.isTrue hl => exact { h with brokenUp := fun _ => hl }
  all_goals exact h

/-! ## Every outcome of a command, and every step -/

theorem Effect.keeps_inv {i : Instr} {s t : State} (he : Effect i s t) (h : StateInv s) : StateInv t := by
  cases he
  case refused | noRegister | nop | rdreg | bread | lcB2l | lcL2b => exact h.respond _ _
  case fatal => exact h.raiseFatal _ _
  case sreset => exact (StateInv.resetState h.params).respond _ _
  case setseed | setolen => exact { h with heldUp := nofun }
  case bpush d b _ _ _ hc => exact (h.pushElem d hc).respond _ _
  case truncate => exact (h.truncBuf _ _).respond _ _
  case newBit b v _ _ hb =>
    have hbit := h.blen; have htxt := h.tlen; have hsym := h.slen
    have hle : b.length ≤ 8 * s.params.tmax := by omega
    exact { h with blen := hle, heldUp := nofun }
  case newTxt t v _ _ ht =>
    have hbit := h.blen
    have hle : t.length ≤ s.params.tmax := by omega
    exact { h with tlen := hle, heldUp := nofun }
  case lcEnc ws v _ hw =>
    have hbit := h.blen
    have hle : ws.length ≤ s.params.tmax := by omega
    exact { h with slen := hle, heldUp := nofun }
  case transport => exact h.raiseTransport _
  case ftOpen => exact StateInv.openWith (s := passOpenDraw s) { h with } _
  case ftClose => exact h.ftClose
  case ftWrite hl _ => exact StateInv.writeWith (s := passWriteDraw s) { h with } _ hl
  case readOversize hb _ _ => exact h.readOversize _ hb
  case readComplete hl _ _ hp _ => exact h.readComplete hl hp
  case readClosed hb => exact h.readClosed _ _ _ hb
  case hold hf hl _ => exact { h with heldUp := fun _ => ⟨hl, hf⟩ }
  case msgPack hp => exact { h with plen := hp, heldUp := nofun }
  case msgUnpack hm => exact (h.unpackTo hm).respond _ _

theorem step_keeps_inv {s t : State} (h : StateInv s) (hstep : step s = .next t) : StateInv t := by
  obtain ⟨-, hread⟩ | ⟨-, -, rfl⟩ | ⟨-, rest, hacts⟩ := step_cases hstep
  · exact (exec_effect hread).keeps_inv h
  · exact h
  · have hrest := h.withInputs rest
    obtain ⟨w, i, -, -, hexec⟩ | ⟨w, e, -, -, rfl⟩ | ⟨e, -, rfl⟩ | ⟨-, rfl⟩ | ⟨w, k, -, rfl⟩ := hacts
    · exact (exec_effect hexec).keeps_inv hrest
    · exact hrest.illegalWord _
    · exact hrest.linkStep e
    · exact StateInv.resetState h.params
    · exact StateInv.resetState h.params

theorem issue_answers (w : CmdWord) (s : State) : ∃ t, issue w s = .next t := by
  unfold issue
  split
  · exact exec_answers _ s
  · exact ⟨_, rfl⟩

theorem step_answers (s : State) : ∃ t, step s = .next t := by
  unfold step
  split
  · exact exec_answers _ s
  · split
    · exact ⟨_, rfl⟩
    · next e rest _ =>
      cases e with
      | command w => exact issue_answers w _
      | link e => exact ⟨_, rfl⟩
      | hardReset => exact ⟨_, rfl⟩
      | abandoned w k => exact ⟨_, rfl⟩

theorem run_succ {s t : State} (n : Nat) (h : step s = .next t) : core.run (n + 1) s = core.run n t := by
  have hrun := Host.Core.run.eq_2 core s n
  rwa [show core.step s = .next t from h] at hrun

/-- From a state that meets the invariant no run stops, and it leaves one that meets it. -/
theorem run_keeps_inv (n : Nat) {s : State} (h : StateInv s) : ∃ t : State, core.run n s = .next t ∧ StateInv t := by
  induction n generalizing s with
  | zero => exact ⟨s, rfl, h⟩
  | succ n ih =>
    obtain ⟨u, hu⟩ := step_answers s
    obtain ⟨t, hrun, ht⟩ := ih (step_keeps_inv h hu)
    exact ⟨t, (run_succ n hu).trans hrun, ht⟩

/-- The state right after power-on is that of a reset, whatever is listed for the agents outside (R37). -/
theorem PowerOn.inv {s : State} (h : PowerOn s) : StateInv s := by
  obtain ⟨hp, hs⟩ := h
  rw [hs]
  exact StateInv.resetState
    (s := { State.reset with
      params := s.params, inputs := s.inputs, openDraws := s.openDraws, writeDraws := s.writeDraws
      drawCount := s.drawCount }) hp

end Sys2Proof.Machine

namespace Sys2Proof.Proofs

open Sys2Proof.Machine Sys2Proof.Claims

/-- Settles O11: a power-on state is one that a reset leaves. -/
theorem invariantAtPowerOn : Obligations.InvariantAtPowerOn := fun _ => PowerOn.inv

/-- Settles O12: by the cases of a step, a command's by the cases of its outcome. -/
theorem stepKeepsInvariant : Obligations.StepKeepsInvariant := fun _ _ => step_keeps_inv

/-- Settles O13: by induction on the number of steps, each of which answers a next state and keeps the invariant. -/
theorem runsNeverStop : Obligations.RunsNeverStop := fun n _ h => run_keeps_inv n h.inv

end Sys2Proof.Proofs
end

section
/-! PROOFS. R100, R174, R175, R230, R231 and R240: what a step does with the action that is next, what the link steps
and resets leave of the state, and from these the statements about steps, holds, resets and TXOUT. -/

namespace Sys2Proof.Machine

open Sys2Proof.Claims

/-! ## The action that is next (R100, R174, R240) -/

theorem step_of_readCompletes {s : State} (h : readCompletes s = true) : step s = exec .ftRead s := if_pos h

theorem step_of_nextInput {s : State} {e : Input} {rest : List Input} (hc : readCompletes s = false)
    (hn : nextInput s = some (e, rest)) : step s = accept e { s with inputs := rest } := by
  simp [step, hc, hn]

theorem step_of_nextInput_none {s : State} (hc : readCompletes s = false) (hn : nextInput s = none) :
    step s = .next s := by
  simp [step, hc, hn]

theorem readCompletes_eq_false {s : State} (h : s.held = true → readReady s = false) : readCompletes s = false := by
  cases hh : s.held
  case false => simp [readCompletes, hh]
  case true => simp [readCompletes, hh, h hh]

theorem readCompletes_of_not_held {s : State} (hh : s.held = false) : readCompletes s = false := by
  rw [readCompletes, hh]; rfl

theorem readCompletes_of_held {s : State} (hh : s.held = true) (hr : readReady s = true) : readCompletes s = true := by
  rw [readCompletes, hh, hr]; rfl

/-- Without a hold the next action is the first of the list. -/
theorem nextInput_of_not_held {s : State} {e : Input} {rest : List Input} (hh : s.held = false)
    (hin : s.inputs = e :: rest) : nextInput s = some (e, rest) := by
  simp [nextInput, hh, hin]

theorem nextWhileHeld_of_waiting {e : Input} (he : e = .hardReset ∨ ∃ k, e = .link k) (waiting : List CmdWord)
    (rest : List Input) :
    nextWhileHeld (waiting.map Input.command ++ e :: rest) = some (e, waiting.map Input.command ++ rest) := by
  induction waiting with
  | nil => obtain rfl | ⟨k, rfl⟩ := he <;> rfl
  | cons w waiting ih => simp only [List.map_cons, List.cons_append, nextWhileHeld, ih, Option.map_some]

/-- A link step or a reset is next when only command words stand before it, and none unless an FT.READ holds. -/
theorem nextInput_of_waiting {s : State} {e : Input} (he : e = .hardReset ∨ ∃ k, e = .link k) {waiting : List CmdWord}
    {rest : List Input} (hwait : s.held = false → waiting = [])
    (hin : s.inputs = waiting.map Input.command ++ e :: rest) :
    nextInput s = some (e, waiting.map Input.command ++ rest) := by
  cases hh : s.held
  case false =>
    obtain rfl := hwait hh
    exact nextInput_of_not_held hh hin
  case true => rw [nextInput, if_pos hh, hin, nextWhileHeld_of_waiting he]

/-- During a hold a link step or a hardware reset is next, and the host's commands wait in their order (R240). -/
theorem nextInput_held {s : State} {e : Input} {rest : List Input} (hh : s.held = true)
    (h : nextInput s = some (e, rest)) :
    (e = .hardReset ∨ ∃ k, e = .link k) ∧
      ∀ f : Input → Option CmdWord, f .hardReset = none → (∀ k, f (.link k) = none) →
        rest.filterMap f = s.inputs.filterMap f := by
  rw [nextInput, if_pos hh] at h
  obtain ⟨hacts, -, horder⟩ := nextWhileHeld_spec h
  exact ⟨hacts, horder⟩

/-! ## The link steps (R175) -/

theorem linkStep_deliver {s : State} (b : Byte) (hl : s.status.linkup = true) (he : s.rxeof = false) :
    linkStep (.deliver b) s = { s with rxfifo := s.rxfifo ++ [b] } := by
  simp [linkStep, hl, he]

theorem linkStep_close {s : State} (hl : s.status.linkup = true) (he : s.rxeof = false) :
    linkStep .close s = { s with rxeof := true } := by
  simp [linkStep, hl, he]

theorem linkStep_fail {s : State} (hl : s.status.linkup = true) :
    linkStep .fail s = { s with status := { s.status with broken := true } } := if_pos hl

theorem linkStep_deliver_disabled {s : State} (b : Byte) (h : s.status.linkup = false ∨ s.rxeof = true) :
    linkStep (.deliver b) s = s := by
  obtain h | h := h <;> simp [linkStep, h]

theorem linkStep_close_disabled {s : State} (h : s.status.linkup = false ∨ s.rxeof = true) :
    linkStep .close s = s := by
  obtain h | h := h <;> simp [linkStep, h]

/-- On a link that is down no link step is enabled. -/
theorem linkStep_of_down {s : State} (e : LinkStep) (h : s.status.linkup = false) : linkStep e s = s := by
  cases e with
  | deliver b => exact linkStep_deliver_disabled b (.inl h)
  | close => exact linkStep_close_disabled (.inl h)
  | fail => simp [linkStep, h]

@[simp] theorem linkStep_held (e : LinkStep) (s : State) : (linkStep e s).held = s.held := by
  cases e <;> simp only [linkStep] <;> split <;> rfl

@[simp] theorem linkStep_inputs (e : LinkStep) (s : State) : (linkStep e s).inputs = s.inputs := by
  cases e <;> simp only [linkStep] <;> split <;> rfl

@[simp] theorem linkStep_responses (e : LinkStep) (s : State) : (linkStep e s).responses = s.responses := by
  cases e <;> simp only [linkStep] <;> split <;> rfl

@[simp] theorem linkStep_txout (e : LinkStep) (s : State) : (linkStep e s).txout = s.txout := by
  cases e <;> simp only [linkStep] <;> split <;> rfl

/-! ## Abandoned commands (R231) -/

theorem abandonedBytes_ftWrite {s : State} {k : Nat} (hf : s.fault = 0) (hl : s.status.linkup = true)
    (hb : s.status.broken = false) (hk : k < 4 + s.pay.length) :
    abandonedBytes 0x5200000000 k s = (frame s.pay).take k := by
  have hmin : min k (3 + s.pay.length) = k := by omega
  rw [abandonedBytes, show decode 0x5200000000 = .ok .ftWrite from rfl]
  exact (if_pos ⟨hf, hl, hb⟩).trans (by rw [hmin])

theorem abandonedBytes_eq_nil {s : State} {w : CmdWord} (k : Nat)
    (h : w ≠ 0x5200000000 ∨ s.fault ≠ 0 ∨ s.status.linkup = false ∨ s.status.broken = true) :
    abandonedBytes w k s = [] := by
  unfold abandonedBytes
  split
  · next hdec =>
    have hw : w = 0x5200000000 := (encode_decode hdec).1.symm
    refine if_neg ?_
    rintro ⟨hf, hl, hb⟩
    simp [hw, hf, hl, hb] at h
  · rfl

/-- A reset that abandons a command is one that finds its bytes on TXOUT. -/
theorem abandon_eq_resetFrom {s : State} {w : CmdWord} {k : Nat} {bytes : List Byte}
    (h : abandonedBytes w k s = bytes) :
    abandon w k s = resetFrom { s with txout := s.txout ++ bytes } := by
  rw [abandon, h]; rfl

/-! ## TXOUT (R32) -/

theorem writeWith_txout (k : Nat) (s : State) : (writeWith k s).txout = s.txout ++ (frame s.pay).take k := by
  unfold writeWith; split <;> rfl

/-- A command appends to TXOUT, or it is an FT.OPEN that attaches a connection. -/
theorem Effect.txout_cases {i : Instr} {s t : State} (h : Effect i s t) :
    (∃ bytes, t.txout = s.txout ++ bytes) ∨
      (i = .ftOpen ∧ t.txout = [] ∧ s.status.linkup = false ∧ t.status.linkup = true) := by
  have kept : ∀ {u : State}, u.txout = s.txout → ∃ bytes, u.txout = s.txout ++ bytes := fun hu =>
    ⟨[], by rw [hu, List.append_nil]⟩
  cases h
  case ftOpen ok _ hl =>
    cases ok
    case false => exact .inl (kept rfl)
    case true => exact .inr ⟨rfl, rfl, hl, rfl⟩
  case ftWrite => exact .inl ⟨_, writeWith_txout _ _⟩
  case bpush => exact .inl (kept (by rw [pushElem_frame]; rfl))
  case truncate => exact .inl (kept (by rw [truncBuf_frame]; rfl))
  all_goals exact .inl (kept rfl)

theorem illegalWord_txout (op : BitVec 8) (s : State) : (illegalWord op s).txout = s.txout := by
  obtain ⟨-, e⟩ | ⟨-, e⟩ := inRunMode_cases s (raiseFatal .illegalCommand (op.setWidth 32) s) <;>
    rw [illegalWord, e] <;> rfl

/-! ## A frame that arrives byte by byte (R174, R177) -/

theorem frameLen_append {q : List Byte} {n : Nat} (h : frameLen q = some n) (more : List Byte) :
    frameLen (q ++ more) = some n := by
  obtain ⟨hn, rest, rfl⟩ := frameLen_eq_some h
  rw [List.append_assoc, frameLen_u32be hn]

/-- While a frame is not complete FT.READ is not ready. -/
theorem readReady_eq_false_of_prefix {s : State} {p more : List Byte} (hb : s.status.broken = false)
    (he : s.rxeof = false) (hfit : p.length ≤ s.params.pmax) (hsmall : p.length < 2 ^ 32)
    (hq : s.rxfifo ++ more = frame p) (hmore : more ≠ []) : readReady s = false := by
  have hlen := congrArg List.length hq
  have hpos := List.length_pos_iff.mpr hmore
  rw [List.length_append, frame_length] at hlen
  cases hL : frameLen s.rxfifo with
  | none => exact readReady_eq_false_of_header hb he (frameLen_eq_none.mp hL)
  | some n =>
    have hn := frameLen_append hL more
    rw [hq, frame, frameLen_u32be hsmall] at hn
    obtain rfl := Option.some.inj hn
    exact readReady_eq_false_of_payload hb he hL hfit (by omega)

theorem readReady_of_frame {s : State} {p : List Byte} (hq : s.rxfifo = frame p) (hsmall : p.length < 2 ^ 32) :
    readReady s = true := by
  have hL : frameLen s.rxfifo = some p.length := by rw [hq, frame, frameLen_u32be hsmall]
  have hlen : 4 + p.length ≤ s.rxfifo.length := by rw [hq, frame_length]
  simp [readReady, hL, hlen]

end Sys2Proof.Machine

namespace Sys2Proof.Proofs

open Sys2Proof.Machine Sys2Proof.Claims

/-- Settles O7: each clause says which action is next. -/
theorem stepRunsDecodedCommand : Obligations.StepRunsDecodedCommand := by
  refine ⟨fun s w rest i => step_of_decode_ok, fun s w i hw hdec => ?_,
    fun s hh hr => step_of_readCompletes (readCompletes_of_held hh hr), fun s hh hin => ?_⟩
  · rw [State.withFetchWord, Nat.mod_eq_of_lt hw]
    exact step_of_decode_ok (rest := s.inputs) rfl rfl hdec
  · refine step_of_nextInput_none (readCompletes_of_not_held hh) ?_
    simp [nextInput, hh, hin]

/-- Settles O8: the link step is next, whether or not an FT.READ holds, and `linkStep` is what it does. -/
theorem linkStepsAsEnabled : Obligations.LinkStepsAsEnabled := by
  intro s waiting rest hready hwait
  have link_next : ∀ e, s.inputs = waiting.map Input.command ++ .link e :: rest →
      step s = .next (linkStep e { s with inputs := waiting.map Input.command ++ rest }) := fun e hin =>
    step_of_nextInput (readCompletes_eq_false hready) (nextInput_of_waiting (.inr ⟨e, rfl⟩) hwait hin)
  refine ⟨fun b hin => ?_, fun hin => ?_, fun hin => ?_⟩ <;> rw [link_next _ hin]
  · exact ⟨fun hl he => congrArg _ (linkStep_deliver b hl he), fun h => congrArg _ (linkStep_deliver_disabled b h)⟩
  · exact ⟨fun hl he => congrArg _ (linkStep_close hl he), fun h => congrArg _ (linkStep_close_disabled h)⟩
  · exact ⟨fun hl => congrArg _ (linkStep_fail hl), fun hl => congrArg _ (linkStep_of_down .fail hl)⟩

/-- Settles O9: the reset is next, and leaves on TXOUT what the abandoned command had sent. -/
theorem hardwareResetEffect : Obligations.HardwareResetEffect := by
  have abandon_next : ∀ {s : State} {w : CmdWord} {k : Nat} {rest : List Input}, s.held = false →
      s.inputs = .abandoned w k :: rest → step s = .next (abandon w k { s with inputs := rest }) := fun hh hin =>
    step_of_nextInput (readCompletes_of_not_held hh) (nextInput_of_not_held hh hin)
  refine ⟨fun s rest hin hready => ?_, fun s k rest hh hin hf hl hb hk => ?_, fun s w k rest hh hin h => ?_⟩
  · exact step_of_nextInput (readCompletes_eq_false hready)
      (nextInput_of_waiting (waiting := []) (.inl rfl) (fun _ => rfl) hin)
  · rw [abandon_next hh hin, bytesBE_eq_u32be]
    exact congrArg _ (abandon_eq_resetFrom (abandonedBytes_ftWrite hf hl hb hk))
  · have hnone : abandonedBytes w k { s with inputs := rest } = [] := abandonedBytes_eq_nil k h
    rw [abandon_next hh hin, abandon_eq_resetFrom hnone, List.append_nil]

/-- Settles O10: RDREG reads every register below the constants as 0 in the reset state. -/
theorem resetLeaves : Obligations.ResetLeaves := by
  refine ⟨fun b => by cases b <;> rfl, fun a ha => exec_rdreg_of_readReg ?_, rfl, rfl, rfl, rfl, rfl, rfl, rfl, rfl⟩
  interval_cases a <;> rfl

/-- Settles O22: what a command, a link step and a reset leave of TXOUT. -/
theorem txoutIsAppendOnly : Obligations.TxoutIsAppendOnly := by
  intro s t hstep
  obtain ⟨-, hread⟩ | ⟨-, -, rfl⟩ | ⟨-, rest, hacts⟩ := step_cases hstep
  · exact .inl ((exec_effect hread).txout_cases.resolve_right fun h => nomatch h.1)
  · exact .inl ⟨[], (List.append_nil _).symm⟩
  · obtain ⟨w, i, hnext, hdec, hexec⟩ | ⟨w, e, -, -, rfl⟩ | ⟨e, -, rfl⟩ | ⟨-, rfl⟩ | ⟨w, k, -, rfl⟩ := hacts
    · obtain happend | ⟨rfl, hempty, hdown, hup⟩ := (exec_effect hexec).txout_cases
      · exact .inl happend
      · have hw : w = 0x5000000000 := (encode_decode hdec).1.symm
        exact .inr ⟨hempty, hdown, hup, rest, hw ▸ hnext⟩
    · exact .inl ⟨[], by rw [illegalWord_txout, List.append_nil]⟩
    · exact .inl ⟨[], by rw [linkStep_txout, List.append_nil]⟩
    · exact .inl ⟨[], (List.append_nil _).symm⟩
    · exact .inl ⟨_, rfl⟩

/-- Settles O50: by induction on the bytes to come, each of which leaves a shorter rest of the frame. -/
theorem heldReadCompletesWhenFrameArrives : Obligations.HeldReadCompletesWhenFrameArrives := by
  intro s bs p rest hh hf hp hl hb he hq hfit hin
  have hsmall : p.length < 2 ^ 32 := by
    obtain ⟨-, -, -, -, -, hpmax⟩ := hp
    omega
  rw [bytesBE_eq_u32be] at hq
  induction bs generalizing s with
  | nil =>
    rw [List.append_nil] at hq
    obtain rfl : s.inputs = rest := hin
    have hready := readReady_of_frame hq hsmall
    have hread := exec_ftRead_frame (rest := []) hf hp hl hb (hq.trans (List.append_nil _).symm) hfit
    exact run_succ 0 ((step_of_readCompletes (readCompletes_of_held hh hready)).trans hread)
  | cons b bs ih =>
    have hready : readReady s = false := readReady_eq_false_of_prefix hb he hfit hsmall hq (List.cons_ne_nil _ _)
    have hnext := nextInput_of_waiting (waiting := []) (.inr ⟨.deliver b, rfl⟩) (fun _ => rfl) hin
    have hstep := (step_of_nextInput (readCompletes_eq_false fun _ => hready) hnext).trans
      (congrArg Host.Outcome.next (linkStep_deliver b hl he))
    rw [List.length_cons, run_succ _ hstep]
    have hq' : s.rxfifo ++ [b] ++ bs = u32be p.length ++ p := (List.append_assoc _ _ _).trans hq
    exact ih _ hh hf hp hl hb he hq' hfit rfl

/-- Settles O51: what is next during a hold is a link step or a hardware reset. -/
theorem heldReadBlocksCommands : Obligations.HeldReadBlocksCommands := by
  intro s t hh hready hstep
  obtain ⟨hc, -⟩ | ⟨-, -, rfl⟩ | ⟨-, rest, hacts⟩ := step_cases hstep
  · rw [readCompletes_eq_false fun _ => hready] at hc; cases hc
  · exact ⟨rfl, rfl, .inl hh⟩
  · obtain ⟨w, i, he, -, -⟩ | ⟨w, e, he, -, -⟩ | ⟨e, he, rfl⟩ | ⟨he, rfl⟩ | ⟨w, k, he, -⟩ := hacts
    · obtain ⟨h | ⟨k, h⟩, -⟩ := nextInput_held hh he <;> cases h
    · obtain ⟨h | ⟨k, h⟩, -⟩ := nextInput_held hh he <;> cases h
    · obtain ⟨-, horder⟩ := nextInput_held hh he
      rw [linkStep_responses, linkStep_inputs, linkStep_held]
      exact ⟨rfl, horder _ rfl fun _ => rfl, .inl hh⟩
    · obtain ⟨-, horder⟩ := nextInput_held hh he
      exact ⟨rfl, horder _ rfl fun _ => rfl, .inr ⟨rest, he⟩⟩
    · obtain ⟨h | ⟨k, h⟩, -⟩ := nextInput_held hh he <;> cases h

end Sys2Proof.Proofs
end

section
/-! PROOFS. R58, R75, R171, R173, R208: how many responses an outcome has, what a transport-class response says, what
the reading commands leave, what FT.OPEN and FT.WRITE do in RUN mode, and from these the statements about them. -/

namespace Sys2Proof.Machine

open Sys2Proof.Claims

/-! ## One response or a hold (R75, R100) -/

/-- The state has one more response than `s`, and nothing is in flight. -/
def AnsweredOnce (s t : State) : Prop := ∃ r, t.responses = s.responses ++ [r] ∧ t.held = false

theorem answeredOnce_respond {s u : State} (status : BitVec 8) (value : Word) (hu : u.responses = s.responses) :
    AnsweredOnce s (respond status value u) :=
  ⟨_, by rw [respond_responses, hu], rfl⟩

theorem answeredOnce_raiseTransport {s u : State} (c : TransportCode) (hu : u.responses = s.responses) :
    AnsweredOnce s (raiseTransport c u) :=
  ⟨_, by rw [raiseTransport_responses, hu], rfl⟩

/-- Every outcome of a command answers once, except the hold of FT.READ. -/
theorem Effect.answers_or_holds {i : Instr} {s t : State} (h : Effect i s t) :
    AnsweredOnce s t ∨ (i = .ftRead ∧ t = { s with held := true }) := by
  cases h
  case hold => exact .inr ⟨rfl, rfl⟩
  case bpush => exact .inl (answeredOnce_respond _ _ (by rw [pushElem_frame]))
  case truncate => exact .inl (answeredOnce_respond _ _ (by rw [truncBuf_frame]))
  case ftOpen ok _ _ =>
    cases ok
    case false => exact .inl (answeredOnce_raiseTransport _ rfl)
    case true => exact .inl (answeredOnce_respond _ _ rfl)
  case ftWrite =>
    refine .inl ?_
    unfold writeWith
    split
    · exact answeredOnce_raiseTransport _ rfl
    · exact answeredOnce_respond _ _ rfl
  case transport | readOversize => exact .inl (answeredOnce_raiseTransport _ rfl)
  all_goals exact .inl ⟨_, rfl, rfl⟩

/-! ## Transport-class responses (R202, R208) -/

/-- FAULT, FINFO, the buffers, SEED and OLEN are as in `s`. -/
def SameData (s t : State) : Prop :=
  t.fault = s.fault ∧ t.finfo = s.finfo ∧ t.txt = s.txt ∧ t.key = s.key ∧ t.bit = s.bit ∧ t.sym = s.sym ∧
    t.pay = s.pay ∧ t.seed = s.seed ∧ t.olen = s.olen

/-- A command that answers once has one response. -/
theorem eq_of_responses {s t : State} {r r' : Response} (h : t.responses = s.responses ++ [r])
    (h' : t.responses = s.responses ++ [r']) : r = r' := by
  simpa using h.symm.trans h'

/-- An outcome raises a transport-class error with the data as it was, or its response has a status of another class. -/
theorem Effect.transport_or_other {i : Instr} {s t : State} (h : Effect i s t) :
    (∃ c u, t = raiseTransport c u ∧ u.responses = s.responses ∧ SameData s u) ∨
      ∀ r, t.responses = s.responses ++ [r] → r.status.toNat < 0x10 ∨ 0x14 < r.status.toNat := by
  have other : ∀ {status : BitVec 8} {value : Word}, status.toNat < 0x10 ∨ 0x14 < status.toNat →
      t.responses = s.responses ++ [⟨status, value⟩] →
      ∀ r, t.responses = s.responses ++ [r] → r.status.toNat < 0x10 ∨ 0x14 < r.status.toNat := by
    intro status value hstatus ht r hr
    rwa [eq_of_responses hr ht]
  cases h
  case transport c _ _ => exact .inl ⟨c, s, rfl, rfl, rfl, rfl, rfl, rfl, rfl, rfl, rfl, rfl, rfl⟩
  case readOversize => exact .inl ⟨_, _, rfl, rfl, rfl, rfl, rfl, rfl, rfl, rfl, rfl, rfl, rfl⟩
  case ftOpen ok _ _ =>
    cases ok
    case false => exact .inl ⟨_, _, rfl, rfl, rfl, rfl, rfl, rfl, rfl, rfl, rfl, rfl, rfl⟩
    case true => exact .inr (other (.inl (by decide)) rfl)
  case ftWrite =>
    unfold writeWith at other ⊢
    split
    · exact .inl ⟨_, _, rfl, rfl, rfl, rfl, rfl, rfl, rfl, rfl, rfl, rfl, rfl⟩
    · next hk =>
      rw [if_neg hk] at other
      exact .inr (other (.inl (by decide)) rfl)
  case fatal c info _ _ =>
    obtain ⟨-, hhigh⟩ := c.code_bounds
    exact .inr (other (.inl (by omega)) rfl)
  case hold => exact .inr fun r hr => by simp at hr
  case bpush => exact .inr (other (status := 0x00) (.inl (by decide)) (by rw [pushElem_frame]; rfl))
  case truncate => exact .inr (other (status := 0x00) (.inl (by decide)) (by rw [truncBuf_frame]; rfl))
  case readClosed => exact .inr (other (.inr (by decide)) rfl)
  all_goals exact .inr (other (.inl (by decide)) rfl)

/-! ## Reading commands (R58) -/

/-- BREAD, RDREG, LC.B2L and LC.L2B (R58). -/
def IsRead (i : Instr) : Prop :=
  (∃ buf d, i = .bread buf d) ∨ (∃ a, i = .rdreg a) ∨ (∃ p, i = .lcB2l p) ∨ (∃ c, i = .lcL2b c)

/-- A reading command that answers OK only answers, and answers the same again. -/
theorem Effect.read_ok {i : Instr} {s t : State} (h : Effect i s t) (hi : IsRead i) {r : Response}
    (hr : t.responses = s.responses ++ [r]) (hok : r.status = 0x00) :
    ∃ v, t = respond 0x00 v s ∧ exec i t = .next (respond 0x00 v t) := by
  have not_ok : ∀ {status : BitVec 8} {value : Word}, status ≠ 0x00 →
      t.responses ≠ s.responses ++ [⟨status, value⟩] := by
    intro status value hne ht
    rw [eq_of_responses hr ht] at hok
    exact hne hok
  cases h
  case refused => exact absurd rfl (not_ok (by decide))
  case noRegister => exact absurd rfl (not_ok (by decide))
  case fatal c info _ _ => exact absurd rfl (not_ok (status := c.code) (by cases c <;> decide))
  case rdreg a v ha => exact ⟨v, rfl, exec_rdreg_of_readReg ha⟩
  case bread buf d b v hb hf hv =>
    obtain rfl := bufOfId_eq_some.mp hb
    exact ⟨v, rfl, exec_bread_of_readElem (s := respondOk v s) hf hv⟩
  case lcB2l p hf => exact ⟨_, rfl, exec_lcB2l (s := respondOk _ s) hf p⟩
  case lcL2b c p hc hf => exact ⟨_, rfl, exec_lcL2b (s := respondOk _ s) hf hc⟩
  case truncate hi' _ => obtain ⟨_, rfl⟩ | ⟨_, _, rfl⟩ | rfl := hi' <;> simp [IsRead] at hi
  case newBit hi' _ _ => obtain rfl | rfl | rfl | rfl | rfl | rfl := hi' <;> simp [IsRead] at hi
  case newTxt hi' _ _ => obtain rfl | rfl := hi' <;> simp [IsRead] at hi
  case transport hi' _ => obtain rfl | rfl | rfl | rfl := hi' <;> simp [IsRead] at hi
  all_goals simp [IsRead] at hi

/-! ## FT.OPEN and FT.WRITE in RUN mode (R171, R173) -/

section
variable {s : State} (hf : s.fault = 0)
include hf

theorem exec_ftOpen_linkBusy (hl : s.status.linkup = true) :
    exec .ftOpen s = .next (raiseTransport .linkBusy s) :=
  (next_inRunMode hf).trans (by rw [if_pos hl])

theorem exec_ftOpen (hl : s.status.linkup = false) :
    exec .ftOpen s = .next (openWith (drawnOk s) (passOpenDraw s)) :=
  (next_inRunMode hf).trans (by rw [if_neg (by simp [hl])])

theorem exec_ftWrite_notConnected (hl : s.status.linkup = false) :
    exec .ftWrite s = .next (raiseTransport .notConnected s) :=
  (next_inRunMode hf).trans (by rw [hl]; rfl)

theorem exec_ftWrite_broken (hl : s.status.linkup = true) (hb : s.status.broken = true) :
    exec .ftWrite s = .next (raiseTransport .transport s) :=
  (next_inRunMode hf).trans (by rw [hl, hb]; rfl)

theorem exec_ftWrite (hl : s.status.linkup = true) (hb : s.status.broken = false) :
    exec .ftWrite s = .next (writeWith (drawnAccepts (4 + s.pay.length) s) (passWriteDraw s)) :=
  (next_inRunMode hf).trans (by rw [hl, hb]; rfl)

end

theorem drawnOk_of_listed {s : State} {ok : Bool} {rest : List Bool} (h : s.openDraws = ok :: rest) :
    drawnOk s = ok := by
  simp [drawnOk, h]

theorem drawnAccepts_of_listed {s : State} {k : Nat} {rest : List Nat} (n : Nat) (h : s.writeDraws = k :: rest) :
    drawnAccepts n s = min k n := by
  simp [drawnAccepts, h]

theorem drawnAccepts_le (n : Nat) (s : State) : drawnAccepts n s ≤ n := by
  unfold drawnAccepts
  split <;> exact Nat.min_le_right _ _

/-- All of the frame is accepted (R173). -/
theorem writeWith_all (s : State) :
    writeWith (4 + s.pay.length) s =
      respond 0x00 (lenWord s.pay.length) { s with txout := s.txout ++ frame s.pay } := by
  have hall : (frame s.pay).take (4 + s.pay.length) = frame s.pay := List.take_of_length_le (frame_length _).le
  rw [writeWith, hall]
  exact if_neg (Nat.lt_irrefl _)

/-- Fewer bytes than the frame has are accepted (R173). -/
theorem writeWith_prefix {s : State} {k : Nat} (h : k < 4 + s.pay.length) :
    writeWith k s = raiseTransport .transport
      { s with txout := s.txout ++ (frame s.pay).take k, status := { s.status with broken := true } } :=
  if_pos h

end Sys2Proof.Machine

namespace Sys2Proof.Proofs

open Sys2Proof.Machine Sys2Proof.Claims

/-- Settles O15: every outcome of a command has one response but the hold. -/
theorem everyCommandAnswersOnce : Obligations.EveryCommandAnswersOnce := by
  intro i s
  obtain ⟨t, ht⟩ := exec_answers i s
  exact ⟨t, ht, (exec_effect ht).answers_or_holds⟩

/-- Settles O19: the outcomes with a transport-class status are those of `raiseTransport`. -/
theorem transportErrorsAreNotFatal : Obligations.TransportErrorsAreNotFatal := by
  intro i s t r hexec hr hlow hhigh
  obtain ⟨c, u, rfl, hu, hdata⟩ | hother := (exec_effect hexec).transport_or_other
  · obtain rfl : r = ⟨c.code, 0⟩ := eq_of_responses hr (by rw [raiseTransport_responses, hu])
    exact ⟨rfl, rfl, hdata⟩
  · have := hother r hr
    omega

/-- Settles O20: a read that answers OK adds its response alone, and reads nothing that a response changes. -/
theorem readsHaveNoSideEffects : Obligations.ReadsHaveNoSideEffects := by
  intro i s t r hi hexec hr hok
  obtain ⟨v, rfl, hagain⟩ := (exec_effect hexec).read_ok hi hr hok
  obtain rfl : r = ⟨0x00, v⟩ := eq_of_responses hr rfl
  exact ⟨rfl, hagain⟩

/-- Settles O33: SC.XOR twice applies `xorBits` twice. -/
theorem scXorTwiceRestores : Obligations.ScXorTwiceRestores := fun _ hf hk =>
  ⟨_, _, runsOk_of_exec (exec_scXor hf hk) hf rfl, runsOk_of_exec (exec_scXor hf hk) hf rfl, xorBits_xorBits _ _⟩

/-- Settles O36: each rotation leaves a non-empty BIT, and `permBits` and `unpermBits` undo each other. -/
theorem rotationsAreInverse : Obligations.RotationsAreInverse := by
  intro s hf hb
  have hpos := List.length_pos_iff.mpr hb
  have hperm : permBits s.bit s.seed.toInt ≠ [] := List.length_pos_iff.mp (by rwa [permBits_length])
  have hunperm : unpermBits s.bit s.seed.toInt ≠ [] := List.length_pos_iff.mp (by rwa [unpermBits_length])
  constructor
  · exact ⟨_, _, runsOk_of_exec (exec_scPerm hf hb) hf rfl, runsOk_of_exec (exec_scUnperm hf hperm) hf rfl,
      unpermBits_permBits _ _⟩
  · exact ⟨_, _, runsOk_of_exec (exec_scUnperm hf hb) hf rfl, runsOk_of_exec (exec_scPerm hf hunperm) hf rfl,
      permBits_unpermBits _ _⟩

/-- Settles O46: with the link down FT.OPEN goes by the draw. -/
theorem ftOpenAttaches : Obligations.FtOpenAttaches := by
  refine ⟨rfl, fun s hf => ⟨exec_ftOpen_linkBusy hf, fun hl => ⟨drawnOk s, fun o rest => drawnOk_of_listed,
    fun hok => ?_, fun hok => ?_⟩⟩⟩
  · rw [Answers, exec_ftOpen hf hl, hok]; rfl
  · rw [Answers, exec_ftOpen hf hl, hok]; rfl

/-- Settles O48: with the link up and not broken FT.WRITE goes by the number of bytes drawn. -/
theorem ftWriteSendsFrame : Obligations.FtWriteSendsFrame := by
  refine ⟨rfl, fun s hf => ⟨exec_ftWrite_notConnected hf, exec_ftWrite_broken hf, fun hl hb => ?_⟩⟩
  refine ⟨drawnAccepts (4 + s.pay.length) s, drawnAccepts_le _ s, fun n rest => drawnAccepts_of_listed _,
    fun hall => ?_, fun hlt => ?_⟩
  · rw [Answers, exec_ftWrite hf hl hb, hall, bytesBE_eq_u32be, List.append_assoc]
    exact congrArg _ (writeWith_all (passWriteDraw s))
  · rw [Answers, exec_ftWrite hf hl hb, bytesBE_eq_u32be]
    exact congrArg _ (writeWith_prefix (s := passWriteDraw s) hlt)

end Sys2Proof.Proofs
end

section
/-! PROOFS. R61: a command other than FT.OPEN, FT.READ and FT.WRITE neither reads nor writes what the link steps change,
unless it is RDREG of STATUS, FT.CLOSE or SRESET; so it commutes with them. -/

namespace Sys2Proof.Machine

/-! ## What a link step changes (R175) -/

/-- The state with these values of what the link steps change: RXFIFO, RXEOF and BROKEN. -/
def withLink (fifo : List Byte) (eof broken : Bool) (s : State) : State :=
  { s with rxfifo := fifo, rxeof := eof, status := { s.status with broken := broken } }

/-- LINKUP, RXFIFO, RXEOF and BROKEN, which decide what a link step does, are as in `s`. -/
def SameLink (s t : State) : Prop :=
  t.status.linkup = s.status.linkup ∧ t.rxfifo = s.rxfifo ∧ t.rxeof = s.rxeof ∧ t.status.broken = s.status.broken

theorem withLink_self (s : State) : withLink s.rxfifo s.rxeof s.status.broken s = s := rfl

/-- A link step gives RXFIFO, RXEOF and BROKEN new values that depend on those, on LINKUP and on nothing else. -/
theorem linkStep_eq_withLink (e : LinkStep) (s : State) :
    ∃ fifo eof broken, (e ≠ .fail → broken = s.status.broken) ∧
      ∀ t, SameLink s t → linkStep e t = withLink fifo eof broken t := by
  have unchanged : (∀ t, SameLink s t → linkStep e t = t) → ∃ fifo eof broken,
      (e ≠ .fail → broken = s.status.broken) ∧
        ∀ t, SameLink s t → linkStep e t = withLink fifo eof broken t := fun h => by
    refine ⟨s.rxfifo, s.rxeof, s.status.broken, fun _ => rfl, fun t ht => ?_⟩
    obtain ⟨-, hfifo, heof, hbroken⟩ := id ht
    rw [h t ht, ← hfifo, ← heof, ← hbroken, withLink_self]
  have disabled : ¬ (s.status.linkup = true ∧ s.rxeof = false) →
      ∀ {t}, SameLink s t → t.status.linkup = false ∨ t.rxeof = true := fun h t ⟨hup, _, heof, _⟩ => by
    rw [hup, heof]
    simpa [imp_iff_not_or] using h
  cases e with
  | fail =>
    cases hl : s.status.linkup
    case false => exact unchanged fun t ⟨hup, _⟩ => linkStep_of_down .fail (hup.trans hl)
    case true =>
      refine ⟨s.rxfifo, s.rxeof, true, fun h => absurd rfl h, fun t ⟨hup, hfifo, heof, _⟩ => ?_⟩
      rw [linkStep_fail (hup.trans hl), ← hfifo, ← heof]; rfl
  | close =>
    by_cases h : s.status.linkup = true ∧ s.rxeof = false
    · refine ⟨s.rxfifo, true, s.status.broken, fun _ => rfl, fun t ⟨hup, hfifo, heof, hbroken⟩ => ?_⟩
      rw [linkStep_close (hup.trans h.1) (heof.trans h.2), ← hfifo, ← hbroken]; rfl
    · exact unchanged fun t ht => linkStep_close_disabled (disabled h ht)
  | deliver b =>
    by_cases h : s.status.linkup = true ∧ s.rxeof = false
    · refine ⟨s.rxfifo ++ [b], s.rxeof, s.status.broken, fun _ => rfl, fun t ⟨hup, hfifo, heof, hbroken⟩ => ?_⟩
      rw [linkStep_deliver b (hup.trans h.1) (heof.trans h.2), ← hfifo, ← heof, ← hbroken]; rfl
    · exact unchanged fun t ht => linkStep_deliver_disabled b (disabled h ht)

/-! ## Commands that leave the link alone -/

/-- The commands that have no effect on the link, whatever they read or write besides. -/
def LinkFree (i : Instr) : Prop :=
  i ≠ .sreset ∧ i ≠ .ftOpen ∧ i ≠ .ftClose ∧ i ≠ .ftRead ∧ i ≠ .ftWrite

theorem Effect.sameLink {i : Instr} {s t : State} (h : Effect i s t) (hi : LinkFree i) : SameLink s t := by
  obtain ⟨hsreset, hopen, hclose, hread, hwrite⟩ := hi
  cases h
  case sreset => exact absurd rfl hsreset
  case ftOpen => exact absurd rfl hopen
  case ftClose => exact absurd rfl hclose
  case ftWrite => exact absurd rfl hwrite
  case readOversize | readComplete | readClosed | hold => exact absurd rfl hread
  case bpush => rw [pushElem_frame]; exact ⟨rfl, rfl, rfl, rfl⟩
  case truncate => rw [truncBuf_frame]; exact ⟨rfl, rfl, rfl, rfl⟩
  all_goals exact ⟨rfl, rfl, rfl, rfl⟩

section
variable (fifo : List Byte) (eof broken : Bool) (s : State)

@[simp] theorem withLink_params : (withLink fifo eof broken s).params = s.params := rfl
@[simp] theorem withLink_sym : (withLink fifo eof broken s).sym = s.sym := rfl
@[simp] theorem withLink_pay : (withLink fifo eof broken s).pay = s.pay := rfl

theorem ite_withLink {c : Prop} [Decidable c] {x y x' y' : State} (hx : x' = withLink fifo eof broken x)
    (hy : y' = withLink fifo eof broken y) :
    (if c then x' else y') = withLink fifo eof broken (if c then x else y) := by
  rw [hx, hy, apply_ite (withLink fifo eof broken)]

theorem inRunMode_withLink {b b' : State} (h : b' = withLink fifo eof broken b) :
    inRunMode (withLink fifo eof broken s) b' = withLink fifo eof broken (inRunMode s b) :=
  ite_withLink _ _ _ h rfl

theorem lenOf_withLink (b : Buf) : lenOf (withLink fifo eof broken s) b = lenOf s b := by
  cases b <;> rfl

theorem readElem_withLink (b : Buf) (d : Nat) : readElem (withLink fifo eof broken s) b d = readElem s b d := by
  cases b <;> rfl

theorem pushElem_withLink (b : Buf) (d : Nat) :
    pushElem b d (withLink fifo eof broken s) = withLink fifo eof broken (pushElem b d s) := by
  cases b <;> rfl

theorem truncBuf_withLink (b : Buf) (n : Nat) :
    truncBuf b n (withLink fifo eof broken s) = withLink fifo eof broken (truncBuf b n s) := by
  cases b <;> rfl

/-- STATUS alone shows what a link step changes, and of that BROKEN alone (R28). -/
theorem readReg_withLink {a : Word} (h : a = 0x03 → broken = s.status.broken) :
    readReg (withLink fifo eof broken s) a = readReg s a := by
  by_cases ha : a = 0x03
  · rw [h ha]; subst ha; rfl
  · have hne : a.toNat ≠ 0x03 := fun h3 => ha (BitVec.eq_of_toNat_eq h3)
    unfold readReg
    split
    case h_4 h3 => exact absurd h3 hne
    all_goals rfl

theorem pushChecked_withLink (b : Buf) (d : Nat) :
    pushChecked b d (withLink fifo eof broken s) = withLink fifo eof broken (pushChecked b d s) := by
  unfold pushChecked
  rw [pushElem_withLink, lenOf_withLink]
  exact ite_withLink _ _ _ rfl (ite_withLink _ _ _ rfl (ite_withLink _ _ _ rfl rfl))

/-- What a link-free command leaves, with other values on the link. -/
theorem exec_withLink {i : Instr} (hi : LinkFree i) (hstatus : i = .rdreg 0x03 → broken = s.status.broken) {t : State}
    (h : exec i s = .next t) : exec i (withLink fifo eof broken s) = .next (withLink fifo eof broken t) := by
  obtain ⟨hsreset, hopen, hclose, hread, hwrite⟩ := hi
  cases i <;> injection h with h <;> subst h <;> refine congrArg Host.Outcome.next ?_
  case nop => rfl
  case rdreg a =>
    rw [readReg_withLink _ _ _ _ (fun ha => hstatus (by rw [ha]))]
    cases readReg s a
    case some v => rfl
    case none => exact ite_withLink _ _ _ rfl rfl
  case sreset => exact absurd rfl hsreset
  case ftOpen => exact absurd rfl hopen
  case ftClose => exact absurd rfl hclose
  case ftRead => exact absurd rfl hread
  case ftWrite => exact absurd rfl hwrite
  all_goals refine inRunMode_withLink _ _ _ _ ?_
  case bclr buf =>
    cases bufOfId buf
    case none => rfl
    case some b => exact congrArg (respondOk 0) (truncBuf_withLink _ _ _ _ b 0)
  case bpush buf d =>
    cases bufOfId buf
    case none => rfl
    case some b => exact pushChecked_withLink _ _ _ _ b d
  case bread buf d =>
    cases bufOfId buf
    case none => rfl
    case some b =>
      simp only [readElem_withLink]
      cases readElem s b d <;> rfl
  case btrunc buf d =>
    cases bufOfId buf
    case none => rfl
    case some b =>
      simp only [lenOf_withLink, truncBuf_withLink]
      rfl
  case bcDec | scXor | scPerm | scUnperm | msgPack => exact ite_withLink _ _ _ rfl rfl
  case scEncrypt => exact ite_withLink _ _ _ rfl (ite_withLink _ _ _ rfl rfl)
  case scDecrypt => exact ite_withLink _ _ _ rfl (ite_withLink _ _ _ rfl (ite_withLink _ _ _ rfl rfl))
  case lcDec =>
    rw [withLink_sym]
    rcases firstInvalidFrom 0 (allLanes s.sym) with _ | ⟨pos, c⟩ <;> rfl
  case lcL2b c => cases bitpairOf c <;> rfl
  case msgUnpack =>
    rw [withLink_params, withLink_pay]
    cases parse s.params s.pay <;> rfl
  all_goals rfl

end

/-! ## The two orders (R61) -/

section
variable {i : Instr} {e : LinkStep} {s t : State}

/-- A command that does not see the link's values, and leaves them, can be taken before or after a link step. -/
theorem exec_linkStep_of_sameLink (hsame : SameLink s t)
    (hexec : ∀ fifo eof broken, (e ≠ .fail → broken = s.status.broken) →
      exec i (withLink fifo eof broken s) = .next (withLink fifo eof broken t)) :
    exec i (linkStep e s) = .next (linkStep e t) := by
  obtain ⟨fifo, eof, broken, hbroken, hlink⟩ := linkStep_eq_withLink e s
  rw [hlink s ⟨rfl, rfl, rfl, rfl⟩, hlink t hsame]
  exact hexec fifo eof broken hbroken

/-- So can a command that puts the link down whatever the link's values are. -/
theorem exec_linkStep_of_down (hdown : t.status.linkup = false)
    (hexec : ∀ fifo eof broken, exec i (withLink fifo eof broken s) = .next t) :
    exec i (linkStep e s) = .next (linkStep e t) := by
  obtain ⟨fifo, eof, broken, -, hlink⟩ := linkStep_eq_withLink e s
  rw [hlink s ⟨rfl, rfl, rfl, rfl⟩, linkStep_of_down e hdown]
  exact hexec fifo eof broken

theorem exec_linkStep_of_linkFree (hi : LinkFree i) (hstatus : i = .rdreg 0x03 → e ≠ .fail)
    (h : exec i s = .next t) : exec i (linkStep e s) = .next (linkStep e t) :=
  exec_linkStep_of_sameLink ((exec_effect h).sameLink hi) fun _ _ _ hbroken =>
    exec_withLink _ _ _ _ hi (fun ha => hbroken (hstatus ha)) h

/-- A refused command only answers. -/
theorem exec_linkStep_of_refused (hi : i ≠ .nop ∧ i ≠ .sreset ∧ ∀ a, i ≠ .rdreg a) (hs : s.fault ≠ 0)
    (h : exec i s = .next t) : exec i (linkStep e s) = .next (linkStep e t) := by
  obtain rfl := (exec_effect h).refused_of_faulted hs hi
  exact exec_linkStep_of_sameLink ⟨rfl, rfl, rfl, rfl⟩ fun fifo eof broken _ =>
    exec_refused (s := withLink fifo eof broken s) hs hi

theorem exec_sreset_linkStep (h : exec .sreset s = .next t) : exec .sreset (linkStep e s) = .next (linkStep e t) := by
  injection h with h
  subst h
  exact exec_linkStep_of_down rfl fun _ _ _ => rfl

theorem exec_ftClose_linkStep (h : exec .ftClose s = .next t) :
    exec .ftClose (linkStep e s) = .next (linkStep e t) := by
  by_cases hs : s.fault = 0
  · rw [exec_ftClose hs] at h
    injection h with h
    subst h
    exact exec_linkStep_of_down rfl fun fifo eof broken => exec_ftClose (s := withLink fifo eof broken s) hs
  · exact exec_linkStep_of_refused (by simp) hs h

theorem exec_ftOpen_linkStep (hl : s.status.linkup = true) (h : exec .ftOpen s = .next t) :
    exec .ftOpen (linkStep e s) = .next (linkStep e t) := by
  by_cases hs : s.fault = 0
  · rw [exec_ftOpen_linkBusy hs hl] at h
    injection h with h
    subst h
    exact exec_linkStep_of_sameLink ⟨rfl, rfl, rfl, rfl⟩ fun fifo eof broken _ =>
      exec_ftOpen_linkBusy (s := withLink fifo eof broken s) hs hl
  · exact exec_linkStep_of_refused (by simp) hs h

end

/-- RDREG of STATUS after a failure of the link leaves what it leaves before it, but for the value read. -/
theorem exec_rdreg_status_fail (s : State) :
    exec (.rdreg 0x03) (linkStep .fail s) =
      .next { linkStep .fail (respond 0x00 s.status.word s) with
        responses := s.responses ++ [{ status := 0x00, value := (linkStep .fail s).status.word }] } := by
  obtain ⟨fifo, eof, broken, -, hlink⟩ := linkStep_eq_withLink .fail s
  rw [hlink (respond 0x00 s.status.word s) ⟨rfl, rfl, rfl, rfl⟩, hlink s ⟨rfl, rfl, rfl, rfl⟩]
  exact exec_rdreg_of_readReg rfl

end Sys2Proof.Machine

namespace Sys2Proof.Proofs

open Sys2Proof.Machine Sys2Proof.Claims

/-- Settles O21: commands that leave the link alone do not see it; SRESET and FT.CLOSE put it down in either order, and
FT.OPEN of a link that is up is LinkBusy in either order. -/
theorem linkStepsCommuteWithCommands : Obligations.LinkStepsCommuteWithCommands := by
  refine ⟨fun i e s t hread hwrite hopen hstatus h => ?_, fun s t h => ?_⟩
  · by_cases hsreset : i = .sreset
    · subst hsreset; exact exec_sreset_linkStep h
    by_cases hclose : i = .ftClose
    · subst hclose; exact exec_ftClose_linkStep h
    by_cases hi : i = .ftOpen
    · subst hi; exact exec_ftOpen_linkStep (hopen rfl) h
    exact exec_linkStep_of_linkFree ⟨hsreset, hi, hclose, hread, hwrite⟩ hstatus h
  · rw [exec_rdreg_of_readReg (v := s.status.word) rfl] at h
    injection h with h
    subst h
    exact ⟨_, exec_rdreg_status_fail s⟩

end Sys2Proof.Proofs
end

section
/-! PROOFS. R170, R174, R186 and R187: frames of a stream taken off one after another, what the sender's commands put on
TXOUT, and what the receiver's turns make of it. -/

namespace Sys2Proof.Machine

open Sys2Proof.Claims

/-! ## Streams of frames (R170) -/

theorem frame_append_inj {p q x y : List Byte} (hp : p.length < 2 ^ 32) (hq : q.length < 2 ^ 32)
    (h : frame p ++ x = frame q ++ y) : p = q ∧ x = y := by
  have hlen : p.length = q.length := by
    have hL := congrArg frameLen h
    simpa [frame, List.append_assoc, frameLen_u32be hp, frameLen_u32be hq] using hL
  obtain ⟨hframe, hrest⟩ := List.append_inj h (by rw [frame_length, frame_length, hlen])
  exact ⟨(List.append_inj hframe rfl).2, hrest⟩

theorem frame_ne_nil (p : List Byte) : frame p ≠ [] :=
  List.length_pos_iff.mp (by rw [frame_length]; omega)

/-- A stream splits into frames in one way. -/
theorem flatMap_frame_inj {ps qs : List (List Byte)} (hps : ∀ p ∈ ps, p.length < 2 ^ 32)
    (hqs : ∀ q ∈ qs, q.length < 2 ^ 32) (h : ps.flatMap frame = qs.flatMap frame) : ps = qs := by
  induction ps generalizing qs with
  | nil =>
    cases qs with
    | nil => rfl
    | cons q qs => exact absurd (List.append_eq_nil_iff.mp h.symm).1 (frame_ne_nil q)
  | cons p ps ih =>
    cases qs with
    | nil => exact absurd (List.append_eq_nil_iff.mp h).1 (frame_ne_nil p)
    | cons q qs =>
      obtain ⟨hp, hps'⟩ := List.forall_mem_cons.mp hps
      obtain ⟨hq, hqs'⟩ := List.forall_mem_cons.mp hqs
      obtain ⟨rfl, hrest⟩ := frame_append_inj hp hq h
      exact congrArg (p :: ·) (ih hps' hqs' hrest)

theorem execAll_cons {i : Instr} {s t : State} (rest : List Instr) (h : exec i s = .next t) :
    execAll (i :: rest) s = execAll rest t := by
  rw [execAll, h, andThen_next]

/-- One FT.READ per frame takes the frames off RXFIFO in their order (R60, R174). -/
theorem execAll_ftRead {ps : List (List Byte)} {s : State} {rest : List Byte} (hf : s.fault = 0)
    (hp : s.params.InBounds) (hl : s.status.linkup = true) (hb : s.status.broken = false)
    (hfit : ∀ p ∈ ps, p.length ≤ s.params.pmax) (hq : s.rxfifo = ps.flatMap frame ++ rest) :
    ∃ u, execAll (List.replicate ps.length .ftRead) s = .next u ∧ u.fault = 0 ∧ u.rxfifo = rest ∧
      u.pay = ps.getLastD s.pay ∧ u.responses = s.responses ++ ps.map fun p => ⟨0x00, lenWord p.length⟩ := by
  induction ps generalizing s with
  | nil => exact ⟨s, rfl, hf, hq, rfl, (List.append_nil _).symm⟩
  | cons p ps ih =>
    obtain ⟨hfitp, hfit⟩ := List.forall_mem_cons.mp hfit
    rw [List.flatMap_cons, List.append_assoc] at hq
    have hread := exec_ftRead_frame hf hp hl hb hq hfitp
    obtain ⟨u, hu, hfault, hrest, hpay, hresp⟩ := ih (s := respond 0x00 (lenWord p.length)
      { s with
        pay := p, rxfifo := ps.flatMap frame ++ rest, rxlen := lenWord p.length, rxcnt := lenWord p.length })
      hf hp hl hb hfit rfl
    refine ⟨u, (execAll_cons _ hread).trans hu, hfault, hrest, hpay.trans List.getLastD_cons.symm, ?_⟩
    rw [hresp, respond_responses, List.append_assoc]
    rfl

/-! ## Loading a text buffer (R87, R106) -/

/-- The text that a text buffer holds (R21). -/
def textOf (s : State) : Buf → List Byte
  | .txt => s.txt
  | .key => s.key
  | _ => []

/-- The state with this text in a text buffer. -/
def withText (b : Buf) (t : List Byte) (s : State) : State :=
  match b with
  | .txt => { s with txt := t }
  | .key => { s with key := t }
  | _ => s

theorem isText_cases {b : Buf} (hb : isText b = true) : b = .txt ∨ b = .key := by
  revert hb; cases b <;> decide

theorem pushElem_character {b : Buf} (hb : isText b = true) (x : Byte) (s : State) :
    pushElem b x.toNat s = withText b (textOf s b ++ [x]) s := by
  obtain rfl | rfl := isText_cases hb <;> rw [pushElem, BitVec.ofNat_toNat, BitVec.setWidth_eq] <;> rfl

theorem withText_fault (b : Buf) (t : List Byte) (s : State) : (withText b t s).fault = s.fault := by
  cases b <;> rfl

theorem withText_params (b : Buf) (t : List Byte) (s : State) : (withText b t s).params = s.params := by
  cases b <;> rfl

theorem lenOf_respond (status : BitVec 8) (value : Word) (s : State) (b : Buf) :
    lenOf (respond status value s) b = lenOf s b := by
  cases b <;> rfl

/-- Pushing a text character by character appends it, when there is room for it. -/
theorem execAll_pushBytes {b : Buf} (hb : isText b = true) {xs : List Byte} {s : State} (hf : s.fault = 0)
    (hroom : lenOf s b + xs.length ≤ capOf s.params b) :
    ∃ hd rs, execAll (pushBytes b xs) s =
      .next { withText b (textOf s b ++ xs) s with held := hd, responses := rs } := by
  induction xs generalizing s with
  | nil =>
    refine ⟨s.held, s.responses, ?_⟩
    obtain rfl | rfl := isText_cases hb <;> rw [List.append_nil] <;> rfl
  | cons x xs ih =>
    rw [List.length_cons] at hroom
    have hx : x.toNat ≤ wmaxOf b := by rw [wmaxOf_of_isText hb]; have := x.isLt; omega
    have hpush : exec (.bpush (bufId b) x.toNat) s =
        .next (respond 0x00 (lenWord (lenOf s b + 1)) (withText b (textOf s b ++ [x]) s)) :=
      (exec_bpush_bufId hf b x.toNat).trans
        (by rw [pushChecked_of_fits hx, if_neg (by omega), pushElem_character hb])
    rw [pushBytes, List.map_cons, execAll_cons _ hpush]
    obtain ⟨hd, rs, hrest⟩ := ih (s := respond 0x00 (lenWord (lenOf s b + 1)) (withText b (textOf s b ++ [x]) s))
      (by rw [respond_fault, withText_fault, hf])
      (by
        rw [respond_params, withText_params, ← pushElem_character hb, lenOf_respond, lenOf_pushElem, if_pos rfl]
        omega)
    refine ⟨hd, rs, hrest.trans ?_⟩
    obtain rfl | rfl := isText_cases hb
    · simp [withText, textOf]
    · simp [withText, textOf]

/-- LOADS of a text that fits (R87, R107). -/
theorem execAll_loadBytes {b : Buf} (hb : isText b = true) {xs : List Byte} {s : State} (hf : s.fault = 0)
    (hroom : xs.length ≤ capOf s.params b) :
    ∃ hd rs, execAll (loadBytes b xs) s = .next { withText b xs s with held := hd, responses := rs } := by
  have hclear : truncBuf b 0 s = withText b [] s := by
    obtain rfl | rfl := isText_cases hb <;> simp [truncBuf, withText]
  have hbclr := exec_bclr_bufId hf b
  rw [hclear] at hbclr
  rw [loadBytes, execAll_cons _ hbclr]
  obtain ⟨hd, rs, hpush⟩ := execAll_pushBytes hb (xs := xs)
    (s := respond 0x00 (lenWord (min (lenOf s b) 0)) (withText b [] s))
    (by rw [respond_fault, withText_fault, hf])
    (by
      rw [respond_params, withText_params, ← hclear, lenOf_respond, lenOf_truncBuf, if_pos rfl, Nat.min_zero]
      omega)
  refine ⟨hd, rs, hpush.trans ?_⟩
  obtain rfl | rfl := isText_cases hb
  · simp [withText, textOf]
  · simp [withText, textOf]

/-! ## The sender (R186) -/

/-- The Message that the sender packs for a text and a key: the text encrypted and line-coded, its length in bits. -/
def sentMessage (m k : List Byte) (f : Bool) : Message :=
  { symbols := lcEncode (encryptText m k), key := k, olen := lenWord (8 * m.length)
    text := if f then some m else none }

theorem lcEncode_encryptText_length (m k : List Byte) : (lcEncode (encryptText m k)).length = m.length := by
  rw [lcEncode_length, encryptText_length]; omega

theorem serialize_sentMessage_length (m k : List Byte) (f : Bool) :
    (serialize (sentMessage m k f)).length =
      19 + 2 * m.length + k.length + (if f = true then 5 + m.length else 0) := by
  rw [serialize_length, sentMessage]
  simp only [lcEncode_encryptText_length]
  cases f <;> rfl

theorem sentMessage_fits {m k : List Byte} {f : Bool} {p : Params} (hm : m.length ≤ p.tmax) (hk : k.length ≤ p.kmax) :
    (sentMessage m k f).Fits p := by
  refine ⟨(lcEncode_encryptText_length m k).trans_le hm, hk, fun t ht => ?_⟩
  cases f
  case false => cases ht
  case true => cases ht; exact hm

theorem exec_setolen {s : State} (hf : s.fault = 0) (a : Word) :
    exec (.setolen a) s = .next (respond 0x00 0 { s with olen := a }) :=
  next_inRunMode hf

theorem exec_ftWrite_all {s : State} {accepts : Nat} {draws : List Nat} (hf : s.fault = 0)
    (hl : s.status.linkup = true) (hb : s.status.broken = false) (hdraw : s.writeDraws = accepts :: draws)
    (hacc : 4 + s.pay.length ≤ accepts) :
    exec .ftWrite s =
      .next (respond 0x00 (lenWord s.pay.length) { passWriteDraw s with txout := s.txout ++ frame s.pay }) := by
  rw [exec_ftWrite hf hl hb, drawnAccepts_of_listed _ hdraw, Nat.min_eq_right hacc]
  exact congrArg _ (writeWith_all (passWriteDraw s))

/-- Packing the buffers' Message and sending it on a link that accepts the whole frame. -/
theorem execAll_packAndWrite {s : State} {f : Bool} {msg : Message} {accepts : Nat} {draws : List Nat}
    (hf : s.fault = 0) (hl : s.status.linkup = true) (hb : s.status.broken = false) (hmsg : messageOf f s = msg)
    (hfit : (serialize msg).length ≤ s.params.pmax) (hdraw : s.writeDraws = accepts :: draws)
    (hacc : 4 + (serialize msg).length ≤ accepts) :
    ∃ t, execAll [.msgPack f, .ftWrite] s = .next t ∧ t.fault = 0 ∧
      t.txout = s.txout ++ frame (serialize msg) := by
  subst hmsg
  have hpack := exec_msgPack (f := f) hf (by rwa [← serialize_messageOf_length])
  have hwrite := exec_ftWrite_all (s := respond 0x00 (lenWord (packedSize f s))
    { s with pay := serialize (messageOf f s) }) hf hl hb hdraw hacc
  exact ⟨_, (execAll_cons _ hpack).trans (execAll_cons _ hwrite), hf, rfl⟩

/-- The sender's commands after the loads. -/
theorem execAll_encryptAndSend {s : State} {m k : List Byte} {f : Bool} {accepts : Nat} {draws : List Nat}
    (hf : s.fault = 0) (ht : s.txt = m) (hk : s.key = k) (hm : m ≠ []) (hk' : k ≠ []) (hl : s.status.linkup = true)
    (hb : s.status.broken = false) (hfit : (serialize (sentMessage m k f)).length ≤ s.params.pmax)
    (hdraw : s.writeDraws = accepts :: draws) (hacc : 4 + (serialize (sentMessage m k f)).length ≤ accepts) :
    ∃ t, execAll [.scEncrypt, .rdreg 0x06, .setolen (lenWord (8 * m.length)), .lcEnc, .msgPack f, .ftWrite] s =
        .next t ∧ t.fault = 0 ∧ t.txout = s.txout ++ frame (serialize (sentMessage m k f)) := by
  subst ht hk
  rw [execAll_cons _ (exec_scEncrypt hf hk' hm), execAll_cons _ (exec_rdreg_of_readReg rfl),
    execAll_cons _ (exec_setolen (by exact hf) _), execAll_cons _ (exec_lcEnc (by exact hf))]
  exact execAll_packAndWrite hf hl hb rfl hfit hdraw hacc

/-- The sender of a text and a key that fit sends the frame of their Message. -/
theorem execAll_senderCommands {s : State} {m k : List Byte} {f : Bool} {accepts : Nat} {draws : List Nat}
    (hf : s.fault = 0) (hm : m ≠ []) (hk : k ≠ []) (hl : s.status.linkup = true) (hb : s.status.broken = false)
    (hmfit : m.length ≤ s.params.tmax) (hkfit : k.length ≤ s.params.kmax)
    (hfit : (serialize (sentMessage m k f)).length ≤ s.params.pmax)
    (hdraw : s.writeDraws = accepts :: draws) (hacc : 4 + (serialize (sentMessage m k f)).length ≤ accepts) :
    ∃ t, execAll (senderCommands m k f) s = .next t ∧ t.fault = 0 ∧
      t.txout = s.txout ++ frame (serialize (sentMessage m k f)) := by
  obtain ⟨hd, rs, htxt⟩ := execAll_loadBytes (b := .txt) rfl hf hmfit
  obtain ⟨hd', rs', hkey⟩ := execAll_loadBytes (b := .key) rfl
    (s := { withText .txt m s with held := hd, responses := rs }) hf hkfit
  obtain ⟨t, hsend, hfault, htxout⟩ := execAll_encryptAndSend (f := f)
    (s := { withText .key k { withText .txt m s with held := hd, responses := rs } with held := hd', responses := rs' })
    hf rfl rfl hm hk hl hb hfit hdraw hacc
  rw [senderCommands, List.append_assoc, execAll_append _ htxt, execAll_append _ hkey]
  exact ⟨t, hsend, hfault, htxout⟩

/-! ## The receiver (R187) -/

theorem askAll_nil (s : State) : askAll [] s = .next (.values [], s) := rfl

theorem lcDecode_lcEncode_encryptText (m k : List Byte) :
    lcDecode (lcEncode (encryptText m k)) = encryptText m k := by
  have hpad : padCount (encryptText m k).length = 0 := by rw [encryptText_length, padCount]; omega
  rw [lcDecode_lcEncode, hpad, List.replicate_zero, List.append_nil]

theorem encryptText_ne_nil {m : List Byte} (k : List Byte) (hm : m ≠ []) : encryptText m k ≠ [] := by
  have hpos := List.length_pos_iff.mpr hm
  exact List.length_pos_iff.mp (by rw [encryptText_length]; omega)

section
variable {s : State} {m k : List Byte} (hf : s.fault = 0)
include hf

theorem exec_lcDec_sent (hsym : s.sym = lcEncode (encryptText m k)) :
    exec .lcDec s =
      .next (respond 0x00 (lenWord (encryptText m k).length) { s with bit := encryptText m k }) := by
  have hdec := exec_lcDec hf (by rw [hsym]; exact lcEncode_valid _)
  have hbit : lcDecode s.sym = encryptText m k := by rw [hsym, lcDecode_lcEncode_encryptText]
  rwa [hbit] at hdec

/-- BTRUNCO keeps all of a BIT that is as long as OLEN says. -/
theorem exec_btrunco_whole (h : s.bit.length = s.olen.toNat) :
    exec .btrunco s = .next (respond 0x00 (lenWord s.bit.length) s) := by
  have htrunc := exec_btrunco hf
  rwa [← h, lenOf, Nat.min_self, truncBuf, List.take_length] at htrunc

theorem exec_scDecrypt_sent (hk : s.key ≠ []) (hm : m ≠ []) (hbit : s.bit = encryptText m s.key) :
    exec .scDecrypt s = .next (respond 0x00 (lenWord m.length) { s with txt := m }) := by
  have hlen : s.bit.length % 8 = 0 := by rw [hbit, encryptText_length]; omega
  have hdec := exec_scDecrypt hf (by rw [hbit]; exact encryptText_ne_nil _ hm) hk hlen
  rwa [hbit, decryptBits_encryptText, ← hbit] at hdec

/-- A sent Message in PAY is recovered: the last response is the length of its text, which is then in TXT. -/
theorem askAll_recoverCommands {f : Bool} (hp : s.params.InBounds) (hm : m ≠ []) (hk : k ≠ [])
    (hmfit : m.length ≤ s.params.tmax) (hkfit : k.length ≤ s.params.kmax)
    (hpay : s.pay = serialize (sentMessage m k f)) :
    ∃ vs u, askAll recoverCommands s = .next (.values vs, u) ∧ vs.getLastD 0 = lenWord m.length ∧ u.txt = m ∧
      u.fault = 0 ∧ u.rxfifo = s.rxfifo := by
  have hparse := parse_serialize hp (sentMessage_fits (f := f) hmfit hkfit)
  rw [← hpay] at hparse
  have hunpack := exec_msgUnpack hf hparse
  have holen : (encryptText m k).length = (lenWord (8 * m.length)).toNat := by
    obtain ⟨-, htmax, -⟩ := hp
    rw [encryptText_length, lenWord, BitVec.toNat_ofNat, Nat.mod_eq_of_lt (by omega)]
  have hrecover := askAll_ok hunpack (heard_ok _ _) <|
    askAll_ok (exec_lcDec_sent (m := m) (k := k) (by exact hf) rfl) (heard_ok _ _) <|
    askAll_ok (exec_btrunco_whole (by exact hf) holen) (heard_ok _ _) <|
    askAll_ok (exec_scDecrypt_sent (by exact hf) hk hm rfl) (heard_ok _ _) (askAll_nil _)
  exact ⟨_, _, hrecover, rfl, rfl, hf, rfl⟩

end

theorem map_setWidth_textValues (m : List Byte) : (textValues m).map (·.setWidth 8) = m := by
  simp [textValues, Function.comp_def]

/-- A receiver that finds the frame of a sent Message at the front of RXFIFO delivers its text (R187). -/
theorem receiveFrame_sent {r : State} {m k rest : List Byte} {f : Bool} (hf : r.fault = 0) (hp : r.params.InBounds)
    (hm : m ≠ []) (hk : k ≠ []) (hl : r.status.linkup = true) (hb : r.status.broken = false)
    (hmfit : m.length ≤ r.params.tmax) (hkfit : k.length ≤ r.params.kmax)
    (hfit : (serialize (sentMessage m k f)).length ≤ r.params.pmax)
    (hq : r.rxfifo = frame (serialize (sentMessage m k f)) ++ rest) :
    ∃ r', receiveFrame r = .next (.values (textValues m), r') ∧ r'.txt = m ∧ r'.fault = 0 ∧ r'.rxfifo = rest := by
  have hread := exec_ftRead_frame hf hp hl hb hq hfit
  obtain ⟨vs, u, hrecover, hlast, htxt, hfault, hrest⟩ :=
    askAll_recoverCommands (s := respond 0x00 (lenWord (serialize (sentMessage m k f)).length)
      { r with
        pay := serialize (sentMessage m k f), rxfifo := rest
        rxlen := lenWord (serialize (sentMessage m k f)).length
        rxcnt := lenWord (serialize (sentMessage m k f)).length }) hf hp hm hk hmfit hkfit rfl
  have hlen : (vs.getLastD 0).toNat = u.txt.length := by
    obtain ⟨-, htmax, -⟩ := hp
    rw [hlast, htxt, lenWord, BitVec.toNat_ofNat, Nat.mod_eq_of_lt (by omega)]
  obtain ⟨rs, hd, htext⟩ := askAll_readText u hfault hlen
  rw [htxt] at htext
  exact ⟨_, receiveFrame_ok hread (heard_ok _ _) hrecover htext, rfl, hfault, hrest⟩

/-! ## Turns that deliver nothing (R187) -/

section
variable {s t : State} (n : Nat)

theorem receiveFrames_closed (h : receiveFrame s = .next (.closed, t)) :
    receiveFrames (n + 1) s = .next ([], .closed, t) := by
  rw [receiveFrames, h]; rfl

theorem receiveFrames_reported {status : BitVec 8} (h : receiveFrame s = .next (.reported status, t)) :
    receiveFrames (n + 1) s = .next ([], .reported status, t) := by
  rw [receiveFrames, h]; rfl

theorem receiveFrames_waiting (h : receiveFrame s = .next (.waiting, t)) :
    receiveFrames (n + 1) s = .next ([], .waiting, t) := by
  rw [receiveFrames, h]; rfl

end

end Sys2Proof.Machine

namespace Sys2Proof.Proofs

open Sys2Proof.Machine Sys2Proof.Claims

/-- Settles O45: the length of a frame says where it ends. -/
theorem frameStreamSplitsOneWay : Obligations.FrameStreamSplitsOneWay := by
  refine ⟨fun p => by rw [bytesBE_eq_u32be]; rfl, fun ps qs => flatMap_frame_inj,
    fun s ps rest hf hp hl hb hfit hq => ?_⟩
  obtain ⟨u, hu, hfault, hrest, hpay, hresp⟩ := execAll_ftRead hf hp hl hb hfit hq
  refine ⟨u, hu, hfault, hrest, fun p hlast => ?_, hresp⟩
  rw [hpay, List.getLastD_eq_getLast?, hlast, Option.getD_some]

/-- Settles O54: what is sent is the frame of `sentMessage`, which the receiver unpacks, decodes and decrypts to the
text. -/
theorem receiverRecoversSentText : Obligations.ReceiverRecoversSentText := by
  intro m k f s accepts draws size hsize hm hk _ hf hl hb hmfit hkfit hfit hdraw hacc
  rw [← serialize_sentMessage_length m k f] at hsize
  subst hsize
  obtain ⟨s', hsend, hfault, htxout⟩ := execAll_senderCommands hf hm hk hl hb hmfit hkfit hfit hdraw hacc
  refine ⟨s', frame (serialize (sentMessage m k f)), hsend, hfault, htxout, frame_length _, ?_⟩
  intro r rest hinv hrf hrl hrb hrm hrk hrfit hq
  obtain ⟨r', hturn, htxt, hrfault, hrest⟩ := receiveFrame_sent hrf hinv.params hm hk hrl hrb hrm hrk hrfit hq
  refine ⟨r', hturn, htxt, hrfault, hrest, fun n texts e u hmore => ?_⟩
  rw [receiveFrames_ok hturn hmore, map_setWidth_textValues]

/-- Settles O55: a turn in which FT.READ does not answer OK ends in the state FT.READ left; a held FT.READ that
completes is the command run again. -/
theorem receiverStopsWhereReadStops : Obligations.ReceiverStopsWhereReadStops := by
  refine ⟨fun n s hf => ⟨fun t v h => receiveFrames_closed n (receiveFrame_closed h), fun t status hstatus h => ?_,
    fun hl hready => ?_⟩, fun s t hheld hready hstep => ?_⟩
  · obtain rfl | rfl : status = 0x12 ∨ status = 0x13 := by simpa using hstatus
    · exact receiveFrames_reported n (receiveFrame_reported h (by decide) (by decide))
    · exact receiveFrames_reported n (receiveFrame_reported h (by decide) (by decide))
  · exact receiveFrames_waiting n (receiveFrame_waiting (exec_ftRead_holds hf hl hready) rfl)
  · rw [receiveFrame, ← step_of_readCompletes (readCompletes_of_held hheld hready), hstep, andThen_next]

end Sys2Proof.Proofs
end
